-- ==== Sys2Proof/Word.lean ====
section
/-! DEFINITION. The units the block moves (rule R9): bytes, code points, and the two typed lanes of a sequence register. -/

namespace Sys2Proof

/-- `Byte`, a natural number 0..255 (rule R9). -/
abbrev Byte := BitVec 8

/-- `CodePoint`, a Unicode scalar value (rule R9): 0..0x10FFFF without 0xD800..0xDFFF, which is what Lean's `Char` is. -/
abbrev CodePoint := Char

/-- A sequence register whose unit type the operation decides (rules R23, R24, R39).
An encoder's IN and a decoder's OUT are the `bytes` lane; a decoder's IN and an encoder's OUT are the `text` lane.
DESIGN CHOICE, safe (log 3): two typed lanes instead of one sequence of an undetermined unit. -/
structure Lanes where
  bytes : List Byte
  text : List CodePoint
  deriving DecidableEq, Repr

/-- `[]` in both lanes. -/
def Lanes.empty : Lanes := { bytes := [], text := [] }

end Sys2Proof
end

