-- ==== Sys2Proof/Syntax.lean ====
section
/-! DEFINITION. The eight operations (rule R56), one constructor per row of spec/opcode_table.json. -/

namespace Sys2Proof

/-- `CODEC`, in the order of the field's values (rule R54). -/
inductive Codec where
  | base32
  | base85
  | base58
  | base122
  deriving DecidableEq, Repr

/-- `DIR` (rule R55): bytes to text, or text to bytes. -/
inductive Dir where
  | enc
  | dec
  deriving DecidableEq, Repr

/-- The operations of the block. None has an operand in the command word: the one operand is IN (rule R58). -/
inductive Instr where
  | b32enc
  | b32dec
  | b85enc
  | b85dec
  | b58enc
  | b58dec
  | b122enc
  | b122dec
  deriving DecidableEq, Repr

/-- The codec an operation belongs to (rule R56). -/
def Instr.codec : Instr → Codec
  | .b32enc => .base32
  | .b32dec => .base32
  | .b85enc => .base85
  | .b85dec => .base85
  | .b58enc => .base58
  | .b58dec => .base58
  | .b122enc => .base122
  | .b122dec => .base122

/-- The direction of an operation (rule R56). -/
def Instr.dir : Instr → Dir
  | .b32enc => .enc
  | .b32dec => .dec
  | .b85enc => .enc
  | .b85dec => .dec
  | .b58enc => .enc
  | .b58dec => .dec
  | .b122enc => .enc
  | .b122dec => .dec

end Sys2Proof
end

