-- ==== Sys2Proof/Decode.lean ====
section
/-! DEFINITION. The 4-bit command word: its fields, the decoder, and after it the encoder (rules R53 to R57). -/

namespace Sys2Proof

/-- What a command word stands for: an operation, or one of the eight reserved values, which are rejected by name (rule R57). -/
inductive Decoded where
  | command (i : Instr)
  | reserved (op : BitVec 4)
  deriving DecidableEq, Repr

/-- `OP[3]`, RSV (rule R53). -/
def rsvField (op : BitVec 4) : BitVec 1 := op.extractLsb' 3 1

/-- `OP[2:1]`, CODEC (rule R53). -/
def codecField (op : BitVec 4) : BitVec 2 := op.extractLsb' 1 2

/-- `OP[0]`, DIR (rule R53). -/
def dirField (op : BitVec 4) : BitVec 1 := op.extractLsb' 0 1

/-- The CODEC field's values (rule R54). -/
def codecOfField (f : BitVec 2) : Codec :=
  if f = 0b00#2 then .base32
  else if f = 0b01#2 then .base85
  else if f = 0b10#2 then .base58
  else .base122

/-- The DIR field's values (rule R55). -/
def dirOfField (f : BitVec 1) : Dir := if f = 0b0#1 then .enc else .dec

/-- The operation of a codec and a direction (rule R56). -/
def instrOf : Codec → Dir → Instr
  | .base32, .enc => .b32enc
  | .base32, .dec => .b32dec
  | .base85, .enc => .b85enc
  | .base85, .dec => .b85dec
  | .base58, .enc => .b58enc
  | .base58, .dec => .b58dec
  | .base122, .enc => .b122enc
  | .base122, .dec => .b122dec

/-- The decoding rule of R56: "if OP[3] = 1, the command is reserved. Otherwise the codec is OP[2:1] and the direction is OP[0]". -/
def decode (op : BitVec 4) : Decoded :=
  if rsvField op = 0b1#1 then .reserved op
  else .command (instrOf (codecOfField (codecField op)) (dirOfField (dirField op)))

/-- The CODEC field of a codec (rule R54). -/
def codecBits : Codec → BitVec 2
  | .base32 => 0b00#2
  | .base85 => 0b01#2
  | .base58 => 0b10#2
  | .base122 => 0b11#2

/-- The DIR field of a direction (rule R55). -/
def dirBits : Dir → BitVec 1
  | .enc => 0b0#1
  | .dec => 0b1#1

/-- The command word of an operation: RSV = 0, CODEC, DIR (rule R53). -/
def encode (i : Instr) : BitVec 4 := 0b0#1 ++ codecBits i.codec ++ dirBits i.dir

/-- The command word is the low four bits of what the host presents (rule R161: `OP <- cmd[3:0]`).
The bits of the opcode table's one byte above bit 3 are no bits of the command (log 13). -/
def commandWord (w : Nat) : BitVec 4 := BitVec.ofNat 4 w

/-- The instruction the decoder reads from an instruction whose bits are `w`, numbered as spec/opcode_table.json numbers them.
Every command is one 4-bit word (rule R60), so `nbits` tells nothing more. -/
def decodeTableWord (_nbits w : Nat) : Option Instr :=
  match decode (commandWord w) with
  | .command i => some i
  | .reserved _ => none

end Sys2Proof
end

