-- ==== Sys2Proof/Config.lean ====
section
/-! DEFINITION. The implementation parameters of rule R7, the fixed group widths, and the free values of 93_implementation_defined.md. -/

namespace Sys2Proof

/-- `B85_OVERFLOW` (rules R7, R107): what B85DEC does with a group value above 2^32 - 1. -/
inductive B85Overflow where
  | wrap
  | error
  deriving DecidableEq, Repr

/-- `B32_FOLD` (rules R7, R88): which letters B32DEC folds. -/
inductive B32Fold where
  | ascii
  | javaChar
  deriving DecidableEq, Repr

/-- `B58_TRIM` (rules R7, R119): whether B58DEC strips outer blanks of a non-blank text. -/
inductive B58Trim where
  | noTrim
  | outer
  deriving DecidableEq, Repr

/-- The parameters of rule R7, fixed for one machine.
They stand in State so that a statement about every state is a statement about every choice of them (log 1).
`IDX_W` is derived from `maxInLen` (`Machine.Params.idxWidth`) and has no field of its own. -/
structure Params where
  /-- `MAX_IN_LEN`: `none` is the ideal block's infinity. -/
  maxInLen : Option Nat
  b85Overflow : B85Overflow
  b32Fold : B32Fold
  /-- `BLANK_SET`: the code points that make a text blank for B58DEC. -/
  blankSet : List CodePoint
  b58Trim : B58Trim
  /-- `B122_SHORT`: the shortened-marker index of Base122. -/
  b122Short : BitVec 3
  deriving DecidableEq, Repr

namespace Config

/-- `GROUP_B32` (rule R7): the BitCursor group width of Base32. -/
abbrev groupB32 : Nat := 5

/-- `GROUP_B122` (rule R7): the BitCursor group width of Base122. -/
abbrev groupB122 : Nat := 7

/-- The n-th free byte sequence (rules R136, R146, R163; U1, U4, U5): any value, so it has no body (log 4). -/
opaque freeBytes : Nat → List Byte

/-- The n-th free text (rules R146, R163; U4, U5): any value, so it has no body (log 4). -/
opaque freeText : Nat → List CodePoint

/-- The n-th free 7-bit group (U2): what B122DEC's table gives for an index it has no entry for (log 7). -/
opaque freeGroup : Nat → BitVec 7

/-- The n-th free CODE field (rule R163, U5): what a host reads from it while the block is BUSY (log 6). -/
opaque freeCode : Nat → BitVec 3

/-- The n-th free ERR_INDEX (rule R163, U5): what a host reads from it, in IDX_W bits, while the block is BUSY (log 6). -/
opaque freeIndex : Nat → Nat

end Config

end Sys2Proof
end

