-- ==== Sys2Proof/Machine/Tables.lean ====
section
/-! DEFINITION. The constant tables of rule R31 and the spec's choice of the parameters of rule R7.
The tables are ROM: no step writes them, so they are definitions and no field of State. -/

namespace Sys2Proof.Machine

/-- `B32_ALPHA` (rule R63). -/
def b32Alpha : List CodePoint :=
  ['0', '1', '2', '3', '4', '5', '6', '7', '8', '9', 'A', 'B', 'C', 'D', 'E', 'F'] ++
  ['G', 'H', 'J', 'K', 'M', 'N', 'P', 'Q', 'R', 'S', 'T', 'V', 'W', 'X', 'Y', 'Z']

/-- `B32_ALPHA[v]` for a 5-bit group v (rule R63). -/
def b32Symbol (v : BitVec 5) : CodePoint := b32Alpha[v.toNat]'(v.isLt)

/-- The aliases of rule R64, for decode only. -/
def b32AliasValue (u : CodePoint) : Option (BitVec 5) :=
  if u = 'O' then some 0
  else if u = 'I' then some 1
  else if u = 'L' then some 1
  else none

/-- `B32_REV` (rule R64): the reverse alphabet lookup, falling back to the aliases. -/
def b32Rev (u : CodePoint) : Option (BitVec 5) :=
  match b32Alpha.idxOf? u with
  | some v => some (BitVec.ofNat 5 v)
  | none => b32AliasValue u

/-- `B32_IGNORE` (rule R65): tab, line feed, vertical tab, form feed, carriage return, space, `-`. -/
def b32Ignore : List CodePoint :=
  [Char.ofNat 0x09, Char.ofNat 0x0A, Char.ofNat 0x0B, Char.ofNat 0x0C, Char.ofNat 0x0D, Char.ofNat 0x20, Char.ofNat 0x2D]

/-- The code point `0x21 + d` of a base-85 digit d (rule R66). -/
def b85Symbol (d : Nat) : CodePoint := Char.ofNat (0x21 + d)

/-- The shortcut symbol of Base85 (rule R66). -/
def b85Shortcut : CodePoint := Char.ofNat 0x7A

/-- `B85_IGNORE` (rule R66): B32_IGNORE without `-`. -/
def b85Ignore : List CodePoint :=
  [Char.ofNat 0x09, Char.ofNat 0x0A, Char.ofNat 0x0B, Char.ofNat 0x0C, Char.ofNat 0x0D, Char.ofNat 0x20]

/-- `B58_ALPHA` (rule R67). -/
def b58Alpha : List CodePoint :=
  ['1', '2', '3', '4', '5', '6', '7', '8', '9'] ++
  ['A', 'B', 'C', 'D', 'E', 'F', 'G', 'H', 'J', 'K', 'L', 'M'] ++
  ['N', 'P', 'Q', 'R', 'S', 'T', 'U', 'V', 'W', 'X', 'Y', 'Z'] ++
  ['a', 'b', 'c', 'd', 'e', 'f', 'g', 'h', 'i', 'j', 'k', 'm'] ++
  ['n', 'o', 'p', 'q', 'r', 's', 't', 'u', 'v', 'w', 'x', 'y', 'z']

/-- `B58_ALPHA[d]` for a base-58 digit d (rule R67). -/
def b58Symbol (d : Fin 58) : CodePoint := b58Alpha[d.val]'(d.isLt)

/-- `B58_REV` (rule R68): no aliases, no folding, no ignored set. -/
def b58Rev (c : CodePoint) : Option Nat := b58Alpha.idxOf? c

/-- `B122_ILLEGAL` (rule R69), in the order that is the index (D13): NUL, LF, CR, `"`, `&`, `\`. -/
def b122Illegal : List Byte := [0x00#8, 0x0A#8, 0x0D#8, 0x22#8, 0x26#8, 0x5C#8]

/-- `index_of` (rules R125, R128): the illegal index of a 7-bit group, reinterpreted as a byte, if it has one. -/
def b122IndexOf (g : BitVec 7) : Option (Fin 6) := b122Illegal.finIdxOf? (g.setWidth 8)

/-- `B122_ILLEGAL[idx]` as a 7-bit group (rules R132, R134); an index with no entry gives none (rule R137 (a)). -/
def b122IllegalGroup (idx : BitVec 3) : Option (BitVec 7) := (b122Illegal[idx.toNat]?).map (·.setWidth 7)

/-- The spec's choice of `BLANK_SET` (rules R7, R119). -/
def defaultBlankSet : List CodePoint :=
  [Char.ofNat 0x09, Char.ofNat 0x0A, Char.ofNat 0x0B, Char.ofNat 0x0C, Char.ofNat 0x0D, Char.ofNat 0x20]

/-- The spec's choices of rule R7, with `MAX_IN_LEN` infinite.
DESIGN CHOICE, unsafe (log 1): the spec leaves `MAX_IN_LEN` open; infinity is the ideal block of D8. -/
def defaultParams : Params :=
  { maxInLen := none
    b85Overflow := .wrap
    b32Fold := .ascii
    blankSet := defaultBlankSet
    b58Trim := .noTrim
    b122Short := 7 }

end Sys2Proof.Machine
end

