-- ==== Sys2Proof/Machine/State.lean ====
section
/-! DEFINITION. Everything the spec gives the machine (rule R17), as plain data, with the reset values of rule R34. -/

namespace Sys2Proof.Machine

/-- `STATE` (rule R18): no transaction since reset, transaction running, result available. The value 3 is never held. -/
inductive Phase where
  | idle
  | busy
  | done
  deriving DecidableEq, Repr

/-- `CODE` (rules R20, R140). The values 5 to 7 are never held. -/
inductive Code where
  | ok
  | invalidEncoding
  /-- Kept for the taxonomy; no operation raises it (rule R143). -/
  | invalidArgument
  | illegalCommand
  | capacityExceeded
  deriving DecidableEq, Repr

/-- The content of `PEND` while an escape is open (rule R30): `illegal(idx, g)`. -/
structure Pending where
  idx : Fin 6
  group : BitVec 7
  deriving DecidableEq, Repr

/-- The working registers, hidden from the host (rules R25 to R30), at the widths of those rules. -/
structure Work where
  pos : Nat
  curByte : Nat
  curBit : BitVec 3
  acc : BitVec 7
  accCnt : BitVec 3
  chunk : BitVec 32
  chunkCnt : BitVec 3
  b85Buf : Vector (BitVec 7) 5
  b85Cnt : BitVec 3
  big : Nat
  zcount : Nat
  pend : Option Pending
  deriving DecidableEq, Repr

/-- The working registers' reset values (rule R34), which START gives them too (rule R35). -/
def Work.reset : Work :=
  { pos := 0
    curByte := 0
    curBit := 0
    acc := 0
    accCnt := 0
    chunk := 0
    chunkCnt := 0
    b85Buf := Vector.replicate 5 0
    b85Cnt := 0
    big := 0
    zcount := 0
    pend := none }

/-- A START request: the command word and the host's input sequence (rules R6, R53).
The host drives both lanes; the operation's own lane is the one captured (rule R39, log 3). -/
structure Request where
  cmd : BitVec 4
  input : Lanes
  deriving DecidableEq, Repr

/-- What the host can read (rule R33). -/
inductive Port where
  | status
  | errIndex
  | op
  | out
  deriving DecidableEq, Repr

/-- One move of the host (rules R22, R33, R157, R160); `wait` is a step in which it does nothing. -/
inductive HostEvent where
  | start (r : Request)
  | reset
  | read (p : Port)
  | writeStatus (v : BitVec 8)
  | wait
  deriving DecidableEq, Repr

/-- The state: the registers of rules R18 to R30, the parameters of rule R7, and two fields of the model's own, `host` (log 2) and `draws` (log 4). -/
structure State where
  /-- `STATE` (rule R18). -/
  phase : Phase
  /-- `OP` (rule R19). -/
  op : BitVec 4
  /-- `CODE` (rule R20). -/
  code : Code
  /-- `ERR_INDEX` (rule R21): IDX_W bits, which its one writer `State.terminate` keeps to and the invariant says. -/
  errIndex : Nat
  /-- `IN` (rule R23). -/
  input : Lanes
  /-- `OUT` (rule R24). -/
  out : Lanes
  /-- POS to PEND (rules R25 to R30). -/
  work : Work
  /-- The parameters of rule R7; no step writes them (log 1). -/
  params : Params
  /-- The host's coming moves, the next one first (log 2). -/
  host : List HostEvent
  /-- How many free values have been drawn (log 4). -/
  draws : Nat
  deriving DecidableEq, Repr

/-- The machine right after reset (rules R34, R157), with the spec's choice of parameters and a host that does nothing. -/
def State.reset : State :=
  { phase := .idle
    op := 0
    code := .ok
    errIndex := 0
    input := Lanes.empty
    out := Lanes.empty
    work := Work.reset
    params := defaultParams
    host := []
    draws := 0 }

/-- Reasons to stop with a fault. There are none: "Nothing traps" (60_exceptions.md); an error ends the transaction with a CODE (rule R146, log 15). -/
inductive Fault where
  deriving DecidableEq, Repr

/-- Reasons to refuse. -/
inductive Refusal where
  /-- Raised by an arm of `exec` whose instruction has no meaning yet; safe. No arm raises it: every operation has its meaning. -/
  | notModelled (mnemonic : String)
  deriving DecidableEq, Repr

/-- What one step answers. -/
abbrev Result := Host.Outcome State Fault Refusal

end Sys2Proof.Machine
end

