-- ==== Sys2Proof/Machine/Operands.lean ====
section
/-! DEFINITION. The one operand, IN (rules R38, R58), and the number helpers of rule R12. -/

namespace Sys2Proof.Machine

/-- `MemRead(i, 1)` of an encoder: unit i of IN, if there is one (rules R11, R38). -/
def State.memReadByte (s : State) (i : Nat) : Option Byte := s.input.bytes[i]?

/-- `MemRead(i, 1)` of a decoder: unit i of IN, if there is one (rules R11, R38). -/
def State.memReadText (s : State) (i : Nat) : Option CodePoint := s.input.text[i]?

/-- `IN_LEN` of an operation (rules R23, R39): the length of the lane its direction reads. -/
def State.inLen (s : State) : Dir → Nat
  | .enc => s.input.bytes.length
  | .dec => s.input.text.length

/-- `IN_LEN > MAX_IN_LEN` (rules R145, R147). -/
def Params.exceeds (p : Params) (inLen : Nat) : Bool :=
  match p.maxInLen with
  | none => false
  | some n => decide (n < inLen)

/-- `be_nat(s)` (rule R12): the number whose big-endian base-256 digits are s. -/
def beNat (s : List Byte) : Nat := s.foldl (fun v x => 256 * v + x.toNat) 0

/-- `be_bytes(v, k)` (rule R12): the k-byte big-endian representation of v. -/
def beBytes (v : Nat) : Nat → List Byte
  | 0 => []
  | k + 1 => BitVec.ofNat 8 (v / 256 ^ k) :: beBytes v k

/-- The bytes of v, least significant first, put in front of `tail` until v is 0; each division at least halves v, so `fuel` of its bit length is enough. -/
def minBeInto : Nat → Nat → List Byte → List Byte
  | 0, _, tail => tail
  | fuel + 1, v, tail => if v = 0 then tail else minBeInto fuel (v / 256) (BitVec.ofNat 8 v :: tail)

/-- `min_be(v)` (rule R12): the shortest big-endian byte sequence of v, `[]` for 0. -/
def minBe (v : Nat) : List Byte := minBeInto (Nat.log2 v + 1) v []

/-- `lead(s, x)` (rule R12): the number of leading elements of s equal to x. -/
def lead {α : Type} [DecidableEq α] (x : α) : List α → Nat
  | [] => 0
  | y :: ys => if y = x then lead x ys + 1 else 0

/-- `fold(c)` (rule R88): c - 0x20 for `a`..`z`; the alternative `java_char` also takes U+0131 to `I` and U+017F to `S`. -/
def foldCase (mode : B32Fold) (c : CodePoint) : CodePoint :=
  if 0x61 ≤ c.toNat ∧ c.toNat ≤ 0x7A then Char.ofNat (c.toNat - 0x20)
  else
    match mode with
    | .ascii => c
    | .javaChar =>
      if c = Char.ofNat 0x131 then Char.ofNat 0x49
      else if c = Char.ofNat 0x17F then Char.ofNat 0x53
      else c

/-- Field [10:8] of a code point (rules R70, R134). -/
def escapeIndex (c : CodePoint) : BitVec 3 := BitVec.ofNat 3 (c.toNat >>> 8)

/-- Field [6:0] of a code point (rules R70, R134). -/
def escapePayload (c : CodePoint) : BitVec 7 := BitVec.ofNat 7 c.toNat

/-- The escape code point `(idx << 8) | 0x80 | payload` (rules R70, R128, R129). -/
def escapeUnit (idx : BitVec 3) (payload : BitVec 7) : CodePoint :=
  Char.ofNat ((idx.toNat <<< 8) ||| 0x80 ||| payload.toNat)

end Sys2Proof.Machine
end

