-- ==== Sys2Proof/Machine/Widths.lean ====
section
/-! DEFINITION. The widths of a bounded block, `MAX_IN_LEN = n` (rules R7, R29, R37), and the OUT capacity of rule R40 (log 19).
Registers of a fixed width (ACC, ACC_CNT, CUR_BIT, CHUNK, CHUNK_CNT, B85_CNT, B85_BUF) carry it in their type in `Work`. -/

namespace Sys2Proof.Machine

/-- `ceil(log2(n + 1))`: the bits of ERR_INDEX, POS, CUR_BYTE and ZCOUNT (rules R7, R37). -/
def indexWidth (n : Nat) : Nat := Nat.clog 2 (n + 1)

/-- `IDX_W` (rule R7): `none` is the ideal block's unbounded natural. -/
def Params.idxWidth (p : Params) : Option Nat := p.maxInLen.map indexWidth

/-- What an IDX_W-bit register or port holds of an index (rules R7, R21).
No index that is reported is cut, because it is below IN_LEN, which is at most MAX_IN_LEN (log 19). -/
def Params.fitIndex (p : Params) (i : Nat) : Nat :=
  match Params.idxWidth p with
  | none => i
  | some w => i % 2 ^ w

/-- The bits of BIG (rules R29, R37): `8n` for B58ENC, `ceil(n * log2(58))` for B58DEC. -/
def bigWidth : Dir → Nat → Nat
  | .enc, n => 8 * n
  | .dec, n => Nat.clog 2 (58 ^ n)

/-- The bound of OUT_LEN on success for an input of n units (rule R40); at n = MAX_IN_LEN it is the OUT capacity of a bounded block (rule R37).
`ceil(8n / log2(58))` is the least D with `256^n ≤ 58^D`. -/
def outBound : Instr → Nat → Nat
  | .b32enc, n => (8 * n + 4) / 5
  | .b32dec, n => 5 * n / 8
  | .b85enc, n => (5 * n + 3) / 4
  | .b85dec, n => 4 * n
  | .b58enc, n => n + Nat.clog 58 (256 ^ n)
  | .b58dec, n => n
  | .b122enc, n => (8 * n + 6) / 7
  | .b122dec, n => 14 * n / 8

end Sys2Proof.Machine
end

