-- ==== Sys2Proof/Machine/Ops.lean ====
section
/-! DEFINITION. The operations every meaning is built from: emitting, walking IN, completing, error termination, and accepting a START. -/

namespace Sys2Proof.Machine

/-- How an operation ends (rule R11): `return`, or `raise InvalidEncoding(index)`. -/
inductive OpResult where
  | returns (s : State)
  | raises (index : Nat) (s : State)
  deriving DecidableEq, Repr

/-- The state an operation ended in. -/
def OpResult.state : OpResult → State
  | .returns s => s
  | .raises _ s => s

/-- Go on with `k` unless the operation has raised: "it stops the operation at once" (rule R146). -/
def OpResult.andThen (r : OpResult) (k : State → OpResult) : OpResult :=
  match r with
  | .returns s => k s
  | .raises i s => .raises i s

/-- `EmitAll` of bytes (rules R11, R40): append to OUT. -/
def State.emitBytes (s : State) (bs : List Byte) : State := { s with out.bytes := s.out.bytes ++ bs }

/-- `EmitAll` of code points (rules R11, R40): append to OUT. -/
def State.emitText (s : State) (cs : List CodePoint) : State := { s with out.text := s.out.text ++ cs }

/-- POS is incremented by exactly 1 after each unit is consumed (rule R25). -/
def State.advancePos (s : State) : State := { s with work.pos := s.work.pos + 1 }

/-- `for POS in 0..n-1` (rules R25, R148): the units in increasing index order, POS naming the unit in hand, stopping at the first raise. -/
def forUnits (f : CodePoint → State → OpResult) : List CodePoint → State → OpResult
  | [], s => .returns s
  | c :: cs, s =>
    match f c s with
    | .returns s' => forUnits f cs s'.advancePos
    | .raises i s' => .raises i s'

/-- Completion with OK (rules R140, R162). -/
def State.complete (s : State) : State := { s with phase := .done, code := .ok, errIndex := 0 }

/-- Error termination, the block's only exception entry (rule R146): CODE and ERR_INDEX, IDX_W bits wide (rule R21), are written, STATE becomes DONE, OUT is unspecified (a free value, log 5), and nothing else is saved. -/
def State.terminate (s : State) (code : Code) (index : Nat) : State :=
  { s with
    phase := .done
    code := code
    errIndex := Params.fitIndex s.params index
    out := { bytes := Config.freeBytes s.draws, text := Config.freeText s.draws }
    draws := s.draws + 1 }

/-- The lane of an input sequence that a command reads, by its DIR bit (rules R39, R55). -/
def Lanes.capture (cmd : BitVec 4) (l : Lanes) : Lanes :=
  if cmd.getLsbD 0 then { bytes := [], text := l.text } else { bytes := l.bytes, text := [] }

/-- An accepted START (rule R161), which is also the only way on from an error (rule R152). -/
def State.acceptStart (s : State) (r : Request) : State :=
  { s with
    op := r.cmd
    input := Lanes.capture r.cmd r.input
    out := Lanes.empty
    code := .ok
    errIndex := 0
    work := Work.reset
    phase := .busy }

/-- Reset (rules R157, R165): every register takes its reset value; the parameters and the host's own moves are no registers of the block (log 14). -/
def State.resetBlock (s : State) : State :=
  { State.reset with params := s.params, host := s.host, draws := s.draws }

/-- A transaction's completion after IllegalCommand is ruled out (rules R147, R162): CapacityExceeded first, then the operation's own rules. -/
def transact (dir : Dir) (body : State → OpResult) (s : State) : Result :=
  if Params.exceeds s.params (s.inLen dir) then .next (s.terminate .capacityExceeded 0)
  else
    match body s with
    | .returns s' => .next s'.complete
    | .raises i s' => .next (s'.terminate .invalidEncoding i)

end Sys2Proof.Machine
end

