-- ==== Sys2Proof/Machine/BitCursor.lean ====
section
/-! DEFINITION. BitCursor, the shared bit-group primitive (40_bitcursor.md): the read side R76 and the write side R78. -/

namespace Sys2Proof.Machine

/-- The cursor at `bit` bits of the current byte (rule R76): from 8 on it is in the next byte. -/
def State.setCursor (s : State) (bit : Nat) : State :=
  if 8 ≤ bit then { s with work.curByte := s.work.curByte + 1, work.curBit := BitVec.ofNat 3 (bit - 8) }
  else { s with work.curBit := BitVec.ofNat 3 bit }

/-- The cursor after k more bits (rule R76). -/
def State.advanceCursor (s : State) (k : Nat) : State := s.setCursor (s.work.curBit.toNat + k)

/-- The 16-bit window at CUR_BYTE (rule R76): that byte and the next, or 0 past the end. -/
def State.window (s : State) (hi : Byte) : BitVec 16 := hi ++ (s.memReadByte (s.work.curByte + 1)).getD 0

/-- `nextGroup(IN, k)` (rules R76, R77): the next k-bit group, or `none` for exhausted with the registers unchanged. -/
def nextGroup (k : Nat) (s : State) : Option (BitVec k) × State :=
  match s.memReadByte s.work.curByte with
  | none => (none, s)
  | some hi =>
    (some (BitVec.setWidth k (s.window hi >>> (16 - s.work.curBit.toNat - k))), s.advanceCursor k)

/-- The accumulator with the `cnt` bits of t in it (rule R78): from 8 on, the oldest 8 are emitted and the rest kept. -/
def State.takeBits (s : State) (t cnt : Nat) : State :=
  if 8 ≤ cnt then
    { s.emitBytes [BitVec.ofNat 8 (t >>> (cnt - 8))] with
      work.acc := BitVec.ofNat 7 (t % 2 ^ (cnt - 8)), work.accCnt := BitVec.ofNat 3 (cnt - 8) }
  else { s with work.acc := BitVec.ofNat 7 (t % 2 ^ cnt), work.accCnt := BitVec.ofNat 3 cnt }

/-- `pushGroup(k, v)` (rule R78): shift v into ACC, emit a completed byte, keep the remainder. -/
def pushGroup {k : Nat} (v : BitVec k) (s : State) : State :=
  s.takeBits ((s.work.acc.toNat <<< k) ||| v.toNat) (s.work.accCnt.toNat + k)

/-- More calls of nextGroup than IN has groups: each takes at least one of its 8n bits, and one more call signals exhaustion (rule R74). -/
def State.groupFuel (s : State) : Nat := 8 * s.input.bytes.length + 1

end Sys2Proof.Machine
end

