-- ==== Sys2Proof/Machine/Base122.lean ====
section
/-! DEFINITION. B122ENC and B122DEC (44_base122.md). -/

namespace Sys2Proof.Machine

/-- The plain unit of a group (rules R71, R127). -/
def plainUnit (g : BitVec 7) : CodePoint := Char.ofNat g.toNat

/-- PEND is set, or cleared by `none` (rules R30, R125). -/
def State.setPend (s : State) (p : Option Pending) : State := { s with work.pend := p }

/-- An illegal group g of index idx (rules R128, R129): PEND holds it while the next group is read; the escape carries that group, or g itself behind the shortened marker when there is none. -/
def b122EncEscape (idx : Fin 6) (g : BitVec 7) (s : State) : State :=
  match nextGroup Config.groupB122 (s.setPend (some { idx := idx, group := g })) with
  | (some h, s') => (s'.emitText [escapeUnit (BitVec.ofNat 3 idx.val) h]).setPend none
  | (none, s') => (s'.emitText [escapeUnit s'.params.b122Short g]).setPend none

/-- The loop of B122ENC (rules R125 to R129). -/
def b122EncLoop : Nat → State → State
  | 0, s => s
  | fuel + 1, s =>
    match nextGroup Config.groupB122 s with
    | (none, s') => s'
    | (some g, s') =>
      match b122IndexOf g with
      | none => b122EncLoop fuel (s'.emitText [plainUnit g])
      | some idx => b122EncLoop fuel (b122EncEscape idx g s')

/-- The body of B122ENC (rule R125). -/
def b122EncBody (s : State) : OpResult := .returns (b122EncLoop s.groupFuel s)

/-- The illegal byte an escape pushes first (rules R132, R134); the entry of an index that has none is a free group (rule R137 (a), log 7). -/
def b122PushIllegal (idx : BitVec 3) (s : State) : State :=
  match b122IllegalGroup idx with
  | some g => pushGroup g s
  | none => pushGroup (Config.freeGroup s.draws) { s with draws := s.draws + 1 }

/-- One unit of B122DEC's datapath D (rules R132 to R134); it never raises. -/
def b122DecUnit (c : CodePoint) (s : State) : OpResult :=
  if c.toNat ≤ 0x7F then .returns (pushGroup (escapePayload c) s)
  else if escapeIndex c = s.params.b122Short then .returns (pushGroup (escapePayload c) s)
  else .returns (pushGroup (escapePayload c) (b122PushIllegal (escapeIndex c) s))

/-- A state right after START with an input, for running a datapath on its own. -/
def State.scratch (p : Params) (input : Lanes) : State :=
  { State.reset with phase := .busy, params := p, input := input }

/-- `B122ENC(b)` as a function of its input (rule R136). -/
def b122EncodeText (p : Params) (b : List Byte) : List CodePoint :=
  (b122EncBody (State.scratch p { bytes := b, text := [] })).state.out.text

/-- `D(t)`, the datapath of rule R132 as a function of its input (rule R136). -/
def b122Datapath (p : Params) (t : List CodePoint) : List Byte :=
  (forUnits b122DecUnit t (State.scratch p { bytes := [], text := t })).state.out.bytes

/-- The datapath reaches `unspecified` (rules R132, R137 (a)): an escape, not the shortened one, whose index has no entry. -/
def b122ReachesUnspecified (p : Params) (t : List CodePoint) : Bool :=
  t.any fun c => decide (0x7F < c.toNat) && decide (escapeIndex c ≠ p.b122Short) && (b122IllegalGroup (escapeIndex c)).isNone

/-- `WF(t)` (rule R136). It decides where OUT is exact; the block itself reports nothing (rule R142). -/
def b122WellFormedText (p : Params) (t : List CodePoint) : Bool :=
  !b122ReachesUnspecified p t && decide (b122EncodeText p (b122Datapath p t) = t)

/-- OUT of B122DEC (rule R136): the datapath's output when WF holds, and any byte sequence otherwise (a free value, log 7). -/
def b122DecSettle (s : State) : State :=
  if b122WellFormedText s.params s.input.text then s
  else { s with out.bytes := Config.freeBytes s.draws, draws := s.draws + 1 }

/-- The body of B122DEC (rules R132, R135, R136). -/
def b122DecBody (s : State) : OpResult :=
  (forUnits b122DecUnit s.input.text s).andThen fun s' => .returns (b122DecSettle s')

/-- B122ENC (rule R125). -/
def execB122Enc (s : State) : Result := transact .enc b122EncBody s

/-- B122DEC (rule R132). -/
def execB122Dec (s : State) : Result := transact .dec b122DecBody s

end Sys2Proof.Machine
end

