-- ==== Sys2Proof/Machine/Base32.lean ====
section
/-! DEFINITION. B32ENC and B32DEC (41_base32.md). -/

namespace Sys2Proof.Machine

/-- The loop of B32ENC (rule R82): emit the symbol of each group until exhaustion. -/
def b32EncLoop : Nat → State → State
  | 0, s => s
  | fuel + 1, s =>
    match nextGroup Config.groupB32 s with
    | (none, s') => s'
    | (some v, s') => b32EncLoop fuel (s'.emitText [b32Symbol v])

/-- The body of B32ENC (rule R82). -/
def b32EncBody (s : State) : OpResult := .returns (b32EncLoop s.groupFuel s)

/-- What a unit of a Base32 text resolves to (rules R86, R88, R89). -/
def b32Value (mode : B32Fold) (c : CodePoint) : Option (BitVec 5) := b32Rev (foldCase mode c)

/-- One unit of B32DEC (rules R85 to R90): ignored, a value to push, or the error. -/
def b32DecUnit (c : CodePoint) (s : State) : OpResult :=
  if c ∈ b32Ignore then .returns s
  else
    match b32Value s.params.b32Fold c with
    | some v => .returns (pushGroup v s)
    | none => .raises s.work.pos s

/-- The body of B32DEC (rule R85); what is left in ACC is discarded (rule R91). -/
def b32DecBody (s : State) : OpResult := forUnits b32DecUnit s.input.text s

/-- B32ENC (rule R82). -/
def execB32Enc (s : State) : Result := transact .enc b32EncBody s

/-- B32DEC (rule R85). -/
def execB32Dec (s : State) : Result := transact .dec b32DecBody s

end Sys2Proof.Machine
end

