-- ==== Sys2Proof/Machine/Base58.lean ====
section
/-! DEFINITION. B58ENC and B58DEC (43_base58.md). -/

namespace Sys2Proof.Machine

/-- The loop `while BIG > 0` of B58ENC (rules R112, R115), its digits least significant first in front of which `digits` were found; each division at least halves BIG, so `fuel` of its bit length is enough. -/
def b58DigitLoop : Nat → State → List (Fin 58) → List (Fin 58) × State
  | 0, s, digits => (digits, s)
  | fuel + 1, s, digits =>
    if s.work.big = 0 then (digits, s)
    else
      b58DigitLoop fuel { s with work.big := s.work.big / 58 }
        (digits ++ [⟨s.work.big % 58, Nat.mod_lt _ (by decide)⟩])

/-- ZCOUNT and BIG of the input (rules R114, R116). -/
def State.loadBig (s : State) : State :=
  { s with work.zcount := lead 0 s.input.bytes, work.big := beNat s.input.bytes }

/-- Emit ZCOUNT `1` symbols, then the digits most significant first (rules R115, R116). -/
def b58EncEmit (r : List (Fin 58) × State) : State :=
  (r.2.emitText (List.replicate r.2.work.zcount (b58Symbol 0))).emitText (r.1.reverse.map b58Symbol)

/-- The body of B58ENC (rules R112 to R116). -/
def b58EncBody (s : State) : OpResult :=
  if s.input.bytes = [] then .returns s
  else .returns (b58EncEmit (b58DigitLoop (Nat.log2 s.loadBig.work.big + 1) s.loadBig []))

/-- A blank text (rules R14, R119): empty, or all units in BLANK_SET. -/
def isBlankText (p : Params) (t : List CodePoint) : Bool := t.all fun c => p.blankSet.contains c

/-- One unit of B58DEC (rules R118, R120, R121). -/
def b58DecUnit (c : CodePoint) (s : State) : OpResult :=
  match b58Rev c with
  | none => .raises s.work.pos s
  | some d => .returns { s with work.big := s.work.big * 58 + d }

/-- How many units B58_TRIM = outer drops at the start of a text (rule R119). -/
def b58Skip (p : Params) (t : List CodePoint) : Nat :=
  match p.b58Trim with
  | .noTrim => 0
  | .outer => (t.takeWhile fun c => p.blankSet.contains c).length

/-- The units of a non-blank text that are processed (rule R119): all of them, or what is left without outer blanks. -/
def b58Trimmed (p : Params) (t : List CodePoint) : List CodePoint :=
  match p.b58Trim with
  | .noTrim => t
  | .outer =>
    ((t.dropWhile fun c => p.blankSet.contains c).reverse.dropWhile fun c => p.blankSet.contains c).reverse

/-- What B58DEC emits after its loop (rules R122, R123): ZCOUNT zero bytes, then the magnitude. -/
def b58DecEmit (t : List CodePoint) (s : State) : State :=
  ({ s with work.zcount := lead (b58Symbol 0) t }.emitBytes (List.replicate (lead (b58Symbol 0) t) 0)).emitBytes
    (minBe s.work.big)

/-- The body of B58DEC (rules R118 to R123); POS names units of IN also when outer blanks are dropped (rule R148).
DEDUCED, unsafe under `outer` (log 10): the spec says neither where POS starts nor whether removed trailing blanks count as consumed.
Here POS starts behind the leading blanks and the walk ends with POS short of IN_LEN by the trailing ones. -/
def b58DecBody (s : State) : OpResult :=
  if isBlankText s.params s.input.text then .returns s
  else
    (forUnits b58DecUnit (b58Trimmed s.params s.input.text)
      { s with work.big := 0, work.pos := b58Skip s.params s.input.text }).andThen
      fun s' => .returns (b58DecEmit (b58Trimmed s.params s.input.text) s')

/-- B58ENC (rule R112). -/
def execB58Enc (s : State) : Result := transact .enc b58EncBody s

/-- B58DEC (rule R118). -/
def execB58Dec (s : State) : Result := transact .dec b58DecBody s

end Sys2Proof.Machine
end

