-- ==== Sys2Proof/Machine/Base85.lean ====
section
/-! DEFINITION. B85ENC and B85DEC (42_base85.md). -/

namespace Sys2Proof.Machine

/-- `d[t] = (CHUNK div 85^(4-t)) mod 85` for t = 0..4 (rule R99). -/
def b85Digits (chunk : Nat) : List Nat :=
  [chunk / 85 ^ 4 % 85, chunk / 85 ^ 3 % 85, chunk / 85 ^ 2 % 85, chunk / 85 % 85, chunk % 85]

/-- The value of a chunk (rule R97): its bytes followed by zero bytes up to four, big-endian. -/
def b85ChunkValue (bs : List Byte) : Nat := beNat (bs ++ List.replicate (4 - bs.length) 0)

/-- The symbols of a chunk of `cnt` bytes and value `chunk` (rules R98 to R100). -/
def b85ChunkText (chunk : Nat) (cnt : Nat) : List CodePoint :=
  if cnt = 4 ∧ chunk = 0 then [b85Shortcut]
  else ((b85Digits chunk).take (cnt + 1)).map b85Symbol

/-- CHUNK_CNT and CHUNK for the chunk in hand (rules R96, R97). -/
def State.loadChunk (s : State) (bs : List Byte) : State :=
  { s with
    work.chunkCnt := BitVec.ofNat 3 bs.length
    work.chunk := BitVec.ofNat 32 (b85ChunkValue bs) }

/-- Emit the symbols of the loaded chunk (rule R96). -/
def State.emitChunk (s : State) : State := s.emitText (b85ChunkText s.work.chunk.toNat s.work.chunkCnt.toNat)

/-- One chunk of B85ENC (rule R96). -/
def b85EncChunk (bs : List Byte) (s : State) : State := (s.loadChunk bs).emitChunk

/-- The loop of B85ENC over chunks of 4 bytes, the last of 1 to 4 (rules R96, R97). -/
def b85EncLoop : List Byte → State → State
  | a :: b :: c :: d :: rest, s => b85EncLoop rest (b85EncChunk [a, b, c, d] s)
  | [], s => s
  | tail, s => b85EncChunk tail s

/-- The body of B85ENC (rule R96). -/
def b85EncBody (s : State) : OpResult := .returns (b85EncLoop s.input.bytes s)

/-- The group value V of five digits, the first at the highest power (rule R107, C3). -/
def b85GroupValue (e : Vector (BitVec 7) 5) : Nat :=
  e[0].toNat * 85 ^ 4 + e[1].toNat * 85 ^ 3 + e[2].toNat * 85 ^ 2 + e[3].toNat * 85 + e[4].toNat

/-- V does not fit in 32 bits and B85_OVERFLOW says that this is an error (rule R107).
A group of one symbol "raises no error" (rule R108), whatever its padded value (log 9). -/
def b85Overflows (p : Params) (m v : Nat) : Bool :=
  decide (p.b85Overflow = .error) && decide (1 < m) && decide (2 ^ 32 ≤ v)

/-- Decode the m digits in B85_BUF and append m - 1 bytes (rules R106 to R108); an overflow that is an error names `unitIndex`. -/
def b85EmitGroup (m unitIndex : Nat) (s : State) : OpResult :=
  if b85Overflows s.params m (b85GroupValue s.work.b85Buf) then .raises unitIndex s
  else .returns (s.emitBytes ((beBytes (b85GroupValue s.work.b85Buf % 2 ^ 32) 4).take (m - 1)))

/-- Put a digit into the next slot (rules R102, R105). -/
def b85PushDigit (d : Nat) (s : State) : State :=
  { s with
    work.b85Buf := s.work.b85Buf.setIfInBounds s.work.b85Cnt.toNat (BitVec.ofNat 7 d)
    work.b85Cnt := s.work.b85Cnt + 1 }

/-- Decode the group at once when its fifth slot is filled, and empty the buffer (rule R106). -/
def b85FullGroup (s : State) : OpResult :=
  if s.work.b85Cnt = 5 then
    (b85EmitGroup 5 s.work.pos s).andThen fun s' => .returns { s' with work.b85Cnt := 0 }
  else .returns s

/-- A unit in the symbol range 0x21..0x75 (rules R102, R105): store its digit, and decode the group when that was the fifth. -/
def b85DecSymbol (c : CodePoint) (s : State) : OpResult := b85FullGroup (b85PushDigit (c.toNat - 0x21) s)

/-- The valid symbol range of rule R105. -/
def b85InRange (c : CodePoint) : Bool := decide (0x21 ≤ c.toNat) && decide (c.toNat ≤ 0x75)

/-- One unit of B85DEC (rules R102 to R105). -/
def b85DecUnit (c : CodePoint) (s : State) : OpResult :=
  if c ∈ b85Ignore then .returns s
  else if c = b85Shortcut then
    if s.work.b85Cnt = 0 then .returns (s.emitBytes [0, 0, 0, 0]) else .raises s.work.pos s
  else if b85InRange c then b85DecSymbol c s
  else .raises s.work.pos s

/-- Fill the slots m..4 with 84, the digit of `u` (rule R108). -/
def b85Pad (m : Nat) (e : Vector (BitVec 7) 5) : Vector (BitVec 7) 5 :=
  Vector.ofFn fun i : Fin 5 => if i.val < m then e[i] else 84#7

/-- The index of the last unit that is not ignored: the last symbol of a partial final group (log 9). -/
def b85LastSymbol (text : List CodePoint) : Nat :=
  (text.reverse.dropWhile (· ∈ b85Ignore)).length - 1

/-- The partial final group (rule R108). -/
def b85DecTail (s : State) : OpResult :=
  if s.work.b85Cnt = 0 then .returns s
  else
    b85EmitGroup s.work.b85Cnt.toNat (b85LastSymbol s.input.text)
      { s with work.b85Buf := b85Pad s.work.b85Cnt.toNat s.work.b85Buf }

/-- The body of B85DEC (rule R102). -/
def b85DecBody (s : State) : OpResult :=
  (forUnits b85DecUnit s.input.text { s with work.b85Cnt := 0 }).andThen b85DecTail

/-- B85ENC (rule R96). -/
def execB85Enc (s : State) : Result := transact .enc b85EncBody s

/-- B85DEC (rule R102). -/
def execB85Dec (s : State) : Result := transact .dec b85DecBody s

end Sys2Proof.Machine
end

