-- ==== Sys2Proof/Machine/Dispatch.lean ====
section
/-! DEFINITION. exec: the completion of a running transaction whose command is an operation (rules R56, R162), one arm per constructor of Instr. -/

namespace Sys2Proof.Machine

def exec (i : Instr) (s : State) : Host.Outcome State Fault Refusal :=
  match i with
  | .b32enc => Sys2Proof.Machine.execB32Enc s
  | .b32dec => Sys2Proof.Machine.execB32Dec s
  | .b85enc => Sys2Proof.Machine.execB85Enc s
  | .b85dec => Sys2Proof.Machine.execB85Dec s
  | .b58enc => Sys2Proof.Machine.execB58Enc s
  | .b58dec => Sys2Proof.Machine.execB58Dec s
  | .b122enc => Sys2Proof.Machine.execB122Enc s
  | .b122dec => Sys2Proof.Machine.execB122Dec s

end Sys2Proof.Machine
end

