-- ==== Sys2Proof/Machine/Moves.lean ====
section
/-! DEFINITION. What a step does: the host's moves as the block sees them, reset, START, and completion (rules R157, R160 to R162). -/

namespace Sys2Proof.Machine

/-- The host's next move leaves the block alone (rules R22, R49, R170): a read, a write of STATUS, or nothing. -/
def HostEvent.isPassive : HostEvent → Bool
  | .start _ => false
  | .reset => false
  | .read _ => true
  | .writeStatus _ => true
  | .wait => true

/-- Reset is asserted now (rule R157). -/
def State.resetAsserted (s : State) : Bool := s.host.head? == some .reset

/-- The state after a move that leaves the block alone is used up; a START that waits stays first (rule R160). -/
def State.passMove (s : State) : State :=
  match s.host with
  | [] => s
  | e :: rest => if e.isPassive then { s with host := rest } else s

/-- The step in which reset is asserted (rules R157, R165). -/
def State.takeReset (s : State) : State := { s.resetBlock with host := s.host.tail }

/-- The step of a block that is not BUSY (rules R160, R161, R170): accept a START if one is presented, else keep everything. -/
def State.idleStep (s : State) : State :=
  match s.host with
  | .start r :: rest => { s with host := rest }.acceptStart r
  | _ => s.passMove

/-- The completion of a reserved command (rules R57, R144). -/
def reservedCommand (s : State) : Result := .next (s.terminate .illegalCommand 0)

/-- The completion step (rules R147, R162): IllegalCommand first, then what the operation gives. -/
def finishTransaction (s : State) : Result :=
  match decode s.op with
  | .reserved _ => reservedCommand s
  | .command i => exec i s

/-- The block's next step. Reset wins; a BUSY block completes its transaction while a START is held; otherwise the host moves. -/
def nextStep (s : State) : Result :=
  if s.resetAsserted then .next s.takeReset
  else if s.phase = .busy then finishTransaction s.passMove
  else .next s.idleStep

/-- `s` as it is right after a START of the command word `w` with the input `s` holds is accepted, no reset being asserted (log 13). -/
def State.loadCommand (s : State) (w : BitVec 4) : State :=
  { s with host := s.host.dropWhile (· == HostEvent.reset) }.acceptStart { cmd := w, input := s.input }

end Sys2Proof.Machine
end

