-- ==== Sys2Proof/Machine/Step.lean ====
section
/-! DEFINITION. One step of the machine, and where a command is placed for the next step to run it. -/

namespace Sys2Proof.Machine

/-- One step (rules R157, R160 to R162). -/
def step (s : State) : Host.Outcome State Fault Refusal := nextStep s

/-- `s` with a command stored where the next step takes it from (log 13): the block has no program memory (rule R52), so the command is placed as an accepted START places it (rule R161), with the input `s` holds. -/
def State.withFetchWord (s : State) (_nbits w : Nat) : State := s.loadCommand (commandWord w)

end Sys2Proof.Machine
end

