-- ==== Sys2Proof/Closed.lean ====
section
/-! DEFINITION. The closed forms the spec gives beside its pseudocode, written from those rules and not from the meanings: statements say that the register-level machine computes them. -/

namespace Sys2Proof.Closed

open Sys2Proof Sys2Proof.Machine

/-- `bitz(b, p)` (rule R73): bit p of the stream, most significant bit of byte 0 first, 0 past the end. -/
def bitz (b : List Byte) (p : Nat) : Nat :=
  match b[p / 8]? with
  | some x => x.toNat / 2 ^ (7 - p % 8) % 2
  | none => 0

/-- `G_k(n) = ceil(8n / k)` (rule R74). -/
def groupCount (k n : Nat) : Nat := (8 * n + k - 1) / k

/-- `group_k(b, i)` (rule R75). -/
def groupAt (k : Nat) (b : List Byte) (i : Nat) : Nat :=
  ((List.range k).map fun j => bitz b (k * i + j) * 2 ^ (k - 1 - j)).sum

/-- `Groups_k(b)` (rule R75). -/
def groups (k : Nat) (b : List Byte) : List (BitVec k) :=
  (List.range (groupCount k b.length)).map fun i => BitVec.ofNat k (groupAt k b i)

/-- `S` of rule R79: the groups' bits, each group most significant bit first. -/
def groupBits {k : Nat} (vs : List (BitVec k)) : List Bool :=
  vs.flatMap fun v => (List.range k).map fun j => v.getMsbD j

/-- The number whose binary digits are these bits, the first the most significant. -/
def bitsValue (bits : List Bool) : Nat := bits.foldl (fun v x => 2 * v + x.toNat) 0

/-- `byte_j` of rule R79. -/
def packedByte (bits : List Bool) (j : Nat) : Byte :=
  BitVec.ofNat 8 ((List.range 8).map fun t => (bits.getD (8 * j + t) false).toNat * 2 ^ (7 - t)).sum

/-- `Pack_k(vs)` (rule R79): the whole bytes of S; the last partial byte is discarded. -/
def pack {k : Nat} (vs : List (BitVec k)) : List Byte :=
  (List.range (k * vs.length / 8)).map (packedByte (groupBits vs))

/-- The resolved values of a Base32 text in input order (rules R87, R91). -/
def b32Values (mode : B32Fold) (t : List CodePoint) : List (BitVec 5) :=
  (t.filter fun c => !b32Ignore.contains c).filterMap (b32Value mode)

/-- An invalid unit of a Base32 text (rule R90): not ignored, and its fold resolves to nothing. -/
def b32Invalid (mode : B32Fold) (c : CodePoint) : Bool := !b32Ignore.contains c && (b32Value mode c).isNone

/-- The symbols of one Base85 chunk of 1 to 4 bytes (rules R97 to R100): `z` for a full zero chunk, else its first r + 1 digits, the chunk's value being its bytes followed by zero bytes. -/
def b85ChunkSymbols (bs : List Byte) : List CodePoint :=
  if bs.length = 4 ∧ beNat bs = 0 then ['z']
  else (List.range (bs.length + 1)).map fun t => Char.ofNat (0x21 + beNat bs * 256 ^ (4 - bs.length) / 85 ^ (4 - t) % 85)

/-- The chunks of B85ENC (rule R97): 4 bytes each from index 0, the last of 1 to 4. -/
def b85Chunks (b : List Byte) : List (List Byte) :=
  (List.range ((b.length + 3) / 4)).map fun q => (b.drop (4 * q)).take 4

/-- The digit of a symbol in the range `!`..`u` (rule R66). -/
def b85Digit (c : CodePoint) : Nat := c.toNat - 0x21

/-- The value of a group of up to five symbols, padded with the digit 84 of `u` (rules R107, R108). -/
def b85Value (g : List CodePoint) : Nat :=
  (g.map b85Digit ++ List.replicate (5 - g.length) 84).foldl (fun v d => 85 * v + d) 0

/-- A symbol of the range `!`..`u` (rules R66, R105). -/
def b85IsSymbol (c : CodePoint) : Bool := decide (0x21 ≤ c.toNat ∧ c.toNat ≤ 0x75)

/-- The groups of a Base85 text without ignored units (rules R66, R102, R108): each is `z` alone, or five symbols, or one last group of one to four; `none` when it is no such text. -/
def b85Groups : List CodePoint → Option (List (List CodePoint))
  | [] => some []
  | a :: rest =>
    if a = 'z' then (b85Groups rest).map fun gs => ['z'] :: gs
    else
      match rest with
      | b :: c :: d :: e :: rest' =>
        if [a, b, c, d, e].all b85IsSymbol then (b85Groups rest').map fun gs => [a, b, c, d, e] :: gs else none
      | _ => if (a :: rest).all b85IsSymbol then some [a :: rest] else none

/-- The bytes of a group (rules R104, R107, R108): four zero bytes for `z`, else the first m - 1 of the four bytes of its value. -/
def b85GroupBytes (g : List CodePoint) : List Byte :=
  if g = ['z'] then [0, 0, 0, 0] else (beBytes (b85Value g % 2 ^ 32) 4).take (g.length - 1)

/-- The value of a group exceeds 32 bits (rule R107). A group of one symbol has no bytes and "raises no error" (rule R108). -/
def b85GroupOverflows (g : List CodePoint) : Bool := decide (1 < g.length ∧ 2 ^ 32 ≤ b85Value g)

/-- A text without its ignored units (rules R66, R103). -/
def b85Strip (t : List CodePoint) : List CodePoint :=
  t.filter fun c => !decide (c.toNat ∈ [0x09, 0x0A, 0x0B, 0x0C, 0x0D, 0x20])

/-- How one unit moves the number of filled slots (rules R103 to R106); `none` when it is rejected. -/
def b85Slot (k : Nat) (c : CodePoint) : Option Nat :=
  if c.toNat ∈ [0x09, 0x0A, 0x0B, 0x0C, 0x0D, 0x20] then some k
  else if c = 'z' then (if k = 0 then some 0 else none)
  else if b85IsSymbol c then some ((k + 1) % 5)
  else none

/-- The number of filled slots after a text that is accepted so far, from an empty buffer. -/
def b85Slots (t : List CodePoint) : Option Nat := t.foldl (fun k c => k.bind fun k => b85Slot k c) (some 0)

/-- The value of a base-58 numeral, most significant digit first (rules R115, R121). -/
def base58Value (ds : List Nat) : Nat := ds.foldl (fun v d => 58 * v + d) 0

/-- The illegal index of a 7-bit group (rules R69, R128). -/
def b122Index (g : BitVec 7) : Option Nat := [0x00, 0x0A, 0x0D, 0x22, 0x26, 0x5C].idxOf? g.toNat

/-- The escape code point with its fields at [10:8], [7] and [6:0] (rule R70). -/
def b122Escape (idx payload : Nat) : CodePoint := Char.ofNat (256 * idx + 128 + payload)

/-- The units of a group stream (rules R127 to R129). -/
def b122Units (short : BitVec 3) : List (BitVec 7) → List CodePoint
  | [] => []
  | g :: rest =>
    match b122Index g with
    | none => Char.ofNat g.toNat :: b122Units short rest
    | some idx =>
      match rest with
      | [] => [b122Escape short.toNat g.toNat]
      | h :: rest' => b122Escape idx h.toNat :: b122Units short rest'

/-- The groups one unit pushes (rules R133, R134): itself, or the illegal byte of its index and its low 7 bits, or these alone behind the shortened marker. -/
def b122Pushes (short : BitVec 3) (c : CodePoint) : List (BitVec 7) :=
  if c.toNat ≤ 0x7F then [BitVec.ofNat 7 c.toNat]
  else if c.toNat / 256 % 8 = short.toNat then [BitVec.ofNat 7 c.toNat]
  else ([0x00#7, 0x0A#7, 0x0D#7, 0x22#7, 0x26#7, 0x5C#7][c.toNat / 256 % 8]?).toList ++ [BitVec.ofNat 7 c.toNat]

end Sys2Proof.Closed
end

