-- ==== Sys2Proof/Machine/Flags.lean ====
section
/-! DEFINITION. The STATUS word and the host's reads. The block has no flags and no condition codes (rule R32); CODE is the only status. -/

namespace Sys2Proof.Machine

/-- The encoding of STATE (rule R18). -/
def Phase.bits : Phase → BitVec 2
  | .idle => 0
  | .busy => 1
  | .done => 2

/-- The encoding of CODE (rules R20, R140). -/
def Code.bits : Code → BitVec 3
  | .ok => 0
  | .invalidEncoding => 1
  | .invalidArgument => 2
  | .illegalCommand => 3
  | .capacityExceeded => 4

/-- STATUS from its fields (rule R22): [7:5] always 0, [4:2] CODE, [1:0] STATE. -/
def packStatus (code : BitVec 3) (phase : BitVec 2) : BitVec 8 := 0#3 ++ code ++ phase

/-- The STATUS word the registers hold (rule R22). -/
def State.statusWord (s : State) : BitVec 8 := packStatus s.code.bits s.phase.bits

/-- A host read of STATUS (rules R22, R163): while BUSY the CODE field is the reader's n-th free value (log 6). -/
def State.readStatus (s : State) (n : Nat) : BitVec 8 :=
  if s.phase = .busy then packStatus (Config.freeCode n) s.phase.bits else s.statusWord

/-- A host read of ERR_INDEX (rules R21, R163): free while BUSY (log 6), a free value of IDX_W bits. -/
def State.readErrIndex (s : State) (n : Nat) : Nat :=
  if s.phase = .busy then Params.fitIndex s.params (Config.freeIndex n) else s.errIndex

/-- A host read of OP (rules R19, R33). -/
def State.readOp (s : State) : BitVec 4 := s.op

/-- A host read of OUT (rules R24, R33, R163): the result when STATE = DONE and CODE = OK, free otherwise (log 6). -/
def State.readOut (s : State) (n : Nat) : Lanes :=
  if s.phase = .done ∧ s.code = .ok then s.out
  else { bytes := Config.freeBytes n, text := Config.freeText n }

end Sys2Proof.Machine
end

