-- ==== Sys2Proof/WellFormed.lean ====
section
/-! DEFINITION. Which command words, parameters and requests are well formed. Instructions carry no operands (rule R58), so each is. -/

namespace Sys2Proof

/-- "OP[3] RSV reserved; must be 0" (rule R53). -/
def commandWellFormed (op : BitVec 4) : Bool := rsvField op == 0b0#1

/-- An operation has no field that could be ill formed (rules R53, R58); its word is. -/
def Instr.wellFormed (i : Instr) : Bool := commandWellFormed (encode i)

/-- The shortened marker is an index that no illegal byte uses (rule R129). -/
def Params.markerFree (p : Params) : Bool := (Machine.b122IllegalGroup p.b122Short).isNone

/-- No Base58 symbol counts as blank; the spec's BLANK_SET is white space only (rule R119). -/
def Params.blanksApart (p : Params) : Bool := p.blankSet.all fun c => !Machine.b58Alpha.contains c

/-- The parameters a round trip needs: both checks hold of the spec's choices (rule R7). -/
def Params.wellFormed (p : Params) : Bool := p.markerFree && p.blanksApart

end Sys2Proof
end

