-- ==== Sys2Proof/Safety.lean ====
section
/-! DEFINITION. What counts as a safe run, in the terms the statements use: the ready state, the two ways an operation ends, and the invariant every step keeps. -/

namespace Sys2Proof.Machine

/-- The registers are as an accepted START leaves them (rules R35, R161), and the input is within MAX_IN_LEN (rule R145). -/
abbrev State.Ready (s : State) (d : Dir) : Prop :=
  s.work = Work.reset ∧ s.out = Lanes.empty ∧ Params.exceeds s.params (s.inLen d) = false

/-- `OUT_LEN` of an operation (rules R24, R39): the length of the lane its direction writes. -/
def State.outLen (s : State) : Dir → Nat
  | .enc => s.out.text.length
  | .dec => s.out.bytes.length

/-- The transaction completes with CODE = OK, ERR_INDEX = 0, STATE = DONE and this OUT (rules R140, R162). -/
def CompletesWith (r : Result) (out : Lanes) : Prop :=
  ∃ t : State, r = .next t ∧ t.phase = .done ∧ t.code = .ok ∧ t.errIndex = 0 ∧ t.out = out

/-- No output is delivered (rule R146): whatever OUT holds, the n-th read of it gives the n-th free value, which nothing constrains. -/
def State.DeliversNothing (s : State) : Prop :=
  ∀ n : Nat, s.readOut n = { bytes := Config.freeBytes n, text := Config.freeText n }

/-- The transaction ends with this error code and index, STATE = DONE and no output (rule R146). -/
def FailsWith (r : Result) (code : Code) (index : Nat) : Prop :=
  ∃ t : State, r = .next t ∧ t.phase = .done ∧ t.code = code ∧ t.errIndex = index ∧ t.DeliversNothing

/-- The fields a step of the block may change are the same; what is left out is the host's own list and the number of draws. -/
abbrev State.SameRegisters (s t : State) : Prop :=
  t.phase = s.phase ∧ t.op = s.op ∧ t.code = s.code ∧ t.errIndex = s.errIndex ∧ t.input = s.input ∧ t.out = s.out ∧
    t.work = s.work ∧ t.params = s.params

/-- The ranges of the working registers (rules R25 to R30). -/
structure State.WorkInRange (s : State) : Prop where
  pos_le : s.work.pos ≤ s.input.text.length
  curByte_le : s.work.curByte ≤ s.input.bytes.length
  acc_lt : s.work.acc.toNat < 2 ^ s.work.accCnt.toNat
  chunkCnt_le : s.work.chunkCnt.toNat ≤ 4
  b85Cnt_le : s.work.b85Cnt.toNat ≤ 5
  digits_lt : ∀ d ∈ s.work.b85Buf.toList, d.toNat < 85
  pend_none : s.work.pend = none

/-- The registers fit the widths of a block with `MAX_IN_LEN = n` (rules R21, R29, R37). -/
structure State.FitsWidths (s : State) (n : Nat) : Prop where
  errIndex_lt : s.errIndex < 2 ^ indexWidth n
  pos_lt : s.work.pos < 2 ^ indexWidth n
  curByte_lt : s.work.curByte < 2 ^ indexWidth n
  zcount_lt : s.work.zcount < 2 ^ indexWidth n
  big_lt : ∀ i, decode s.op = .command i → s.work.big < 2 ^ bigWidth i.dir n

/-- The invariant of the machine, in every state between two steps. -/
structure State.Inv (s : State) : Prop where
  /-- An idle block is as reset left it (rules R18, R34). -/
  idle_reset : s.phase = .idle → s = { State.reset with params := s.params, host := s.host, draws := s.draws }
  /-- A running transaction has not computed yet: START re-initialised everything (rules R35, R48, R161). -/
  busy_fresh : s.phase = .busy → s.work = Work.reset ∧ s.out = Lanes.empty ∧ s.code = .ok ∧ s.errIndex = 0
  /-- InvalidArgument is never raised (rule R143). -/
  code_raised : s.code ≠ .invalidArgument
  /-- IllegalCommand is for reserved commands (rule R144). -/
  illegal_reserved : s.code = .illegalCommand → rsvField s.op = 1
  /-- Only a decoder reports InvalidEncoding, and never B122DEC (rule R142). -/
  invalid_decoder : s.code = .invalidEncoding → s.op = encode .b32dec ∨ s.op = encode .b85dec ∨ s.op = encode .b58dec
  /-- ERR_INDEX names a unit of IN (rule R21). -/
  errIndex_in : s.code = .invalidEncoding → s.errIndex < s.input.text.length
  /-- For every other CODE it holds 0 (rule R21). -/
  errIndex_zero : s.code ≠ .invalidEncoding → s.errIndex = 0
  /-- IN has the unit type of the operation (rules R23, R39). -/
  input_typed : if s.op.getLsbD 0 then s.input.bytes = [] else s.input.text = []
  /-- OUT has the unit type of the operation whenever it is a result (rules R24, R39). -/
  out_typed : s.phase = .done → s.code = .ok → if s.op.getLsbD 0 then s.out.text = [] else s.out.bytes = []
  /-- The working registers keep to their ranges (rules R25 to R30). -/
  work_in_range : s.WorkInRange
  /-- In a bounded block every register fits its width (rules R21, R37). -/
  in_widths : ∀ n, s.params.maxInLen = some n → s.FitsWidths n

end Sys2Proof.Machine
end

