-- ==== Sys2Proof/Certificates/Slice0/Obligations.lean ====
section
/-! DEFINITION. The statements for the provers, from the numbered rules of spec/. -/

open Sys2Proof Sys2Proof.Machine

/-! ### Encoding -/

/-- The complete operation map of rule R56: eight words, each one operation, and the eight words with OP[3] = 1 reserved. -/
def Obligations.DecodeOfEveryCommandWord : Prop :=
  decode 0b0000#4 = .command .b32enc ∧ decode 0b0001#4 = .command .b32dec ∧
  decode 0b0010#4 = .command .b85enc ∧ decode 0b0011#4 = .command .b85dec ∧
  decode 0b0100#4 = .command .b58enc ∧ decode 0b0101#4 = .command .b58dec ∧
  decode 0b0110#4 = .command .b122enc ∧ decode 0b0111#4 = .command .b122dec ∧
  ∀ op : BitVec 4, op.getLsbD 3 = true → decode op = .reserved op

/-- Decoding and encoding agree, both ways (rules R53 to R56): no bit of a command word is dropped. -/
def Obligations.DecodeAndEncodeAgree : Prop :=
  ∀ (i : Instr) (op : BitVec 4), decode (encode i) = .command i ∧ (decode op = .command i → op = encode i)

/-! ### Steps -/

/-- A step of a BUSY block without reset runs the operation its OP decodes to (rules R56, R162).
What stands beside it is the model's own (log 2): the host's list loses its head when that is a read, a write of STATUS or a wait, and is unchanged when a START waits or the list is empty. -/
def Obligations.StepRunsTheDecodedInstruction : Prop :=
  ∀ (s : State) (i : Instr), s.phase = .busy → s.host.head? ≠ some .reset → decode s.op = .command i →
    step s = exec i s.passMove ∧ s.SameRegisters s.passMove ∧ s.passMove.draws = s.draws ∧
      (∀ e rest, s.host = e :: rest → (∀ r, e ≠ .start r) → s.passMove.host = rest) ∧
      (∀ r rest, s.host = .start r :: rest → s.passMove.host = .start r :: rest) ∧
      (s.host = [] → s.passMove.host = [])

/-- The effect of an accepted START, whole (rules R35, R39, R55, R161): the command and the lane of the input that its DIR bit selects are latched, the results cleared, the working registers re-initialised, STATE = BUSY.
The model's own choices: that the DIR bit of a reserved command selects a lane too (log 3), and what becomes of `host` (log 2) and `draws` (log 4). -/
def Obligations.StartIsLatchedWhenNotBusy : Prop :=
  ∀ (s : State) (cmd : BitVec 4) (input : Lanes) (rest : List HostEvent),
    s.phase ≠ .busy → s.host = .start { cmd := cmd, input := input } :: rest →
      step s = .next
        { phase := .busy, op := cmd, code := .ok, errIndex := 0
          input := if cmd.getLsbD 0 then { bytes := [], text := input.text } else { bytes := input.bytes, text := [] }
          out := { bytes := [], text := [] }, work := Work.reset
          params := s.params, host := rest, draws := s.draws }

/-- A START is accepted in IDLE and DONE, and held while BUSY (rule R160): then the running transaction completes as without it, the request is still there once, and the next step accepts it. -/
def Obligations.StartIsHeldWhileBusy : Prop :=
  ∀ (s : State) (r : Request) (rest : List HostEvent),
    (s.phase = .idle ∨ s.phase = .done →
      step { s with host := .start r :: rest } = .next ({ s with host := rest }.acceptStart r)) ∧
    (s.phase = .busy →
      ∃ u : State, step { s with host := [] } = .next u ∧ u.phase = .done ∧
        step { s with host := .start r :: rest } = .next { u with host := .start r :: rest } ∧
        step { u with host := .start r :: rest } = .next ({ u with host := rest }.acceptStart r))

/-- Reset in any state gives every register of the block its reset value and so abandons a running transaction (rule R157).
Of the model's own fields `host` and `draws` it says nothing (log 14); the parameters are those of the machine (rule R7). -/
def Obligations.ResetTakesEffectInAnyState : Prop :=
  ∀ s : State, s.host.head? = some .reset →
    ∃ t : State, step s = .next t ∧ t = { State.reset with params := s.params, host := t.host, draws := t.draws }

/-- The reset value of every piece of state (rule R34). -/
def Obligations.ResetValuesOfEveryRegister : Prop :=
  State.reset.phase = .idle ∧ State.reset.op = 0b0000#4 ∧ State.reset.code = .ok ∧ State.reset.errIndex = 0 ∧
  State.reset.input = { bytes := [], text := [] } ∧ State.reset.out = { bytes := [], text := [] } ∧
  State.reset.work.pos = 0 ∧ State.reset.work.curByte = 0 ∧ State.reset.work.curBit = 0 ∧
  State.reset.work.acc = 0 ∧ State.reset.work.accCnt = 0 ∧ State.reset.work.chunk = 0 ∧
  State.reset.work.chunkCnt = 0 ∧ State.reset.work.b85Cnt = 0 ∧ State.reset.work.b85Buf = #v[0, 0, 0, 0, 0] ∧
  State.reset.work.big = 0 ∧ State.reset.work.zcount = 0 ∧ State.reset.work.pend = none ∧
  State.reset.statusWord = 0x00#8

/-- DONE is stable (rule R170): whatever the host does but a START or a reset, reads among it, every register keeps its value. -/
def Obligations.DoneIsStable : Prop :=
  ∀ s : State, s.phase = .done → s.host.head? ≠ some .reset → (∀ r, s.host.head? ≠ some (.start r)) →
    ∃ t : State, step s = .next t ∧ s.SameRegisters t

/-- Every accepted transaction completes (rule R162): a BUSY block without reset is DONE after one step. -/
def Obligations.EveryTransactionCompletes : Prop :=
  ∀ s : State, s.phase = .busy → s.host.head? ≠ some .reset → ∃ t : State, step s = .next t ∧ t.phase = .done

/-- The machine never stops: every step from every state answers a next state (rules R146, R162; log 15). -/
def Obligations.EveryStepAnswersNext : Prop := ∀ s : State, ∃ t : State, step s = .next t

/-- STATE, OP and IN are written by START, completion and reset alone (rules R18, R19, R23), and the parameters by nothing. -/
def Obligations.OnlyStartResetAndCompletionWriteStateOpAndIn : Prop :=
  ∀ s t : State, step s = .next t →
    t.params = s.params ∧
    (s.host.head? ≠ some .reset → s.phase = .busy → t.phase = .done ∧ t.op = s.op ∧ t.input = s.input) ∧
    (s.host.head? ≠ some .reset → s.phase ≠ .busy → (∀ r, s.host.head? ≠ some (.start r)) →
      t.phase = s.phase ∧ t.op = s.op ∧ t.input = s.input) ∧
    (∀ r, s.phase ≠ .busy → s.host.head? = some (.start r) → t.phase = .busy ∧ t.op = r.cmd)

/-- One transaction from a block that is not BUSY (rules R160 to R162): two steps, the START and then the operation on the state START leaves. -/
def Obligations.TransactionIsStartThenOperation : Prop :=
  ∀ (s : State) (r : Request) (i : Instr), s.phase ≠ .busy → s.host = [.start r] → decode r.cmd = .command i →
    core.run 2 s = exec i ({ s with host := [] }.acceptStart r)

/-! ### Errors and their order -/

/-- A reserved command completes with IllegalCommand and index 0 (rules R57, R144); it reads no input, however long, so IN and the working registers are unchanged, and it delivers no output. -/
def Obligations.ReservedCommandIsIllegal : Prop :=
  ∀ s : State, s.phase = .busy → s.host.head? ≠ some .reset → s.op.getLsbD 3 = true →
    ∃ t : State, step s = .next t ∧ t.phase = .done ∧ t.code = .illegalCommand ∧ t.errIndex = 0 ∧ t.DeliversNothing ∧
      t.op = s.op ∧ t.input = s.input ∧ t.work = s.work ∧ t.params = s.params

/-- An input longer than MAX_IN_LEN completes with CapacityExceeded and index 0, for every operation (rule R145); it reads no input, so IN and the working registers are unchanged, and it delivers no output. With MAX_IN_LEN infinite the code never occurs. -/
def Obligations.LongInputExceedsCapacity : Prop :=
  (∀ (i : Instr) (s : State) (n : Nat), s.params.maxInLen = some n → n < s.inLen i.dir →
    ∃ t : State, exec i s = .next t ∧ t.phase = .done ∧ t.code = .capacityExceeded ∧ t.errIndex = 0 ∧ t.DeliversNothing ∧
      t.op = s.op ∧ t.input = s.input ∧ t.work = s.work ∧ t.params = s.params ∧ t.host = s.host) ∧
  ∀ (i : Instr) (s t : State), s.params.maxInLen = none → exec i s = .next t → t.code ≠ .capacityExceeded

/-- The order of the checks at completion (rule R147): IllegalCommand, then CapacityExceeded, then the operation's own rules, which give OK or InvalidEncoding. -/
def Obligations.ErrorsComeInThePriorityOrder : Prop :=
  ∀ s : State, s.phase = .busy → s.host.head? ≠ some .reset →
    ∃ t : State, step s = .next t ∧
      (s.op.getLsbD 3 = true → t.code = .illegalCommand) ∧
      (∀ i, decode s.op = .command i →
        (Params.exceeds s.params (s.inLen i.dir) = true → t.code = .capacityExceeded) ∧
        (Params.exceeds s.params (s.inLen i.dir) = false → t.code = .ok ∨ t.code = .invalidEncoding))

/-- Encoders never fail (rule R141): OK for every input within MAX_IN_LEN, in every state. -/
def Obligations.EncodersNeverFail : Prop :=
  ∀ s : State, Params.exceeds s.params s.input.bytes.length = false →
    ∀ i, i = Instr.b32enc ∨ i = Instr.b85enc ∨ i = Instr.b58enc ∨ i = Instr.b122enc →
      ∃ t : State, exec i s = .next t ∧ t.phase = .done ∧ t.code = .ok ∧ t.errIndex = 0

/-- B122DEC never raises (rules R132, R142): OK and index 0 on every text within MAX_IN_LEN, well formed or not. -/
def Obligations.Base122DecoderNeverRaises : Prop :=
  ∀ s : State, Params.exceeds s.params s.input.text.length = false →
    ∃ t : State, exec .b122dec s = .next t ∧ t.phase = .done ∧ t.code = .ok ∧ t.errIndex = 0

/-! ### What the host sees -/

/-- The STATUS word (rule R22): its fields and the reserved bits, 0 at reset, and that a write to it has no effect on the block. -/
def Obligations.StatusWordHoldsStateAndCode : Prop :=
  (∀ s : State,
    s.statusWord.extractLsb' 0 2 = (match s.phase with | .idle => 0#2 | .busy => 1#2 | .done => 2#2) ∧
    s.statusWord.extractLsb' 2 3 =
      (match s.code with
        | .ok => 0#3 | .invalidEncoding => 1#3 | .invalidArgument => 2#3 | .illegalCommand => 3#3 | .capacityExceeded => 4#3) ∧
    s.statusWord.extractLsb' 5 3 = 0#3) ∧
  State.reset.statusWord = 0#8 ∧
  ∀ (s : State) (v : BitVec 8) (rest : List HostEvent),
    step { s with host := .writeStatus v :: rest } = step { s with host := .wait :: rest }

/-- What a host read gives (rules R21, R24, R33, R163): OUT exactly when DONE with OK, and a free value otherwise; CODE and ERR_INDEX from the registers unless BUSY, and free values of their widths while BUSY, ERR_INDEX being `ceil(log2(MAX_IN_LEN + 1))` bits wide (rule R7).
That CODE and ERR_INDEX read in IDLE give the registers, and that a free value is the reader's n-th, is the model's choice (log 6; rule R20 calls CODE meaningful only at DONE). -/
def Obligations.HostReadsTheRegistersAtDone : Prop :=
  ∀ (s : State) (n : Nat),
    (s.phase ≠ .busy → s.readStatus n = s.statusWord ∧ s.readErrIndex n = s.errIndex) ∧
    (s.phase = .busy →
      (s.readStatus n).extractLsb' 0 2 = 1#2 ∧ (s.readStatus n).extractLsb' 2 3 = Config.freeCode n ∧
      (s.readStatus n).extractLsb' 5 3 = 0#3 ∧
      (s.params.maxInLen = none → s.readErrIndex n = Config.freeIndex n) ∧
      ∀ m, s.params.maxInLen = some m → s.readErrIndex n = Config.freeIndex n % 2 ^ Nat.clog 2 (m + 1)) ∧
    s.readOp = s.op ∧
    (s.phase = .done ∧ s.code = .ok → s.readOut n = s.out) ∧
    (¬ (s.phase = .done ∧ s.code = .ok) → s.readOut n = { bytes := Config.freeBytes n, text := Config.freeText n })

/-! ### BitCursor -/

/-- The read side (rules R73 to R77): call i returns group i of the bit stream while `k*i < 8n` and moves the cursor by k bits; after that it signals exhaustion and changes nothing. -/
def Obligations.NextGroupReadsTheBitStream : Prop :=
  ∀ (k : Nat) (s : State) (i : Nat), k = 5 ∨ k = 7 → 8 * s.work.curByte + s.work.curBit.toNat = k * i →
    (k * i < 8 * s.input.bytes.length →
      ∃ s' : State, nextGroup k s = (some (BitVec.ofNat k (Closed.groupAt k s.input.bytes i)), s') ∧
        8 * s'.work.curByte + s'.work.curBit.toNat = k * (i + 1) ∧
        s' = { s with work := { s.work with curByte := s'.work.curByte, curBit := s'.work.curBit } }) ∧
    (8 * s.input.bytes.length ≤ k * i → nextGroup k s = (none, s))

/-- The write side in closed form (rule R79): pushing groups from an empty accumulator emits exactly `Pack_k`; the remaining `(k*m) mod 8` bits of S are left in ACC, the oldest most significant (rule R27), and nothing else changes. -/
def Obligations.PushedGroupsArePacked : Prop :=
  ∀ (k : Nat) (vs : List (BitVec k)) (s : State), k = 5 ∨ k = 7 → s.work.accCnt = 0 → s.work.acc = 0 →
    ∃ t : State, vs.foldl (fun s v => pushGroup v s) s = t ∧
      t.out.bytes = s.out.bytes ++ Closed.pack vs ∧ t.work.accCnt.toNat = k * vs.length % 8 ∧
      t.work.acc.toNat = Closed.bitsValue ((Closed.groupBits vs).drop (k * vs.length / 8 * 8)) ∧
      t = { s with out := { s.out with bytes := t.out.bytes }, work := { s.work with acc := t.work.acc, accCnt := t.work.accCnt } }

/-- The round-trip law of BitCursor (rule R80). -/
def Obligations.PackInvertsGroups : Prop :=
  ∀ (k : Nat) (b : List Byte), k = 5 ∨ k = 7 → Closed.pack (Closed.groups k b) = b

/-! ### Base32 -/

/-- B32ENC (rules R62, R83, R84): exactly the symbols of the 5-bit groups, ceil(8n/5) of them, and no padding symbol. -/
def Obligations.Base32EncodesTheGroups : Prop :=
  ∀ s : State, s.Ready .enc →
    CompletesWith (exec .b32enc s) { bytes := [], text := (Closed.groups 5 s.input.bytes).map b32Symbol } ∧
      (Closed.groups 5 s.input.bytes).length = (8 * s.input.bytes.length + 4) / 5

/-- B32DEC on a text with no invalid unit (rules R85 to R91): the resolved values packed, the last partial byte discarded unchecked. -/
def Obligations.Base32DecodesResolvedUnits : Prop :=
  ∀ s : State, s.Ready .dec → (∀ c ∈ s.input.text, Closed.b32Invalid s.params.b32Fold c = false) →
    CompletesWith (exec .b32dec s) { bytes := Closed.pack (Closed.b32Values s.params.b32Fold s.input.text), text := [] }

/-- B32DEC stops at the first invalid unit and reports its index, ignored units counted (rule R90); under the spec's folding the valid units are the 7 ignored, the 32 symbols, their 22 lowercase letters, and the 3 aliases with their lowercase forms. -/
def Obligations.Base32RejectsTheFirstInvalidUnit : Prop :=
  (∀ (s : State) (pre : List CodePoint) (c : CodePoint) (post : List CodePoint), s.Ready .dec →
    s.input.text = pre ++ c :: post → (∀ d ∈ pre, Closed.b32Invalid s.params.b32Fold d = false) →
    Closed.b32Invalid s.params.b32Fold c = true → FailsWith (exec .b32dec s) .invalidEncoding pre.length) ∧
  ∀ c : CodePoint, Closed.b32Invalid .ascii c = true ↔
    c ∉ b32Ignore ∧ c ∉ b32Alpha ∧
    c ∉ ['a', 'b', 'c', 'd', 'e', 'f', 'g', 'h', 'j', 'k', 'm', 'n', 'p', 'q', 'r', 's', 't', 'v', 'w', 'x', 'y', 'z'] ∧
    c ∉ ['O', 'I', 'L', 'o', 'i', 'l']

/-- Ignored units do not affect what B32DEC decodes, and never cause the error (rule R87). -/
def Obligations.Base32IgnoredUnitsDoNotMatter : Prop :=
  ∀ s u : State, s.Ready .dec → u.Ready .dec → u.params = s.params →
    u.input.text = s.input.text.filter (fun c => !b32Ignore.contains c) →
    ∃ t v : State, exec .b32dec s = .next t ∧ exec .b32dec u = .next v ∧ t.code = v.code ∧
      (t.code = .ok → t.out = v.out) ∧
      (t.code = .invalidEncoding → ∀ c, s.input.text[t.errIndex]? = some c → c ∉ b32Ignore)

/-- The aliases (rule R89): `o`, `O` and `0` resolve to 0, and `i`, `I`, `l`, `L` and `1` to 1, whichever folding. -/
def Obligations.Base32AliasesResolve : Prop :=
  ∀ m : B32Fold,
    b32Value m 'o' = some 0 ∧ b32Value m 'O' = some 0 ∧ b32Value m '0' = some 0 ∧
    b32Value m 'i' = some 1 ∧ b32Value m 'I' = some 1 ∧ b32Value m 'l' = some 1 ∧ b32Value m 'L' = some 1 ∧ b32Value m '1' = some 1

/-- Round trip (rule R93): B32DEC of the output of B32ENC on b completes with OK and OUT = b, whatever the parameters. -/
def Obligations.Base32RoundTrip : Prop :=
  ∀ s t u : State, s.Ready .enc → exec .b32enc s = .next t → u.Ready .dec → u.input.text = t.out.text →
    CompletesWith (exec .b32dec u) { bytes := s.input.bytes, text := [] }

/-! ### Base85 -/

/-- B85ENC (rules R97 to R100): the symbols of its 4-byte chunks, `z` for a full zero chunk, r + 1 symbols for a last chunk of r bytes. -/
def Obligations.Base85EncodesTheChunks : Prop :=
  ∀ s : State, s.Ready .enc →
    CompletesWith (exec .b85enc s) { bytes := [], text := (Closed.b85Chunks s.input.bytes).flatMap Closed.b85ChunkSymbols }

/-- The output lengths (rules R40, R101).
B85ENC: `5(q - Z) + Z`, and r + 1 more for a last chunk of r bytes. B32ENC: `ceil(8n/5)`.
Every operation that completes with OK, B122DEC on well-formed text: at most the bound of rule R40 for its input, and so for MAX_IN_LEN, which is the OUT capacity of a bounded block (rule R37). -/
def Obligations.OutputLengthsAndBounds : Prop :=
  (∀ s t : State, s.Ready .enc → exec .b85enc s = .next t →
    let n := s.input.bytes.length
    let z := ((Closed.b85Chunks s.input.bytes).filter fun c => decide (c = [0#8, 0#8, 0#8, 0#8])).length
    t.out.text.length = 5 * (n / 4 - z) + z + (if 0 < n % 4 then n % 4 + 1 else 0)) ∧
  (∀ s t : State, s.Ready .enc → exec .b32enc s = .next t → t.out.text.length = (8 * s.input.bytes.length + 4) / 5) ∧
  ∀ (i : Instr) (s t : State), s.Ready i.dir → exec i s = .next t → t.code = .ok →
    (i = .b122dec → b122WellFormedText s.params s.input.text = true) →
    t.outLen i.dir ≤ outBound i (s.inLen i.dir) ∧
      ∀ m, s.params.maxInLen = some m → t.outLen i.dir ≤ outBound i m

/-- B85DEC (rules R102 to R108): the text without its ignored units is read as groups, and any text so read decodes to the bytes of its groups, under `wrap` always, and under `error` if no group overflows. -/
def Obligations.Base85DecodesTheGroups : Prop :=
  ∀ (s : State) (gs : List (List CodePoint)), s.Ready .dec → Closed.b85Groups (Closed.b85Strip s.input.text) = some gs →
    (s.params.b85Overflow = .wrap ∨ ∀ g ∈ gs, Closed.b85GroupOverflows g = false) →
    CompletesWith (exec .b85dec s) { bytes := gs.flatMap Closed.b85GroupBytes, text := [] }

/-- B85DEC rejects, with its index, the first unit outside the symbol range that is neither ignored nor `z`, and a `z` inside a group (rules R104, R105), under `wrap` always, and under `error` if no group completed before it overflows. -/
def Obligations.Base85RejectsTheFirstInvalidUnit : Prop :=
  ∀ (s : State) (pre : List CodePoint) (c : CodePoint) (post : List CodePoint) (k : Nat), s.Ready .dec →
    s.input.text = pre ++ c :: post → Closed.b85Slots pre = some k →
    (s.params.b85Overflow = .wrap ∨ ∀ gs, Closed.b85Groups (Closed.b85Strip pre) = some gs →
      ∀ g ∈ gs, g.length = 5 → Closed.b85GroupOverflows g = false) →
    (c = 'z' ∧ 0 < k) ∨ (c ∉ b85Ignore ∧ c ≠ 'z' ∧ (c.toNat < 0x21 ∨ 0x75 < c.toNat)) →
    FailsWith (exec .b85dec s) .invalidEncoding pre.length

/-- The value of a five-symbol group (rule R107): below 2^32 its four big-endian bytes; from 2^32 on, modulo 2^32 under `wrap`, and InvalidEncoding at the completing unit under `error`.
Then `error` for any text (rules R107, R108): the first group that overflows ends the transaction at the unit c that completes it.
The model's choice (log 9): a partial final group of two to four symbols that overflows, padded, ends it at its last symbol c; a single trailing symbol, whatever its padded value, raises nothing and adds nothing. -/
def Obligations.Base85GroupValueAndOverflow : Prop :=
  (∀ (s : State) (e0 e1 e2 e3 e4 : Nat), s.Ready .dec → e0 < 85 → e1 < 85 → e2 < 85 → e3 < 85 → e4 < 85 →
    s.input.text = [b85Symbol e0, b85Symbol e1, b85Symbol e2, b85Symbol e3, b85Symbol e4] →
    let v := e0 * 85 ^ 4 + e1 * 85 ^ 3 + e2 * 85 ^ 2 + e3 * 85 + e4
    (v < 2 ^ 32 ∨ s.params.b85Overflow = .wrap → CompletesWith (exec .b85dec s) { bytes := beBytes (v % 2 ^ 32) 4, text := [] }) ∧
    (2 ^ 32 ≤ v → s.params.b85Overflow = .error → FailsWith (exec .b85dec s) .invalidEncoding 4)) ∧
  ∀ (s : State) (pre : List CodePoint) (c : CodePoint) (post : List CodePoint) (gs : List (List CodePoint)) (g : List CodePoint),
    s.Ready .dec → s.params.b85Overflow = .error → s.input.text = pre ++ c :: post → c ∉ b85Ignore →
    Closed.b85Groups (Closed.b85Strip (pre ++ [c])) = some (gs ++ [g]) → (∀ h ∈ gs, Closed.b85GroupOverflows h = false) →
    (g.length = 5 → Closed.b85GroupOverflows g = true → FailsWith (exec .b85dec s) .invalidEncoding pre.length) ∧
    (2 ≤ g.length → g.length ≤ 4 → Closed.b85GroupOverflows g = true → (∀ d ∈ post, d ∈ b85Ignore) →
      FailsWith (exec .b85dec s) .invalidEncoding pre.length) ∧
    (g = [c] → c ≠ 'z' → (∀ d ∈ post, d ∈ b85Ignore) →
      CompletesWith (exec .b85dec s) { bytes := gs.flatMap Closed.b85GroupBytes, text := [] })

/-- Round trip (rule R110): B85DEC of the output of B85ENC on b completes with OK and OUT = b, whatever the parameters. -/
def Obligations.Base85RoundTrip : Prop :=
  ∀ s t u : State, s.Ready .enc → exec .b85enc s = .next t → u.Ready .dec → u.input.text = t.out.text →
    CompletesWith (exec .b85dec u) { bytes := s.input.bytes, text := [] }

/-! ### Base58 -/

/-- B58ENC (rules R113 to R116): one `1` for each leading zero byte, then the base-58 numeral of the input, most significant digit first, with no leading zero digit; `[]` gives `[]`. -/
def Obligations.Base58EncodesTheBigInteger : Prop :=
  ∀ s : State, s.Ready .enc →
    ∃ ds : List (Fin 58),
      CompletesWith (exec .b58enc s)
        { bytes := [], text := List.replicate (lead 0 s.input.bytes) '1' ++ ds.map b58Symbol } ∧
      Closed.base58Value (ds.map Fin.val) = beNat s.input.bytes ∧ ds.head? ≠ some 0

/-- B58DEC of a non-blank text of alphabet symbols (rules R121 to R123): a zero byte for each leading `1`, then the numeral's shortest big-endian bytes; under either B58_TRIM, if no Base58 symbol counts as blank. -/
def Obligations.Base58DecodesTheNumeral : Prop :=
  ∀ (s : State) (ds : List (Fin 58)), s.Ready .dec → s.params.b58Trim = .noTrim ∨ s.params.blanksApart = true →
    isBlankText s.params s.input.text = false → s.input.text = ds.map b58Symbol →
    ∃ m : List Byte,
      CompletesWith (exec .b58dec s) { bytes := List.replicate (lead '1' s.input.text) 0 ++ m, text := [] } ∧
      beNat m = Closed.base58Value (ds.map Fin.val) ∧ m.head? ≠ some 0

/-- B58DEC of a non-blank text reports the index of the first unit that is not in the alphabet, without trimming (rule R120). -/
def Obligations.Base58RejectsTheFirstInvalidUnit : Prop :=
  ∀ (s : State) (pre : List CodePoint) (c : CodePoint) (post : List CodePoint), s.Ready .dec →
    s.params.b58Trim = .noTrim → isBlankText s.params s.input.text = false → s.input.text = pre ++ c :: post →
    (∀ d ∈ pre, d ∈ b58Alpha) → c ∉ b58Alpha → FailsWith (exec .b58dec s) .invalidEncoding pre.length

/-- `B58_TRIM` (rule R119): under `outer`, outer blanks of a text do not change what it decodes to; without trimming the first of them is the error.
Under `outer` the first invalid unit of a text `pre ++ w1 ++ c :: w2 ++ post`, whose outer blanks are `pre` and `post`, is reported at its index in IN, the trimmed blanks counted: the model's choice (log 10). -/
def Obligations.Base58OuterBlanks : Prop :=
  (∀ (s u : State) (pre post : List CodePoint), s.Ready .dec → u.Ready .dec → u.params = s.params →
    s.params.blanksApart = true → u.input.text ≠ [] → (∀ c ∈ u.input.text, c ∈ b58Alpha) →
    (∀ c ∈ pre ++ post, c ∈ s.params.blankSet) → s.input.text = pre ++ u.input.text ++ post →
    (s.params.b58Trim = .outer →
      ∃ out : Lanes, CompletesWith (exec .b58dec s) out ∧ CompletesWith (exec .b58dec u) out) ∧
    (s.params.b58Trim = .noTrim → pre ++ post ≠ [] →
      FailsWith (exec .b58dec s) .invalidEncoding (if pre = [] then u.input.text.length else 0))) ∧
  ∀ (s : State) (pre w1 : List CodePoint) (c : CodePoint) (w2 post : List CodePoint), s.Ready .dec →
    s.params.b58Trim = .outer → s.input.text = pre ++ (w1 ++ c :: w2) ++ post →
    (∀ d ∈ pre ++ post, d ∈ s.params.blankSet) →
    (∀ d, (w1 ++ c :: w2).head? = some d → d ∉ s.params.blankSet) →
    (∀ d, (w1 ++ c :: w2).getLast? = some d → d ∉ s.params.blankSet) →
    (∀ d ∈ w1, d ∈ b58Alpha) → c ∉ b58Alpha →
    FailsWith (exec .b58dec s) .invalidEncoding (pre.length + w1.length)

/-- Round trip (rule R124): B58DEC of the output of B58ENC on b completes with OK and OUT = b, provided no Base58 symbol counts as blank. -/
def Obligations.Base58RoundTrip : Prop :=
  ∀ s t u : State, s.Ready .enc → exec .b58enc s = .next t → u.Ready .dec → u.params.blanksApart = true →
    u.input.text = t.out.text → CompletesWith (exec .b58dec u) { bytes := s.input.bytes, text := [] }

/-- Every non-empty text of alphabet symbols is canonical (rule R124): B58ENC of its decoding gives the same text back. -/
def Obligations.Base58TextsAreCanonical : Prop :=
  ∀ s t u : State, s.Ready .dec → s.params.blanksApart = true → s.input.text ≠ [] →
    (∀ c ∈ s.input.text, c ∈ b58Alpha) → exec .b58dec s = .next t → u.Ready .enc → u.input.bytes = t.out.bytes →
    CompletesWith (exec .b58enc u) { bytes := [], text := s.input.text }

/-- Blank texts decode to nothing without error (rules R92, R109, R119). -/
def Obligations.BlankTextsDecodeToNothing : Prop :=
  ∀ s : State, s.Ready .dec →
    ((∀ c ∈ s.input.text, c ∈ b32Ignore) → CompletesWith (exec .b32dec s) { bytes := [], text := [] }) ∧
    ((∀ c ∈ s.input.text, c ∈ b85Ignore) → CompletesWith (exec .b85dec s) { bytes := [], text := [] }) ∧
    ((∀ c ∈ s.input.text, c ∈ s.params.blankSet) → CompletesWith (exec .b58dec s) { bytes := [], text := [] })

/-! ### Base122 -/

/-- B122ENC (rules R126 to R129): its 7-bit groups as plain units, escapes with the next group as payload, and the shortened escape of an illegal last group. -/
def Obligations.Base122EncodesTheGroups : Prop :=
  ∀ s : State, s.Ready .enc →
    CompletesWith (exec .b122enc s)
      { bytes := [], text := Closed.b122Units s.params.b122Short (Closed.groups 7 s.input.bytes) }

/-- The two forms of an escape (rules R70, R130): the code point's fields, and the two UTF-8 bytes of the source. -/
def Obligations.EscapeUnitLayout : Prop :=
  ∀ (idx : BitVec 3) (h : BitVec 7),
    let cp := BitVec.ofNat 11 (escapeUnit idx h).toNat
    (escapeUnit idx h).toNat < 0x800 ∧ 0x80 ≤ (escapeUnit idx h).toNat ∧
    cp.extractLsb' 8 3 = idx ∧ cp.extractLsb' 7 1 = 1#1 ∧ cp.extractLsb' 0 7 = h ∧
    (0xC0#8 ||| (cp.extractLsb' 6 5).setWidth 8) =
      (0xC2#8 ||| (idx.setWidth 8 <<< 2) ||| (h.extractLsb' 6 1).setWidth 8) ∧
    (0x80#8 ||| (cp.extractLsb' 0 6).setWidth 8) = (0x80#8 ||| (h.setWidth 8 &&& 0x3F#8))

/-- B122DEC on a well-formed text (rules R132 to R136): OUT is exactly the pushed groups packed. -/
def Obligations.Base122DecodesWellFormedText : Prop :=
  ∀ s : State, s.Ready .dec → b122WellFormedText s.params s.input.text = true →
    CompletesWith (exec .b122dec s)
      { bytes := Closed.pack (s.input.text.flatMap (Closed.b122Pushes s.params.b122Short)), text := [] }

/-- B122DEC on any other text (rule R136): it completes with OK, and OUT is one of the free byte sequences, which nothing constrains. -/
def Obligations.Base122MalformedTextLeavesOutFree : Prop :=
  ∀ s : State, s.Ready .dec → b122WellFormedText s.params s.input.text = false →
    ∃ n : Nat, CompletesWith (exec .b122dec s) { bytes := Config.freeBytes n, text := [] }

/-- WF holds exactly on the image of B122ENC (rule R136), whenever the shortened marker is an index of no illegal byte. -/
def Obligations.Base122WellFormedIsTheEncodersImage : Prop :=
  ∀ (p : Params) (t : List CodePoint), p.markerFree = true →
    (b122WellFormedText p t = true ↔ ∃ b : List Byte, t = Closed.b122Units p.b122Short (Closed.groups 7 b))

/-- Round trip (rule R138): B122DEC of the output of B122ENC on b completes with OK and OUT = b. -/
def Obligations.Base122RoundTrip : Prop :=
  ∀ s t u : State, s.Ready .enc → exec .b122enc s = .next t → u.Ready .dec → u.params.b122Short = s.params.b122Short →
    s.params.markerFree = true → u.input.text = t.out.text →
    CompletesWith (exec .b122dec u) { bytes := s.input.bytes, text := [] }

/-! ### All encoders -/

/-- Alphabet closure (rule R72): every unit an encoder emits is in its codec's output language. -/
def Obligations.EncodersStayInTheirAlphabets : Prop :=
  ∀ s : State, s.Ready .enc →
    (∀ t, exec .b32enc s = .next t → ∀ c ∈ t.out.text, c ∈ b32Alpha) ∧
    (∀ t, exec .b85enc s = .next t → ∀ c ∈ t.out.text, (0x21 ≤ c.toNat ∧ c.toNat ≤ 0x75) ∨ c = 'z') ∧
    (∀ t, exec .b58enc s = .next t → ∀ c ∈ t.out.text, c ∈ b58Alpha) ∧
    (∀ t, exec .b122enc s = .next t → ∀ c ∈ t.out.text,
      (c.toNat ≤ 0x7F ∧ c.toNat ∉ [0x00, 0x0A, 0x0D, 0x22, 0x26, 0x5C]) ∨
      ∃ idx g, c.toNat = 256 * idx + 128 + g ∧ g < 128 ∧ (idx < 6 ∨ idx = s.params.b122Short.toNat))

/-! ### Frames: what an operation leaves unchanged -/

/-- B32ENC changes STATE, CODE, ERR_INDEX, OUT and the cursor; when it completes with OK it leaves the byte lane of OUT and the draws alone. -/
def Obligations.Base32EncoderFrame : Prop :=
  ∀ s t : State, exec .b32enc s = .next t →
    t = { s with
      phase := t.phase, code := t.code, errIndex := t.errIndex, out := t.out, draws := t.draws
      work := { s.work with curByte := t.work.curByte, curBit := t.work.curBit } } ∧
    (t.code = .ok → t.out.bytes = s.out.bytes ∧ t.draws = s.draws)

/-- B32DEC changes STATE, CODE, ERR_INDEX, OUT, POS and the accumulator; with OK it leaves the text lane of OUT and the draws alone. -/
def Obligations.Base32DecoderFrame : Prop :=
  ∀ s t : State, exec .b32dec s = .next t →
    t = { s with
      phase := t.phase, code := t.code, errIndex := t.errIndex, out := t.out, draws := t.draws
      work := { s.work with pos := t.work.pos, acc := t.work.acc, accCnt := t.work.accCnt } } ∧
    (t.code = .ok → t.out.text = s.out.text ∧ t.draws = s.draws)

/-- B85ENC changes STATE, CODE, ERR_INDEX, OUT and the chunk registers; with OK it leaves the byte lane of OUT and the draws alone. -/
def Obligations.Base85EncoderFrame : Prop :=
  ∀ s t : State, exec .b85enc s = .next t →
    t = { s with
      phase := t.phase, code := t.code, errIndex := t.errIndex, out := t.out, draws := t.draws
      work := { s.work with chunk := t.work.chunk, chunkCnt := t.work.chunkCnt } } ∧
    (t.code = .ok → t.out.bytes = s.out.bytes ∧ t.draws = s.draws)

/-- B85DEC changes STATE, CODE, ERR_INDEX, OUT, POS and the group buffer; with OK it leaves the text lane of OUT and the draws alone. -/
def Obligations.Base85DecoderFrame : Prop :=
  ∀ s t : State, exec .b85dec s = .next t →
    t = { s with
      phase := t.phase, code := t.code, errIndex := t.errIndex, out := t.out, draws := t.draws
      work := { s.work with pos := t.work.pos, b85Buf := t.work.b85Buf, b85Cnt := t.work.b85Cnt } } ∧
    (t.code = .ok → t.out.text = s.out.text ∧ t.draws = s.draws)

/-- B58ENC changes STATE, CODE, ERR_INDEX, OUT, BIG and ZCOUNT; with OK it leaves the byte lane of OUT and the draws alone. -/
def Obligations.Base58EncoderFrame : Prop :=
  ∀ s t : State, exec .b58enc s = .next t →
    t = { s with
      phase := t.phase, code := t.code, errIndex := t.errIndex, out := t.out, draws := t.draws
      work := { s.work with big := t.work.big, zcount := t.work.zcount } } ∧
    (t.code = .ok → t.out.bytes = s.out.bytes ∧ t.draws = s.draws)

/-- B58DEC changes STATE, CODE, ERR_INDEX, OUT, POS, BIG and ZCOUNT; with OK it leaves the text lane of OUT and the draws alone. -/
def Obligations.Base58DecoderFrame : Prop :=
  ∀ s t : State, exec .b58dec s = .next t →
    t = { s with
      phase := t.phase, code := t.code, errIndex := t.errIndex, out := t.out, draws := t.draws
      work := { s.work with pos := t.work.pos, big := t.work.big, zcount := t.work.zcount } } ∧
    (t.code = .ok → t.out.text = s.out.text ∧ t.draws = s.draws)

/-- B122ENC changes STATE, CODE, ERR_INDEX, OUT, the cursor and PEND; with OK it leaves the byte lane of OUT and the draws alone. -/
def Obligations.Base122EncoderFrame : Prop :=
  ∀ s t : State, exec .b122enc s = .next t →
    t = { s with
      phase := t.phase, code := t.code, errIndex := t.errIndex, out := t.out, draws := t.draws
      work := { s.work with curByte := t.work.curByte, curBit := t.work.curBit, pend := t.work.pend } } ∧
    (t.code = .ok → t.out.bytes = s.out.bytes ∧ t.draws = s.draws)

/-- B122DEC changes STATE, CODE, ERR_INDEX, OUT, POS and the accumulator; with OK it leaves the text lane of OUT alone, and on well-formed text the draws. -/
def Obligations.Base122DecoderFrame : Prop :=
  ∀ s t : State, exec .b122dec s = .next t →
    t = { s with
      phase := t.phase, code := t.code, errIndex := t.errIndex, out := t.out, draws := t.draws
      work := { s.work with pos := t.work.pos, acc := t.work.acc, accCnt := t.work.accCnt } } ∧
    (t.code = .ok → t.out.text = s.out.text ∧
      (b122WellFormedText s.params s.input.text = true → t.draws = s.draws))

/-! ### Whole-machine rules -/

/-- The invariant holds right after reset. -/
def Obligations.InvariantHoldsAtReset : Prop := State.reset.Inv

/-- Every step from every state keeps the invariant (rules R18, R20, R21, R25 to R30, R35, R37, R39, R142 to R144), that the registers of a bounded block fit their widths among its clauses. -/
def Obligations.EveryStepKeepsTheInvariant : Prop :=
  ∀ s t : State, s.Inv → step s = .next t → t.Inv

/-- No state carries between transactions (rule R167): two blocks of the same parameters, whatever they held, give the same CODE and ERR_INDEX for the same START, and the same OUT when OK, but for B122DEC on a malformed text. -/
def Obligations.NoStateCarriesBetweenTransactions : Prop :=
  ∀ (s u : State) (r : Request), s.phase ≠ .busy → u.phase ≠ .busy → u.params = s.params →
    s.host = [.start r] → u.host = [.start r] →
    ∃ t v : State, core.run 2 s = .next t ∧ core.run 2 u = .next v ∧ t.code = v.code ∧ t.errIndex = v.errIndex ∧
      (t.code = .ok → (decode r.cmd = .command .b122dec → b122WellFormedText s.params r.input.text = true) → t.out = v.out)

/-! ### Constant tables -/

/-- The contents of the constant tables and of the maps over them (rules R63 to R69, R88), as literal code points.
The order of B122_ILLEGAL is the spec's decision D13, and so is the marker 7; BLANK_SET is its D11; that `java_char` folds no further code point is log 12. -/
def Obligations.ConstantTablesHoldTheirContents : Prop :=
  b32Alpha.map Char.toNat =
    [0x30, 0x31, 0x32, 0x33, 0x34, 0x35, 0x36, 0x37, 0x38, 0x39, 0x41, 0x42, 0x43, 0x44, 0x45, 0x46] ++
    [0x47, 0x48, 0x4A, 0x4B, 0x4D, 0x4E, 0x50, 0x51, 0x52, 0x53, 0x54, 0x56, 0x57, 0x58, 0x59, 0x5A] ∧
  (∀ v : BitVec 5, b32Alpha[v.toNat]? = some (b32Symbol v) ∧ b32Rev (b32Symbol v) = some v) ∧
  (b32Rev 'O' = some 0 ∧ b32Rev 'I' = some 1 ∧ b32Rev 'L' = some 1) ∧
  (∀ c : CodePoint, c ∉ b32Alpha → c ∉ ['O', 'I', 'L'] → b32Rev c = none) ∧
  b32Ignore.map Char.toNat = [0x09, 0x0A, 0x0B, 0x0C, 0x0D, 0x20, 0x2D] ∧
  (∀ (m : B32Fold) (c : CodePoint), 0x61 ≤ c.toNat → c.toNat ≤ 0x7A → (foldCase m c).toNat = c.toNat - 0x20) ∧
  (∀ c : CodePoint, ¬ (0x61 ≤ c.toNat ∧ c.toNat ≤ 0x7A) → foldCase .ascii c = c ∧
    (c.toNat ≠ 0x131 → c.toNat ≠ 0x17F → foldCase .javaChar c = c)) ∧
  (foldCase .javaChar (Char.ofNat 0x131) = 'I' ∧ foldCase .javaChar (Char.ofNat 0x17F) = 'S') ∧
  (∀ d : Nat, d < 85 → (b85Symbol d).toNat = 0x21 + d) ∧
  b85Shortcut.toNat = 0x7A ∧
  b85Ignore.map Char.toNat = [0x09, 0x0A, 0x0B, 0x0C, 0x0D, 0x20] ∧
  b58Alpha.map Char.toNat =
    [0x31, 0x32, 0x33, 0x34, 0x35, 0x36, 0x37, 0x38, 0x39] ++
    [0x41, 0x42, 0x43, 0x44, 0x45, 0x46, 0x47, 0x48, 0x4A, 0x4B, 0x4C, 0x4D] ++
    [0x4E, 0x50, 0x51, 0x52, 0x53, 0x54, 0x55, 0x56, 0x57, 0x58, 0x59, 0x5A] ++
    [0x61, 0x62, 0x63, 0x64, 0x65, 0x66, 0x67, 0x68, 0x69, 0x6A, 0x6B, 0x6D] ++
    [0x6E, 0x6F, 0x70, 0x71, 0x72, 0x73, 0x74, 0x75, 0x76, 0x77, 0x78, 0x79, 0x7A] ∧
  (∀ d : Fin 58, b58Alpha[d.val]? = some (b58Symbol d) ∧ b58Rev (b58Symbol d) = some d.val) ∧
  (∀ c : CodePoint, c ∉ b58Alpha → b58Rev c = none) ∧
  b122Illegal.map BitVec.toNat = [0x00, 0x0A, 0x0D, 0x22, 0x26, 0x5C] ∧
  (b122IllegalGroup 6 = none ∧ b122IllegalGroup 7 = none ∧ defaultParams.b122Short = 7) ∧
  defaultParams.blankSet.map Char.toNat = [0x09, 0x0A, 0x0B, 0x0C, 0x0D, 0x20]
end

