-- ==== Sys2Proof/Laws/State.lean ====
section
/-! SUPPORT. One lemma for each field and each update of State, so that no proof unfolds a record update. -/

namespace Sys2Proof.Machine

@[simp] theorem State.emitBytes_phase (s : State) (bs : List Byte) : (s.emitBytes bs).phase = s.phase := rfl
@[simp] theorem State.emitBytes_op (s : State) (bs : List Byte) : (s.emitBytes bs).op = s.op := rfl
@[simp] theorem State.emitBytes_code (s : State) (bs : List Byte) : (s.emitBytes bs).code = s.code := rfl
@[simp] theorem State.emitBytes_errIndex (s : State) (bs : List Byte) : (s.emitBytes bs).errIndex = s.errIndex := rfl
@[simp] theorem State.emitBytes_input (s : State) (bs : List Byte) : (s.emitBytes bs).input = s.input := rfl
@[simp] theorem State.emitBytes_out (s : State) (bs : List Byte) : (s.emitBytes bs).out = { s.out with bytes := s.out.bytes ++ bs } := rfl
@[simp] theorem State.emitBytes_work (s : State) (bs : List Byte) : (s.emitBytes bs).work = s.work := rfl
@[simp] theorem State.emitBytes_params (s : State) (bs : List Byte) : (s.emitBytes bs).params = s.params := rfl
@[simp] theorem State.emitBytes_host (s : State) (bs : List Byte) : (s.emitBytes bs).host = s.host := rfl
@[simp] theorem State.emitBytes_draws (s : State) (bs : List Byte) : (s.emitBytes bs).draws = s.draws := rfl

@[simp] theorem State.emitText_phase (s : State) (cs : List CodePoint) : (s.emitText cs).phase = s.phase := rfl
@[simp] theorem State.emitText_op (s : State) (cs : List CodePoint) : (s.emitText cs).op = s.op := rfl
@[simp] theorem State.emitText_code (s : State) (cs : List CodePoint) : (s.emitText cs).code = s.code := rfl
@[simp] theorem State.emitText_errIndex (s : State) (cs : List CodePoint) : (s.emitText cs).errIndex = s.errIndex := rfl
@[simp] theorem State.emitText_input (s : State) (cs : List CodePoint) : (s.emitText cs).input = s.input := rfl
@[simp] theorem State.emitText_out (s : State) (cs : List CodePoint) : (s.emitText cs).out = { s.out with text := s.out.text ++ cs } := rfl
@[simp] theorem State.emitText_work (s : State) (cs : List CodePoint) : (s.emitText cs).work = s.work := rfl
@[simp] theorem State.emitText_params (s : State) (cs : List CodePoint) : (s.emitText cs).params = s.params := rfl
@[simp] theorem State.emitText_host (s : State) (cs : List CodePoint) : (s.emitText cs).host = s.host := rfl
@[simp] theorem State.emitText_draws (s : State) (cs : List CodePoint) : (s.emitText cs).draws = s.draws := rfl

@[simp] theorem State.advancePos_phase (s : State) : (s.advancePos).phase = s.phase := rfl
@[simp] theorem State.advancePos_op (s : State) : (s.advancePos).op = s.op := rfl
@[simp] theorem State.advancePos_code (s : State) : (s.advancePos).code = s.code := rfl
@[simp] theorem State.advancePos_errIndex (s : State) : (s.advancePos).errIndex = s.errIndex := rfl
@[simp] theorem State.advancePos_input (s : State) : (s.advancePos).input = s.input := rfl
@[simp] theorem State.advancePos_out (s : State) : (s.advancePos).out = s.out := rfl
@[simp] theorem State.advancePos_work (s : State) : (s.advancePos).work = { s.work with pos := s.work.pos + 1 } := rfl
@[simp] theorem State.advancePos_params (s : State) : (s.advancePos).params = s.params := rfl
@[simp] theorem State.advancePos_host (s : State) : (s.advancePos).host = s.host := rfl
@[simp] theorem State.advancePos_draws (s : State) : (s.advancePos).draws = s.draws := rfl

@[simp] theorem State.complete_phase (s : State) : (s.complete).phase = .done := rfl
@[simp] theorem State.complete_op (s : State) : (s.complete).op = s.op := rfl
@[simp] theorem State.complete_code (s : State) : (s.complete).code = .ok := rfl
@[simp] theorem State.complete_errIndex (s : State) : (s.complete).errIndex = 0 := rfl
@[simp] theorem State.complete_input (s : State) : (s.complete).input = s.input := rfl
@[simp] theorem State.complete_out (s : State) : (s.complete).out = s.out := rfl
@[simp] theorem State.complete_work (s : State) : (s.complete).work = s.work := rfl
@[simp] theorem State.complete_params (s : State) : (s.complete).params = s.params := rfl
@[simp] theorem State.complete_host (s : State) : (s.complete).host = s.host := rfl
@[simp] theorem State.complete_draws (s : State) : (s.complete).draws = s.draws := rfl

@[simp] theorem State.terminate_phase (s : State) (c : Code) (i : Nat) : (s.terminate c i).phase = .done := rfl
@[simp] theorem State.terminate_op (s : State) (c : Code) (i : Nat) : (s.terminate c i).op = s.op := rfl
@[simp] theorem State.terminate_code (s : State) (c : Code) (i : Nat) : (s.terminate c i).code = c := rfl
@[simp] theorem State.terminate_errIndex (s : State) (c : Code) (i : Nat) : (s.terminate c i).errIndex = Params.fitIndex s.params i := rfl
@[simp] theorem State.terminate_input (s : State) (c : Code) (i : Nat) : (s.terminate c i).input = s.input := rfl
@[simp] theorem State.terminate_out (s : State) (c : Code) (i : Nat) : (s.terminate c i).out = { bytes := Config.freeBytes s.draws, text := Config.freeText s.draws } := rfl
@[simp] theorem State.terminate_work (s : State) (c : Code) (i : Nat) : (s.terminate c i).work = s.work := rfl
@[simp] theorem State.terminate_params (s : State) (c : Code) (i : Nat) : (s.terminate c i).params = s.params := rfl
@[simp] theorem State.terminate_host (s : State) (c : Code) (i : Nat) : (s.terminate c i).host = s.host := rfl
@[simp] theorem State.terminate_draws (s : State) (c : Code) (i : Nat) : (s.terminate c i).draws = s.draws + 1 := rfl

@[simp] theorem State.acceptStart_phase (s : State) (r : Request) : (s.acceptStart r).phase = .busy := rfl
@[simp] theorem State.acceptStart_op (s : State) (r : Request) : (s.acceptStart r).op = r.cmd := rfl
@[simp] theorem State.acceptStart_code (s : State) (r : Request) : (s.acceptStart r).code = .ok := rfl
@[simp] theorem State.acceptStart_errIndex (s : State) (r : Request) : (s.acceptStart r).errIndex = 0 := rfl
@[simp] theorem State.acceptStart_input (s : State) (r : Request) : (s.acceptStart r).input = Lanes.capture r.cmd r.input := rfl
@[simp] theorem State.acceptStart_out (s : State) (r : Request) : (s.acceptStart r).out = Lanes.empty := rfl
@[simp] theorem State.acceptStart_work (s : State) (r : Request) : (s.acceptStart r).work = Work.reset := rfl
@[simp] theorem State.acceptStart_params (s : State) (r : Request) : (s.acceptStart r).params = s.params := rfl
@[simp] theorem State.acceptStart_host (s : State) (r : Request) : (s.acceptStart r).host = s.host := rfl
@[simp] theorem State.acceptStart_draws (s : State) (r : Request) : (s.acceptStart r).draws = s.draws := rfl

@[simp] theorem State.advanceCursor_phase (s : State) (k : Nat) : (s.advanceCursor k).phase = s.phase := by
  unfold State.advanceCursor State.setCursor; split <;> rfl
@[simp] theorem State.advanceCursor_op (s : State) (k : Nat) : (s.advanceCursor k).op = s.op := by
  unfold State.advanceCursor State.setCursor; split <;> rfl
@[simp] theorem State.advanceCursor_code (s : State) (k : Nat) : (s.advanceCursor k).code = s.code := by
  unfold State.advanceCursor State.setCursor; split <;> rfl
@[simp] theorem State.advanceCursor_errIndex (s : State) (k : Nat) : (s.advanceCursor k).errIndex = s.errIndex := by
  unfold State.advanceCursor State.setCursor; split <;> rfl
@[simp] theorem State.advanceCursor_input (s : State) (k : Nat) : (s.advanceCursor k).input = s.input := by
  unfold State.advanceCursor State.setCursor; split <;> rfl
@[simp] theorem State.advanceCursor_out (s : State) (k : Nat) : (s.advanceCursor k).out = s.out := by
  unfold State.advanceCursor State.setCursor; split <;> rfl
@[simp] theorem State.advanceCursor_params (s : State) (k : Nat) : (s.advanceCursor k).params = s.params := by
  unfold State.advanceCursor State.setCursor; split <;> rfl
@[simp] theorem State.advanceCursor_host (s : State) (k : Nat) : (s.advanceCursor k).host = s.host := by
  unfold State.advanceCursor State.setCursor; split <;> rfl
@[simp] theorem State.advanceCursor_draws (s : State) (k : Nat) : (s.advanceCursor k).draws = s.draws := by
  unfold State.advanceCursor State.setCursor; split <;> rfl

@[simp] theorem OpResult.state_returns (s : State) : (OpResult.returns s).state = s := rfl
@[simp] theorem OpResult.state_raises (i : Nat) (s : State) : (OpResult.raises i s).state = s := rfl
@[simp] theorem OpResult.andThen_returns (s : State) (k : State → OpResult) : (OpResult.returns s).andThen k = k s := rfl
@[simp] theorem OpResult.andThen_raises (i : Nat) (s : State) (k : State → OpResult) :
    (OpResult.raises i s).andThen k = .raises i s := rfl

end Sys2Proof.Machine
end

