-- ==== Sys2Proof/Laws/Ops.lean ====
section
/-! SUPPORT. What each shared operation of Machine/Ops.lean can do, said once. -/

namespace Sys2Proof.Machine

@[simp] theorem forUnits_nil (f : CodePoint → State → OpResult) (s : State) : forUnits f [] s = .returns s := rfl

theorem forUnits_cons (f : CodePoint → State → OpResult) (c : CodePoint) (cs : List CodePoint) (s : State) :
    forUnits f (c :: cs) s = (f c s).andThen fun s' => forUnits f cs s'.advancePos := by
  rw [forUnits]; cases f c s <;> rfl

/-- Walking two texts one after the other is walking their concatenation. -/
theorem forUnits_append (f : CodePoint → State → OpResult) (a b : List CodePoint) (s : State) :
    forUnits f (a ++ b) s = (forUnits f a s).andThen (forUnits f b) := by
  induction a generalizing s with
  | nil => rfl
  | cons c cs ih =>
    rw [List.cons_append, forUnits_cons, forUnits_cons]
    cases f c s with
    | returns s' => simpa using ih s'.advancePos
    | raises i s' => rfl

/-- What every unit and the advance of POS keep, the whole walk keeps, whether it returns or raises. -/
theorem forUnits_preserves {P : State → Prop} {f : CodePoint → State → OpResult}
    (hf : ∀ c s, P s → P (f c s).state) (ha : ∀ s, P s → P s.advancePos) :
    ∀ (cs : List CodePoint) (s : State), P s → P (forUnits f cs s).state
  | [], _, h => h
  | c :: cs, s, h => by
    have hc := hf c s h
    rw [forUnits_cons]
    cases hr : f c s with
    | returns s' => rw [hr] at hc; exact forUnits_preserves hf ha cs _ (ha _ hc)
    | raises i s' => rw [hr] at hc; exact hc

/-- A walk whose units keep POS and raise only at POS (rules R25, R148): it returns with POS advanced by every unit, or raises at the index of a unit, which is then POS. -/
theorem forUnits_pos {f : CodePoint → State → OpResult}
    (hret : ∀ c s s', f c s = .returns s' → s'.work.pos = s.work.pos)
    (hraise : ∀ c s i s', f c s = .raises i s' → i = s.work.pos ∧ s'.work.pos = s.work.pos) :
    ∀ (cs : List CodePoint) (s : State),
      (∀ t, forUnits f cs s = .returns t → t.work.pos = s.work.pos + cs.length) ∧
      (∀ i t, forUnits f cs s = .raises i t → i = t.work.pos ∧ s.work.pos ≤ i ∧ i < s.work.pos + cs.length)
  | [], s => by simp [forUnits]
  | c :: cs, s => by
    rw [forUnits_cons]
    cases hr : f c s with
    | returns s' =>
      have hp := hret c s s' hr
      obtain ⟨h1, h2⟩ := forUnits_pos hret hraise cs s'.advancePos
      refine ⟨fun t ht => ?_, fun i t ht => ?_⟩
      · have := h1 t ht; simp at this ⊢; omega
      · have := h2 i t ht; simp at this ⊢; omega
    | raises j s' =>
      obtain ⟨hj, hp⟩ := hraise c s j s' hr
      refine ⟨fun t ht => ?_, fun i t ht => ?_⟩
      · simp at ht
      · simp at ht; obtain ⟨rfl, rfl⟩ := ht; simp; omega

/-- A transaction answers a next state, and how (rules R145 to R147, R162). -/
theorem transact_cases {dir : Dir} {body : State → OpResult} {s t : State} (h : transact dir body s = .next t) :
    (Params.exceeds s.params (s.inLen dir) = true ∧ t = s.terminate .capacityExceeded 0) ∨
    (Params.exceeds s.params (s.inLen dir) = false ∧
      ((∃ s', body s = .returns s' ∧ t = s'.complete) ∨
        ∃ i s', body s = .raises i s' ∧ t = s'.terminate .invalidEncoding i)) := by
  unfold transact at h
  split at h
  · rename_i hx; cases h; exact .inl ⟨hx, rfl⟩
  · rename_i hx
    refine .inr ⟨by simpa using hx, ?_⟩
    split at h
    · rename_i s' hb; cases h; exact .inl ⟨s', hb, rfl⟩
    · rename_i i s' hb; cases h; exact .inr ⟨i, s', hb, rfl⟩

/-- Within MAX_IN_LEN a body that returns completes with OK. -/
theorem transact_returns {dir : Dir} {body : State → OpResult} {s s' : State}
    (hx : Params.exceeds s.params (s.inLen dir) = false) (hb : body s = .returns s') :
    transact dir body s = .next s'.complete := by
  simp [transact, hx, hb]

/-- Within MAX_IN_LEN a body that raises ends with InvalidEncoding. -/
theorem transact_raises {dir : Dir} {body : State → OpResult} {s s' : State} {i : Nat}
    (hx : Params.exceeds s.params (s.inLen dir) = false) (hb : body s = .raises i s') :
    transact dir body s = .next (s'.terminate .invalidEncoding i) := by
  simp [transact, hx, hb]

end Sys2Proof.Machine
end

