-- ==== Sys2Proof/Laws/BitCursor.lean ====
section
/-! SUPPORT. What nextGroup and pushGroup can do, said once (rules R76 to R78). -/

namespace Sys2Proof.Machine

/-- nextGroup answers a group and the moved cursor while CUR_BYTE names a byte, and otherwise exhaustion with nothing changed (rules R76, R77). -/
theorem nextGroup_cases (k : Nat) (s : State) :
    (s.input.bytes.length ≤ s.work.curByte ∧ nextGroup k s = (none, s)) ∨
    (s.work.curByte < s.input.bytes.length ∧ ∃ v, nextGroup k s = (some v, s.advanceCursor k)) := by
  by_cases h : s.work.curByte < s.input.bytes.length
  · refine .inr ⟨h, ?_⟩
    simp [nextGroup, State.memReadByte, List.getElem?_eq_getElem h]
  · refine .inl ⟨by omega, ?_⟩
    simp [nextGroup, State.memReadByte, List.getElem?_eq_none (Nat.le_of_not_lt h)]

/-- The cursor moves by exactly k bits (rule R76). -/
theorem advanceCursor_position (s : State) {k : Nat} (hk : k ≤ 8) :
    8 * (s.advanceCursor k).work.curByte + (s.advanceCursor k).work.curBit.toNat =
      8 * s.work.curByte + s.work.curBit.toNat + k := by
  have hb := s.work.curBit.isLt
  unfold State.advanceCursor State.setCursor
  split <;> simp only [BitVec.toNat_ofNat] <;> omega

/-- Moving the cursor changes CUR_BYTE and CUR_BIT alone. -/
theorem advanceCursor_frame (s : State) (k : Nat) :
    s.advanceCursor k = { s with work := { s.work with
      curByte := (s.advanceCursor k).work.curByte, curBit := (s.advanceCursor k).work.curBit } } := by
  unfold State.advanceCursor State.setCursor; split <;> rfl

/-- pushGroup changes OUT's bytes, ACC and ACC_CNT alone. -/
theorem pushGroup_frame {k : Nat} (v : BitVec k) (s : State) :
    pushGroup v s = { s with
      out := { s.out with bytes := (pushGroup v s).out.bytes }
      work := { s.work with acc := (pushGroup v s).work.acc, accCnt := (pushGroup v s).work.accCnt } } := by
  unfold pushGroup State.takeBits; split <;> rfl

/-- ACC_CNT counts the bits modulo 8 (rule R78). -/
theorem pushGroup_accCnt {k : Nat} (hk : k ≤ 8) (v : BitVec k) (s : State) :
    (pushGroup v s).work.accCnt.toNat = (s.work.accCnt.toNat + k) % 8 := by
  have hb := s.work.accCnt.isLt
  unfold pushGroup State.takeBits
  split <;> simp only [BitVec.toNat_ofNat] <;> omega

/-- ACC holds no bit above the ACC_CNT it holds (rules R27, R78). -/
theorem pushGroup_acc_lt {k : Nat} (hk : k ≤ 8) (v : BitVec k) (s : State) :
    (pushGroup v s).work.acc.toNat < 2 ^ (pushGroup v s).work.accCnt.toNat := by
  have hb := s.work.accCnt.isLt
  have hlt : ∀ (x c : Nat), c < 8 → (x % 2 ^ c) % 2 ^ 7 < 2 ^ (c % 2 ^ 3) := fun x c hc => by
    rw [Nat.mod_eq_of_lt (a := c) (by omega)]
    exact Nat.lt_of_le_of_lt (Nat.mod_le _ _) (Nat.mod_lt _ (Nat.two_pow_pos c))
  unfold pushGroup State.takeBits
  split
  · simp only [BitVec.toNat_ofNat]; exact hlt _ _ (by omega)
  · simp only [BitVec.toNat_ofNat]; exact hlt _ _ (by omega)

/-- A push emits one byte when eight bits are there, and nothing otherwise (rule R78). -/
theorem pushGroup_bytes {k : Nat} (v : BitVec k) (s : State) :
    (pushGroup v s).out.bytes = s.out.bytes ++
      (if 8 ≤ s.work.accCnt.toNat + k then
        [BitVec.ofNat 8 (((s.work.acc.toNat <<< k) ||| v.toNat) >>> (s.work.accCnt.toNat + k - 8))] else []) := by
  unfold pushGroup State.takeBits
  split <;> simp_all

end Sys2Proof.Machine
end

