-- ==== Sys2Proof/Laws/Step.lean ====
section
/-! SUPPORT. Everything a step can do, said once, and exec as one transaction per instruction. -/

namespace Sys2Proof.Machine

/-- The body of each operation's rule. -/
def bodyOf : Instr → State → OpResult
  | .b32enc => b32EncBody
  | .b32dec => b32DecBody
  | .b85enc => b85EncBody
  | .b85dec => b85DecBody
  | .b58enc => b58EncBody
  | .b58dec => b58DecBody
  | .b122enc => b122EncBody
  | .b122dec => b122DecBody

/-- Every meaning is the transaction of its body in its direction. -/
theorem exec_eq_transact (i : Instr) (s : State) : exec i s = transact i.dir (bodyOf i) s := by
  cases i <;> rfl

/-- A transaction never stops: it answers a next state that is DONE. -/
theorem transact_next (dir : Dir) (body : State → OpResult) (s : State) :
    ∃ t, transact dir body s = .next t ∧ t.phase = .done := by
  unfold transact
  split
  · exact ⟨_, rfl, rfl⟩
  · split <;> exact ⟨_, rfl, rfl⟩

/-- Reset is asserted exactly when it is the host's next move. -/
theorem resetAsserted_iff (s : State) : s.resetAsserted = true ↔ s.host.head? = some .reset := by
  unfold State.resetAsserted; exact beq_iff_eq

theorem step_of_reset {s : State} (h : s.host.head? = some .reset) : step s = .next s.takeReset := by
  unfold step nextStep; rw [if_pos ((resetAsserted_iff s).2 h)]

theorem step_of_busy {s : State} (h : s.host.head? ≠ some .reset) (hb : s.phase = .busy) :
    step s = finishTransaction s.passMove := by
  unfold step nextStep
  rw [if_neg (fun hr => h ((resetAsserted_iff s).1 hr)), if_pos hb]

theorem step_of_not_busy {s : State} (h : s.host.head? ≠ some .reset) (hb : s.phase ≠ .busy) :
    step s = .next s.idleStep := by
  unfold step nextStep
  rw [if_neg (fun hr => h ((resetAsserted_iff s).1 hr)), if_neg hb]

/-- Every step is a reset, a completion, or a move of the host (rules R157, R160, R162). -/
theorem step_cases {s t : State} (h : step s = .next t) :
    (s.host.head? = some .reset ∧ t = s.takeReset) ∨
    (s.host.head? ≠ some .reset ∧ s.phase = .busy ∧ finishTransaction s.passMove = .next t) ∨
    (s.host.head? ≠ some .reset ∧ s.phase ≠ .busy ∧ t = s.idleStep) := by
  by_cases hr : s.host.head? = some .reset
  · rw [step_of_reset hr] at h; cases h; exact .inl ⟨hr, rfl⟩
  · by_cases hb : s.phase = .busy
    · rw [step_of_busy hr hb] at h; exact .inr (.inl ⟨hr, hb, h⟩)
    · rw [step_of_not_busy hr hb] at h; cases h; exact .inr (.inr ⟨hr, hb, rfl⟩)

/-- A completion is a reserved command's termination or an operation's transaction (rules R147, R162). -/
theorem finishTransaction_cases {s t : State} (h : finishTransaction s = .next t) :
    (∃ op, decode s.op = .reserved op ∧ t = s.terminate .illegalCommand 0) ∨
    (∃ i, decode s.op = .command i ∧ transact i.dir (bodyOf i) s = .next t) := by
  unfold finishTransaction at h
  split at h
  · rename_i op hd; cases h; exact .inl ⟨op, hd, rfl⟩
  · rename_i i hd; rw [exec_eq_transact] at h; exact .inr ⟨i, hd, h⟩

/-- A move that leaves the block alone changes the host's list only. -/
theorem passMove_eq (s : State) : s.passMove = { s with host := s.passMove.host } := by
  unfold State.passMove
  split
  · rfl
  · split <;> rfl

/-- What the host's list becomes when a move is passed. -/
theorem passMove_host (s : State) :
    s.passMove.host = s.host ∨ ∃ e, e.isPassive = true ∧ s.host = e :: s.passMove.host := by
  cases s with
  | mk phase op code errIndex input out work params host draws =>
    cases host with
    | nil => exact .inl rfl
    | cons e rest =>
      cases hp : e.isPassive with
      | false => simp [State.passMove, hp]
      | true => exact .inr ⟨e, hp, by simp [State.passMove, hp]⟩

end Sys2Proof.Machine
end

