-- ==== Sys2Proof/Laws/Bodies.lean ====
section
/-! SUPPORT. What each operation's body can change, whichever way it ends. -/

namespace Sys2Proof.Machine

/-- The state t has nothing changed of s but OUT's text and the cursor. -/
def CursorFrame (s t : State) : Prop :=
  t = { s with
    out := { s.out with text := t.out.text }
    work := { s.work with curByte := t.work.curByte, curBit := t.work.curBit } }

theorem CursorFrame.refl (s : State) : CursorFrame s s := rfl

theorem CursorFrame.trans {s t u : State} (h1 : CursorFrame s t) (h2 : CursorFrame t u) : CursorFrame s u := by
  unfold CursorFrame at *; rw [h1] at h2; exact h2

theorem CursorFrame.emitText (s : State) (cs : List CodePoint) : CursorFrame s (s.emitText cs) := rfl

theorem CursorFrame.advanceCursor (s : State) (k : Nat) : CursorFrame s (s.advanceCursor k) := by
  unfold CursorFrame State.advanceCursor State.setCursor; split <;> rfl

theorem CursorFrame.setPend {s t : State} (h : CursorFrame s t) (p : Option Pending) :
    CursorFrame (s.setPend p) (t.setPend p) := by
  unfold CursorFrame at *; rw [h]; rfl

theorem CursorFrame.nextGroup (k : Nat) (s : State) : CursorFrame s (Machine.nextGroup k s).2 := by
  rcases nextGroup_cases k s with ⟨_, h⟩ | ⟨_, v, h⟩ <;> rw [h]
  · exact CursorFrame.refl s
  · exact CursorFrame.advanceCursor s k

/-- B32ENC's loop keeps all but OUT's text and the cursor (rule R82). -/
theorem b32EncLoop_frame : ∀ (fuel : Nat) (s : State), CursorFrame s (b32EncLoop fuel s)
  | 0, s => CursorFrame.refl s
  | fuel + 1, s => by
    have hg := CursorFrame.nextGroup Config.groupB32 s
    rw [b32EncLoop]
    split
    · rename_i s' h; rw [h] at hg; exact hg
    · rename_i v s' h
      rw [h] at hg
      exact hg.trans ((CursorFrame.emitText s' _).trans (b32EncLoop_frame fuel _))

/-- An escape of B122ENC keeps all but OUT's text and the cursor, and leaves PEND none (rule R125). -/
theorem b122EncEscape_frame (idx : Fin 6) (g : BitVec 7) (s : State) :
    CursorFrame (s.setPend none) (b122EncEscape idx g s) := by
  have hg := CursorFrame.nextGroup Config.groupB122 (s.setPend (some { idx := idx, group := g }))
  unfold b122EncEscape
  split
  · rename_i h s' hn
    rw [hn] at hg
    exact (hg.setPend none).trans (CursorFrame.emitText _ _)
  · rename_i s' hn
    rw [hn] at hg
    exact (hg.setPend none).trans (CursorFrame.emitText _ _)

/-- B122ENC's loop keeps all but OUT's text and the cursor, with PEND as it was or none (rule R125). -/
theorem b122EncLoop_frame : ∀ (fuel : Nat) (s : State),
    CursorFrame s (b122EncLoop fuel s) ∨ CursorFrame (s.setPend none) (b122EncLoop fuel s)
  | 0, s => .inl (CursorFrame.refl s)
  | fuel + 1, s => by
    have hg := CursorFrame.nextGroup Config.groupB122 s
    rw [b122EncLoop]
    split
    · rename_i s' h; rw [h] at hg; exact .inl hg
    · rename_i g s' h
      rw [h] at hg
      have hp : CursorFrame (s.setPend none) (s'.setPend none) := CursorFrame.setPend hg none
      split
      · rcases b122EncLoop_frame fuel (s'.emitText [plainUnit g]) with h1 | h1
        · exact .inl (hg.trans ((CursorFrame.emitText s' _).trans h1))
        · exact .inr (hp.trans ((show CursorFrame (s'.setPend none) ((s'.emitText [plainUnit g]).setPend none) from rfl).trans h1))
      · rename_i idx _
        have he := b122EncEscape_frame idx g s'
        rcases b122EncLoop_frame fuel (b122EncEscape idx g s') with h1 | h1
        · exact .inr (hp.trans (he.trans h1))
        · have hn : (b122EncEscape idx g s').setPend none = b122EncEscape idx g s' := by
            unfold CursorFrame at he; rw [he]; rfl
          rw [hn] at h1
          exact .inr (hp.trans (he.trans h1))

/-- B85ENC's loop keeps all but OUT's text and the chunk registers (rule R96). -/
theorem b85EncLoop_frame : ∀ (bs : List Byte) (s : State),
    b85EncLoop bs s = { s with
      out := { s.out with text := (b85EncLoop bs s).out.text }
      work := { s.work with chunk := (b85EncLoop bs s).work.chunk, chunkCnt := (b85EncLoop bs s).work.chunkCnt } }
  | [], _ => rfl
  | [_], _ => rfl
  | [_, _], _ => rfl
  | [_, _, _], _ => rfl
  | a :: b :: c :: d :: rest, s => by
    rw [b85EncLoop, b85EncLoop_frame rest]; rfl

/-- The digit loop of B58ENC changes BIG alone (rule R115). -/
theorem b58DigitLoop_frame : ∀ (fuel : Nat) (s : State) (ds : List (Fin 58)),
    (b58DigitLoop fuel s ds).2 = { s with work := { s.work with big := (b58DigitLoop fuel s ds).2.work.big } }
  | 0, _, _ => rfl
  | fuel + 1, s, ds => by
    rw [b58DigitLoop]
    split
    · rfl
    · rw [b58DigitLoop_frame fuel]

/-- The state t has nothing changed of s but OUT's bytes, POS, the accumulator and the draws. -/
def AccFrame (s t : State) : Prop :=
  t = { s with
    out := { s.out with bytes := t.out.bytes }
    work := { s.work with pos := t.work.pos, acc := t.work.acc, accCnt := t.work.accCnt }
    draws := t.draws }

theorem AccFrame.trans {s t u : State} (h1 : AccFrame s t) (h2 : AccFrame t u) : AccFrame s u := by
  unfold AccFrame at *; rw [h1] at h2; exact h2

theorem AccFrame.pushGroup {k : Nat} (v : BitVec k) (s : State) : AccFrame s (Machine.pushGroup v s) := by
  unfold AccFrame Machine.pushGroup State.takeBits; split <;> rfl

/-- A unit of B32DEC keeps all but OUT's bytes, ACC and ACC_CNT (rule R85). -/
theorem b32DecUnit_frame (c : CodePoint) (s : State) :
    AccFrame s (b32DecUnit c s).state ∧ (b32DecUnit c s).state.draws = s.draws := by
  unfold b32DecUnit
  split
  · exact ⟨rfl, rfl⟩
  · split
    · refine ⟨AccFrame.pushGroup _ s, ?_⟩
      rw [OpResult.state_returns, pushGroup_frame]
    · exact ⟨rfl, rfl⟩

/-- B32DEC's body keeps all but OUT's bytes, POS, ACC and ACC_CNT (rule R85). -/
theorem b32DecBody_frame (s : State) : AccFrame s (b32DecBody s).state ∧ (b32DecBody s).state.draws = s.draws :=
  forUnits_preserves (P := fun t => AccFrame s t ∧ t.draws = s.draws)
    (fun c t h => ⟨h.1.trans (b32DecUnit_frame c t).1, (b32DecUnit_frame c t).2.trans h.2⟩)
    (fun t h => ⟨h.1.trans rfl, h.2⟩) _ _ ⟨rfl, rfl⟩

theorem b122PushIllegal_frame (idx : BitVec 3) (s : State) : AccFrame s (b122PushIllegal idx s) := by
  unfold b122PushIllegal
  split
  · exact AccFrame.pushGroup _ s
  · exact AccFrame.trans (t := { s with draws := s.draws + 1 }) rfl (AccFrame.pushGroup _ _)

/-- A unit of B122DEC returns, and keeps all but OUT's bytes, ACC, ACC_CNT and the draws (rule R132). -/
theorem b122DecUnit_frame (c : CodePoint) (s : State) :
    ∃ t, b122DecUnit c s = .returns t ∧ AccFrame s t ∧ t.work.pos = s.work.pos := by
  have hpos : ∀ {k : Nat} (v : BitVec k) (u : State), (pushGroup v u).work.pos = u.work.pos := fun v u => by
    rw [pushGroup_frame]
  unfold b122DecUnit
  split
  · exact ⟨_, rfl, AccFrame.pushGroup _ s, hpos _ _⟩
  · split
    · exact ⟨_, rfl, AccFrame.pushGroup _ s, hpos _ _⟩
    · refine ⟨_, rfl, (b122PushIllegal_frame _ s).trans (AccFrame.pushGroup _ _), ?_⟩
      rw [hpos]
      unfold b122PushIllegal
      split
      · exact hpos _ _
      · exact hpos _ _

/-- B122DEC's datapath returns on every text, and keeps all but OUT's bytes, POS, ACC, ACC_CNT and the draws (rules R132, R142). -/
theorem forUnits_b122DecUnit_frame : ∀ (cs : List CodePoint) (s : State),
    ∃ t, forUnits b122DecUnit cs s = .returns t ∧ AccFrame s t
  | [], s => ⟨s, rfl, rfl⟩
  | c :: cs, s => by
    obtain ⟨u, hu, hf, _⟩ := b122DecUnit_frame c s
    obtain ⟨t, ht, hg⟩ := forUnits_b122DecUnit_frame cs u.advancePos
    refine ⟨t, ?_, (hf.trans (show AccFrame u u.advancePos from rfl)).trans hg⟩
    rw [forUnits_cons, hu]; exact ht

/-- The state t has nothing changed of s but OUT's bytes, POS and the group buffer. -/
def GroupFrame (s t : State) : Prop :=
  t = { s with
    out := { s.out with bytes := t.out.bytes }
    work := { s.work with pos := t.work.pos, b85Buf := t.work.b85Buf, b85Cnt := t.work.b85Cnt } }

theorem GroupFrame.trans {s t u : State} (h1 : GroupFrame s t) (h2 : GroupFrame t u) : GroupFrame s u := by
  unfold GroupFrame at *; rw [h1] at h2; exact h2

/-- Decoding a group emits bytes or raises at the index it is given (rules R106 to R108). -/
theorem b85EmitGroup_cases (m i : Nat) (s : State) :
    b85EmitGroup m i s = .raises i s ∨ ∃ bs, b85EmitGroup m i s = .returns (s.emitBytes bs) := by
  unfold b85EmitGroup
  split
  · exact .inl rfl
  · exact .inr ⟨_, rfl⟩

/-- A unit of B85DEC keeps all but OUT's bytes and the group buffer, and raises only at POS (rules R102 to R106). -/
theorem b85DecUnit_frame (c : CodePoint) (s : State) :
    GroupFrame s (b85DecUnit c s).state ∧ (b85DecUnit c s).state.work.pos = s.work.pos ∧
      ∀ i t, b85DecUnit c s = .raises i t → i = s.work.pos := by
  unfold b85DecUnit
  split
  · exact ⟨rfl, rfl, fun _ _ h => by cases h⟩
  split
  · split
    · exact ⟨rfl, rfl, fun _ _ h => by cases h⟩
    · exact ⟨rfl, rfl, fun _ _ h => by cases h; rfl⟩
  split
  · unfold b85DecSymbol b85FullGroup
    split
    · rcases b85EmitGroup_cases 5 (b85PushDigit (c.toNat - 0x21) s).work.pos (b85PushDigit (c.toNat - 0x21) s) with
        h | ⟨bs, h⟩ <;> rw [h]
      · exact ⟨rfl, rfl, fun _ _ h => by cases h; rfl⟩
      · exact ⟨rfl, rfl, fun _ _ h => by cases h⟩
    · exact ⟨rfl, rfl, fun _ _ h => by cases h⟩
  · exact ⟨rfl, rfl, fun _ _ h => by cases h; rfl⟩

/-- B85DEC's body keeps all but OUT's bytes, POS and the group buffer (rule R102). -/
theorem b85DecBody_frame (s : State) : GroupFrame s (b85DecBody s).state := by
  have hw := forUnits_preserves (f := b85DecUnit) (P := GroupFrame s)
    (fun c t h => h.trans (b85DecUnit_frame c t).1) (fun t h => h.trans rfl) s.input.text
    { s with work.b85Cnt := 0 } rfl
  unfold b85DecBody
  cases h : forUnits b85DecUnit s.input.text { s with work.b85Cnt := 0 } with
  | raises i t => rw [h] at hw; exact hw
  | returns t =>
    rw [h] at hw
    rw [OpResult.andThen_returns]
    unfold b85DecTail
    split
    · exact hw
    · rcases b85EmitGroup_cases t.work.b85Cnt.toNat (b85LastSymbol t.input.text)
        { t with work.b85Buf := b85Pad t.work.b85Cnt.toNat t.work.b85Buf } with h' | ⟨bs, h'⟩ <;> rw [h']
      · exact hw.trans rfl
      · exact hw.trans rfl

/-- The state t has nothing changed of s but OUT's bytes, POS, BIG and ZCOUNT. -/
def BigFrame (s t : State) : Prop :=
  t = { s with
    out := { s.out with bytes := t.out.bytes }
    work := { s.work with pos := t.work.pos, big := t.work.big, zcount := t.work.zcount } }

theorem BigFrame.trans {s t u : State} (h1 : BigFrame s t) (h2 : BigFrame t u) : BigFrame s u := by
  unfold BigFrame at *; rw [h1] at h2; exact h2

/-- A unit of B58DEC changes BIG alone (rules R120, R121). -/
theorem b58DecUnit_frame (c : CodePoint) (s : State) : BigFrame s (b58DecUnit c s).state := by
  unfold b58DecUnit; split <;> rfl

/-- B58DEC's body keeps all but OUT's bytes, POS, BIG and ZCOUNT (rule R118). -/
theorem b58DecBody_frame (s : State) : BigFrame s (b58DecBody s).state := by
  unfold b58DecBody
  split
  · rfl
  · have hw := forUnits_preserves (f := b58DecUnit) (P := BigFrame s)
      (fun c t h => h.trans (b58DecUnit_frame c t)) (fun t h => h.trans rfl) (b58Trimmed s.params s.input.text)
      { s with work.big := 0, work.pos := b58Skip s.params s.input.text } rfl
    cases h : forUnits b58DecUnit (b58Trimmed s.params s.input.text)
        { s with work.big := 0, work.pos := b58Skip s.params s.input.text } with
    | raises i t => rw [h] at hw; exact hw
    | returns t => rw [h] at hw; exact hw.trans rfl

end Sys2Proof.Machine
end

