-- ==== Sys2Proof/Laws/PerInstr.lean ====
section
/-! SUPPORT. Statements about instructions as syntax, one lemma per constructor: the word of each has RSV = 0 and its own CODEC and DIR fields (rules R53 to R56). -/

namespace Sys2Proof.Laws.WordFields

open Sys2Proof

/-- The fields of an operation's command word (rules R53 to R55). -/
def Statement (i : Instr) : Prop :=
  rsvField (encode i) = 0b0#1 ∧ codecField (encode i) = codecBits i.codec ∧ dirField (encode i) = dirBits i.dir

theorem b32enc : Statement .b32enc := ⟨rfl, rfl, rfl⟩
theorem b32dec : Statement .b32dec := ⟨rfl, rfl, rfl⟩
theorem b85enc : Statement .b85enc := ⟨rfl, rfl, rfl⟩
theorem b85dec : Statement .b85dec := ⟨rfl, rfl, rfl⟩
theorem b58enc : Statement .b58enc := ⟨rfl, rfl, rfl⟩
theorem b58dec : Statement .b58dec := ⟨rfl, rfl, rfl⟩
theorem b122enc : Statement .b122enc := ⟨rfl, rfl, rfl⟩
theorem b122dec : Statement .b122dec := ⟨rfl, rfl, rfl⟩

end Sys2Proof.Laws.WordFields
end

