-- ==== Sys2Proof/Laws/Tables.lean ====
section
/-! SUPPORT. Facts about the tables and the code points: lookups invert each other, and small numbers are code points. -/

namespace Sys2Proof.Machine

/-- A number below the surrogates is the code point of that number. -/
@[simp] theorem codePoint_toNat (n : Nat) (h : n < 0xD800) : (Char.ofNat n).toNat = n := by
  rw [Char.toNat_ofNat, if_pos (Or.inl h)]

/-- Rule R63: 32 symbols. -/
theorem b32Alpha_length : b32Alpha.length = 32 := rfl

/-- Rule R67: 58 symbols. -/
theorem b58Alpha_length : b58Alpha.length = 58 := rfl

/-- Rule R64: `B32_REV(B32_ALPHA[v]) = v`. -/
@[simp] theorem b32Rev_b32Symbol (v : BitVec 5) : b32Rev (b32Symbol v) = some v := by
  revert v; decide

/-- No encoder symbol is folded (rules R63, R88). -/
@[simp] theorem foldCase_b32Symbol (m : B32Fold) (v : BitVec 5) : foldCase m (b32Symbol v) = b32Symbol v := by
  revert v; cases m <;> decide

/-- No encoder symbol is ignored (rules R63, R65). -/
theorem b32Symbol_not_ignored (v : BitVec 5) : b32Symbol v ∉ b32Ignore := by
  revert v; decide

/-- A symbol decodes to its value, whichever folding (rules R86, R88). -/
@[simp] theorem b32Value_b32Symbol (m : B32Fold) (v : BitVec 5) : b32Value m (b32Symbol v) = some v := by
  simp [b32Value]

/-- Rule R68: `B58_REV(B58_ALPHA[d]) = d`. -/
@[simp] theorem b58Rev_b58Symbol (d : Fin 58) : b58Rev (b58Symbol d) = some d.val := by
  revert d; decide

/-- The code point of a base-85 digit (rule R66). -/
@[simp] theorem b85Symbol_toNat (d : Nat) (h : d < 85) : (b85Symbol d).toNat = 0x21 + d :=
  codePoint_toNat _ (by omega)

/-- The index of an illegal group is the place of its byte (rules R69, R128). -/
theorem b122IllegalGroup_of_indexOf {g : BitVec 7} {idx : Fin 6} (h : b122IndexOf g = some idx) :
    b122IllegalGroup (BitVec.ofNat 3 idx.val) = some g := by
  revert g idx; decide

/-- Only the indices 0..5 have an entry (rules R69, R137 (a)). -/
theorem b122IllegalGroup_isSome (idx : BitVec 3) : (b122IllegalGroup idx).isSome = decide (idx.toNat < 6) := by
  revert idx; decide

/-- An escape's code point as a sum of its fields (rule R70). -/
theorem escapeUnit_toNat (idx : BitVec 3) (g : BitVec 7) : (escapeUnit idx g).toNat = 256 * idx.toNat + 128 + g.toNat := by
  have hi := idx.isLt
  have hg := g.isLt
  have h : (idx.toNat <<< 8) ||| 0x80 ||| g.toNat = 256 * idx.toNat + 128 + g.toNat := by
    have e1 : (idx.toNat <<< 8) ||| 0x80 = 256 * idx.toNat + 128 := by
      have := Nat.shiftLeft_add_eq_or_of_lt (b := 0x80) (i := 8) (by omega) idx.toNat
      rw [← this, Nat.shiftLeft_eq]; omega
    have e2 : 256 * idx.toNat + 128 = (2 * idx.toNat + 1) <<< 7 := by rw [Nat.shiftLeft_eq]; omega
    rw [e1, e2, ← Nat.shiftLeft_add_eq_or_of_lt (by omega) (2 * idx.toNat + 1)]
  rw [escapeUnit, h]
  exact codePoint_toNat _ (by omega)

/-- The fields of an escape read back (rules R70, R134). -/
@[simp] theorem escapeIndex_escapeUnit (idx : BitVec 3) (g : BitVec 7) : escapeIndex (escapeUnit idx g) = idx := by
  have hi := idx.isLt
  have hg := g.isLt
  apply BitVec.eq_of_toNat_eq
  rw [escapeIndex, escapeUnit_toNat, Nat.shiftRight_eq_div_pow, BitVec.toNat_ofNat]
  omega

@[simp] theorem escapePayload_escapeUnit (idx : BitVec 3) (g : BitVec 7) : escapePayload (escapeUnit idx g) = g := by
  have hg := g.isLt
  apply BitVec.eq_of_toNat_eq
  rw [escapePayload, escapeUnit_toNat, BitVec.toNat_ofNat]
  omega

end Sys2Proof.Machine
end

