-- ==== Sys2Proof/Laws/Widths.lean ====
section
/-! SUPPORT. What fits the widths of a bounded block. -/

namespace Sys2Proof.Machine

/-- Every count up to n fits the width of a count up to n. -/
theorem lt_two_pow_indexWidth {i n : Nat} (h : i ≤ n) : i < 2 ^ indexWidth n :=
  lt_of_lt_of_le (Nat.lt_succ_of_le h) (Nat.le_pow_clog (by decide) (n + 1))

@[simp] theorem fitIndex_zero (p : Params) : Params.fitIndex p 0 = 0 := by
  unfold Params.fitIndex; split <;> simp

/-- A register of IDX_W bits never holds more than was written to it. -/
theorem fitIndex_le (p : Params) (i : Nat) : Params.fitIndex p i ≤ i := by
  unfold Params.fitIndex; split
  · exact le_rfl
  · exact Nat.mod_le _ _

theorem fitIndex_lt {p : Params} {n : Nat} (h : p.maxInLen = some n) (i : Nat) :
    Params.fitIndex p i < 2 ^ indexWidth n := by
  simpa [Params.fitIndex, Params.idxWidth, h] using Nat.mod_lt _ (Nat.two_pow_pos _)

/-- An index of a unit of an input within MAX_IN_LEN is held whole (rules R21, R145). -/
theorem fitIndex_of_lt {p : Params} {i len : Nat} (h : Params.exceeds p len = false) (hi : i < len) :
    Params.fitIndex p i = i := by
  cases hn : p.maxInLen with
  | none => simp [Params.fitIndex, Params.idxWidth, hn]
  | some n =>
    have hlen : len ≤ n := by simpa [Params.exceeds, hn] using h
    simpa [Params.fitIndex, Params.idxWidth, hn] using Nat.mod_eq_of_lt (lt_two_pow_indexWidth (by omega : i ≤ n))

theorem beNat_foldl_lt (s : List Byte) (v : Nat) :
    s.foldl (fun v x => 256 * v + x.toNat) v < (v + 1) * 256 ^ s.length := by
  induction s generalizing v with
  | nil => simp
  | cons x xs ih =>
    have hx := x.isLt
    calc xs.foldl (fun v x => 256 * v + x.toNat) (256 * v + x.toNat)
        < (256 * v + x.toNat + 1) * 256 ^ xs.length := ih _
      _ ≤ ((v + 1) * 256) * 256 ^ xs.length := Nat.mul_le_mul_right _ (by omega)
      _ = (v + 1) * 256 ^ (xs.length + 1) := by ring

/-- A number of n big-endian bytes is below 256^n (rule R12). -/
theorem beNat_lt (s : List Byte) : beNat s < 256 ^ s.length := by
  simpa [beNat] using beNat_foldl_lt s 0

/-- BIG while B58ENC runs: the whole input fits the `8n` bits of rule R29, and the loop only divides it. -/
theorem loadBig_big_lt {s : State} {n : Nat} (hn : s.params.maxInLen = some n)
    (hx : Params.exceeds s.params (s.inLen .enc) = false) : s.loadBig.work.big < 2 ^ bigWidth .enc n := by
  have hlen : s.input.bytes.length ≤ n := by
    simp only [Params.exceeds, hn, State.inLen] at hx
    exact Nat.le_of_not_lt (of_decide_eq_false hx)
  calc beNat s.input.bytes < 256 ^ s.input.bytes.length := beNat_lt _
    _ ≤ 256 ^ n := Nat.pow_le_pow_right (by decide) hlen
    _ = 2 ^ (8 * n) := by rw [pow_mul]; norm_num

end Sys2Proof.Machine
end

