-- ==== Sys2Proof/Tests/Slice0.lean ====
section
/-! SUPPORT. The model's own tests: the spec's vectors (95_test_vectors.md), the command words of rule R56, the checks of WellFormed, and a witness for the hypotheses of every statement. -/

namespace Sys2Proof.Tests

open Sys2Proof Sys2Proof.Machine

/-- The state right after START of an operation with an input in its lane, under the spec's parameters. -/
def started (i : Instr) (b : List Byte) (t : List CodePoint) : State :=
  { State.scratch defaultParams { bytes := b, text := t } with op := encode i }

/-- The same under other parameters. -/
def startedWith (p : Params) (i : Instr) (b : List Byte) (t : List CodePoint) : State :=
  { State.scratch p { bytes := b, text := t } with op := encode i }

/-- The next state of an outcome, if it is one. -/
def nextOf : Result → Option State
  | .next s => some s
  | _ => none

/-- CODE, ERR_INDEX and OUT of a completed encoder. -/
def encoded (r : Result) : Option (Code × Nat × List CodePoint) := (nextOf r).map fun s => (s.code, s.errIndex, s.out.text)

/-- CODE, ERR_INDEX and OUT of a completed decoder. -/
def decoded (r : Result) : Option (Code × Nat × List Byte) := (nextOf r).map fun s => (s.code, s.errIndex, s.out.bytes)

/-- STATE, CODE and ERR_INDEX. -/
def ending (r : Result) : Option (Phase × Code × Nat) := (nextOf r).map fun s => (s.phase, s.code, s.errIndex)

/-! ### Command words, written out from rules R53 to R56 -/

theorem test_word_b32enc : decode 0b0000#4 = .command .b32enc := by decide
theorem test_word_b32dec : decode 0b0001#4 = .command .b32dec := by decide
theorem test_word_b85enc : decode 0b0010#4 = .command .b85enc := by decide
theorem test_word_b85dec : decode 0b0011#4 = .command .b85dec := by decide
theorem test_word_b58enc : decode 0b0100#4 = .command .b58enc := by decide
theorem test_word_b58dec : decode 0b0101#4 = .command .b58dec := by decide
theorem test_word_b122enc : decode 0b0110#4 = .command .b122enc := by decide
theorem test_word_b122dec : decode 0b0111#4 = .command .b122dec := by decide
theorem test_word_reserved : decode 0b1000#4 = .reserved 0b1000#4 ∧ decode 0b1111#4 = .reserved 0b1111#4 := by decide
theorem test_table_word : decodeTableWord 8 5 = some .b58dec ∧ decodeTableWord 8 9 = none := by decide

/-- The very next step after withFetchWord, from reset, runs the command (rule R113: B58ENC of `[]` is OK with `[]`). -/
theorem test_fetch_runs : encoded (step (State.reset.withFetchWord 8 4)) = some (.ok, 0, []) := by decide

/-! ### WellFormed: each check refuses an ill-formed term -/

theorem test_wf_command : commandWellFormed 0b1000#4 = false ∧ commandWellFormed 0b0111#4 = true := by decide
theorem test_wf_marker : ({ defaultParams with b122Short := 5 } : Params).markerFree = false ∧ defaultParams.markerFree = true := by decide
theorem test_wf_blanks : ({ defaultParams with blankSet := ['1'] } : Params).blanksApart = false ∧ defaultParams.blanksApart = true := by decide
theorem test_wf_params : ({ defaultParams with b122Short := 0 } : Params).wellFormed = false ∧ defaultParams.wellFormed = true := by decide
theorem test_wf_instr : Instr.b122dec.wellFormed = true := by decide

/-! ### Tables -/

/-- Rule R64: `U` and `u` are unmapped, and `O`, `I`, `L` are aliases. -/
theorem test_b32_rev : b32Rev 'U' = none ∧ b32Rev 'Z' = some 31 ∧ b32Rev 'O' = some 0 ∧ b32Rev 'L' = some 1 := by decide

/-- Rule R67's table: 9 is `A`, 22 is `P`, 44 is `m`, 57 is `z`; rule R68: `l` is unmapped. -/
theorem test_b58_alpha : b58Symbol 9 = 'A' ∧ b58Symbol 22 = 'P' ∧ b58Symbol 44 = 'm' ∧ b58Symbol 57 = 'z' ∧ b58Rev 'l' = none := by decide

/-! ### BitCursor: vectors V103 and V106, and the trace of section 2.1 -/

theorem test_groups5 : Closed.groups 5 [0x00, 0xFF] = [0, 3, 31, 16] := by decide
theorem test_groups7 : Closed.groups 7 [0x02] = [1, 0] := by decide
theorem test_pack7 : Closed.pack [32#7, 80#7, 64#7] = [0x41, 0x42] := by decide

/-- The third call of the trace: the cursor is at (1, 2), the value is 30, and it moves to (1, 7). -/
theorem test_next_group_trace :
    (nextGroup 5 { started .b32enc [0xA5, 0x3C] [] with work.curByte := 1, work.curBit := 2 }).1 = some 30 ∧
    (nextGroup 5 { started .b32enc [0xA5, 0x3C] [] with work.curByte := 1, work.curBit := 2 }).2.work.curBit = 7 := by decide

/-- The second push of the trace: 0b11111 and then 28 emits 0xFF and keeps two bits. -/
theorem test_push_group_trace :
    (pushGroup 28#5 { started .b32dec [] [] with work.acc := 0b11111, work.accCnt := 5 }).out.bytes = [0xFF] ∧
    (pushGroup 28#5 { started .b32dec [] [] with work.acc := 0b11111, work.accCnt := 5 }).work.accCnt = 2 := by decide

/-! ### Operations: vectors of 95_test_vectors.md -/

/-- V127. -/
theorem test_b32enc_foobar :
    encoded (exec .b32enc (started .b32enc [0x66, 0x6F, 0x6F, 0x62, 0x61, 0x72] [])) =
      some (.ok, 0, ['C', 'S', 'Q', 'P', 'Y', 'R', 'K', '1', 'E', '8']) := by decide

/-- V149: lower case, `-` and a line feed. -/
theorem test_b32dec_folded :
    decoded (exec .b32dec (started .b32dec [] ['c', 's', '-', 'q', 'p', '\n', 'y'])) = some (.ok, 0, [0x66, 0x6F, 0x6F]) := by decide

/-- V275: the first of two invalid units is reported. -/
theorem test_b32dec_first_error :
    ending (exec .b32dec (started .b32dec [] ['A', '#', 'B', '*'])) = some (.done, .invalidEncoding, 1) := by decide

/-- V175: a zero chunk and a partial chunk. -/
theorem test_b85enc_zero_and_tail :
    encoded (exec .b85enc (started .b85enc [0x00, 0x00, 0x00, 0x00, 0x4D, 0x61, 0x6E] [])) =
      some (.ok, 0, ['z', '9', 'j', 'q', 'o']) := by decide

/-- V191: a group value above 2^32 - 1 wraps. -/
theorem test_b85dec_wraps :
    decoded (exec .b85dec (started .b85dec [] ['u', 'u', 'u', 'u', 'u'])) = some (.ok, 0, [0x08, 0x78, 0x0E, 0xC4]) := by decide

/-- V278: ignored units and completed groups count. -/
theorem test_b85dec_error_index :
    ending (exec .b85dec (started .b85dec [] ['9', 'j', 'q', 'o', '^', ' ', '~'])) = some (.done, .invalidEncoding, 6) := by decide

/-- V206: a leading zero byte. -/
theorem test_b58enc_leading_zero :
    encoded (exec .b58enc (started .b58enc [0x00, 0xFF] [])) = some (.ok, 0, ['1', '5', 'Q']) := by decide

/-- V219. -/
theorem test_b58dec_zzz :
    decoded (exec .b58dec (started .b58dec [] ['z', 'z', 'z'])) = some (.ok, 0, [0x02, 0xFA, 0x27]) := by decide

/-- V229: no trimming. -/
theorem test_b58dec_trailing_blank :
    ending (exec .b58dec (started .b58dec [] ['2', ' '])) = some (.done, .invalidEncoding, 1) := by decide

/-- V239: an escape whose payload is not examined, then the shortened escape. -/
theorem test_b122enc_escapes :
    encoded (exec .b122enc (started .b122enc [0x15, 0x00] [])) = some (.ok, 0, [Char.ofNat 0x1C0, Char.ofNat 0x780]) := by decide

/-- V252. -/
theorem test_b122dec_escape :
    decoded (exec .b122dec (started .b122dec [] [Char.ofNat 0x180])) = some (.ok, 0, [0x14]) := by decide

/-- V279: malformed text is no error. -/
theorem test_b122dec_malformed :
    ending (exec .b122dec (started .b122dec [] [Char.ofNat 0x680])) = some (.done, .ok, 0) := by decide

/-- V274: capacity comes before the operation's own error. -/
theorem test_capacity_first :
    ending (exec .b32dec (startedWith { defaultParams with maxInLen := some 4 } .b32dec [] ['A', 'B', 'C', 'D', 'E', '*'])) =
      some (.done, .capacityExceeded, 0) := by decide

/-- V273: IllegalCommand comes before capacity. -/
theorem test_illegal_first :
    ending (step { startedWith { defaultParams with maxInLen := some 4 } .b32enc [0, 1, 2, 3, 4] [] with op := 9 }) =
      some (.done, .illegalCommand, 0) := by decide

/-- P5: a START presented while BUSY is accepted after the completion. -/
theorem test_held_start :
    (nextOf (step { started .b32enc [0x48, 0x69] [] with host := [.start { cmd := 4, input := { bytes := [0xFF], text := [] } }] })).map
      (fun s => (s.out.text, s.host.length)) = some (['9', '1', 'M', 'G'], 1) := by decide

/-- STATUS at DONE (section 2.6): 0x06 for InvalidEncoding, 0x0E for IllegalCommand, 0x12 for CapacityExceeded. -/
theorem test_status_words :
    (State.reset.terminate .invalidEncoding 2).statusWord = 0x06#8 ∧ (State.reset.terminate .illegalCommand 0).statusWord = 0x0E#8 ∧
    (State.reset.terminate .capacityExceeded 0).statusWord = 0x12#8 ∧ State.reset.complete.statusWord = 0x02#8 := by decide

/-! ### Witnesses: concrete states that meet the hypotheses of the statements -/

/-- StartIsHeldWhileBusy: a block in each STATE. -/
theorem witness_phases :
    State.reset.phase = .idle ∧ (started .b58enc [0xFF] []).phase = .busy ∧ State.reset.complete.phase = .done := by decide

/-- StepRunsTheDecodedInstruction, EveryTransactionCompletes. -/
theorem witness_busy :
    let s := { started .b58enc [0xFF] [] with host := [.read .status] }
    s.phase = .busy ∧ s.host.head? ≠ some .reset ∧ decode s.op = .command .b58enc := by decide

/-- StartIsLatchedWhenNotBusy, for both directions of the command. -/
theorem witness_start :
    let s := { State.reset with host := [.start { cmd := 1, input := { bytes := [], text := ['0'] } }, .wait] }
    let u := { State.reset.complete with host := [.start { cmd := 0, input := { bytes := [1], text := [] } }] }
    (s.phase ≠ .busy ∧ s.host = [.start { cmd := 1, input := { bytes := [], text := ['0'] } }, .wait]) ∧
    (u.phase ≠ .busy ∧ u.host = [.start { cmd := 0, input := { bytes := [1], text := [] } }]) := by decide

/-- ResetTakesEffectInAnyState: reset during BUSY. -/
theorem witness_reset :
    let s := { started .b58enc [0xFF] [] with host := [.reset, .wait] }
    s.phase = .busy ∧ s.host.head? = some .reset := by decide

/-- DoneIsStable, with a read as the host's next move. -/
theorem witness_done :
    let s := { State.reset.complete with host := [.read .out] }
    s.phase = .done ∧ s.host.head? ≠ some .reset ∧ ∀ r, s.host.head? ≠ some (.start r) := by
  refine ⟨rfl, by decide, fun r h => by cases h⟩

/-- OnlyStartResetAndCompletionWriteStateOpAndIn: each of its three cases answers a next state. -/
theorem witness_who_writes :
    (∃ t, step (started .b32enc [0xFF] []) = .next t ∧ (started .b32enc [0xFF] []).phase = .busy) ∧
    (∃ t, step State.reset = .next t ∧ State.reset.phase ≠ .busy ∧ ∀ r, State.reset.host.head? ≠ some (.start r)) ∧
    (∃ t, step { State.reset with host := [.start { cmd := 8, input := Lanes.empty }] } = .next t ∧
      ({ State.reset with host := [.start { cmd := 8, input := Lanes.empty }] } : State).host.head? =
        some (.start { cmd := 8, input := Lanes.empty })) :=
  ⟨⟨_, rfl, rfl⟩, ⟨_, rfl, by decide, fun r h => by cases h⟩, ⟨_, rfl, rfl⟩⟩

/-- TransactionIsStartThenOperation. -/
theorem witness_transaction :
    let s := { State.reset with host := [.start { cmd := 6, input := { bytes := [0x02], text := [] } }] }
    s.phase ≠ .busy ∧ decode 6#4 = .command .b122enc ∧
      s.host = [.start { cmd := 6, input := { bytes := [0x02], text := [] } }] := by decide

/-- ReservedCommandIsIllegal and ErrorsComeInThePriorityOrder: a reserved command with a long input, a long input, and one at the limit. -/
theorem witness_error_order :
    let p : Params := { defaultParams with maxInLen := some 4 }
    let r := { startedWith p .b32enc [0, 1, 2, 3, 4] [] with op := 8 }
    let l := startedWith p .b32enc [0, 1, 2, 3, 4] []
    let n := startedWith p .b32enc [0, 1, 2, 3] []
    (r.phase = .busy ∧ r.host.head? ≠ some .reset ∧ r.op.getLsbD 3 = true) ∧
    (l.phase = .busy ∧ decode l.op = .command .b32enc ∧ Params.exceeds l.params (l.inLen .enc) = true) ∧
    (n.phase = .busy ∧ decode n.op = .command .b32enc ∧ Params.exceeds n.params (n.inLen .enc) = false) := by decide

/-- LongInputExceedsCapacity, one unit over the limit, for both directions. -/
theorem witness_long_input :
    let p : Params := { defaultParams with maxInLen := some 1 }
    p.maxInLen = some 1 ∧ 1 < (startedWith p .b85enc [0, 0] []).inLen Instr.b85enc.dir ∧
      1 < (startedWith p .b85dec [] ['z', 'z']).inLen Instr.b85dec.dir := by decide

/-- LongInputExceedsCapacity, its second part: an unbounded block. -/
theorem witness_unbounded :
    ∃ t, exec .b85dec (started .b85dec [] ['z', 'z']) = .next t ∧ (started .b85dec [] ['z', 'z']).params.maxInLen = none :=
  ⟨_, rfl, rfl⟩

/-- EncodersNeverFail and Base122DecoderNeverRaises: inputs at the limit. -/
theorem witness_within_capacity :
    let p : Params := { defaultParams with maxInLen := some 2 }
    Params.exceeds p (startedWith p .b58enc [1, 2] []).input.bytes.length = false ∧
      Params.exceeds p (startedWith p .b122dec [] [Char.ofNat 0x680, 'A']).input.text.length = false := by decide

/-- HostReadsTheRegistersAtDone: a block at DONE with OK, one in error, and BUSY ones, unbounded and bounded. -/
theorem witness_reads :
    let p : Params := { defaultParams with maxInLen := some 4 }
    State.reset.complete.phase = .done ∧ State.reset.complete.code = .ok ∧ (State.reset.terminate .illegalCommand 0).code ≠ .ok ∧
      (started .b32enc [] []).phase = .busy ∧ (started .b32enc [] []).params.maxInLen = none ∧
      (startedWith p .b32enc [] []).phase = .busy ∧ (startedWith p .b32enc [] []).params.maxInLen = some 4 := by decide

/-- IDX_W = `ceil(log2(MAX_IN_LEN + 1))` (rule R7): no bit for 0, 2 bits for 3, 3 bits for 4. -/
theorem test_idx_width : indexWidth 0 = 0 ∧ indexWidth 3 = 2 ∧ indexWidth 4 = 3 := by decide

/-- Rule R29 at n = 2: 16 bits for B58ENC and `ceil(2 * log2(58))` = 12 for B58DEC; rule R40: `2 + ceil(16 / log2(58))` = 5. -/
theorem test_big_width : bigWidth .enc 2 = 16 ∧ bigWidth .dec 2 = 12 ∧ outBound .b58enc 2 = 5 := by decide

/-- NextGroupReadsTheBitStream: before the last, partial group, and after it. -/
theorem witness_next_group :
    let s := { started .b32enc [0xFF] [] with work.curByte := 0, work.curBit := 5 }
    let u := { started .b32enc [0xFF] [] with work.curByte := 1, work.curBit := 2 }
    (8 * s.work.curByte + s.work.curBit.toNat = 5 * 1 ∧ 5 * 1 < 8 * s.input.bytes.length) ∧
    (8 * u.work.curByte + u.work.curBit.toNat = 5 * 2 ∧ 8 * u.input.bytes.length ≤ 5 * 2) := by decide

/-- PushedGroupsArePacked. -/
theorem witness_push : (started .b122dec [] []).work.accCnt = 0 ∧ (started .b122dec [] []).work.acc = 0 := by decide

/-- Every statement about an encoder that is ready: an input at the limit of MAX_IN_LEN. -/
theorem witness_ready_enc :
    (startedWith { defaultParams with maxInLen := some 5 } .b85enc [0, 0, 0, 0, 1] []).Ready .enc := by decide

/-- OutputLengthsAndBounds, for B85ENC, for a bounded decoder at the limit, and for B122DEC on well-formed text (V249). -/
theorem witness_b85_length : ∃ t, exec .b85enc (started .b85enc [0, 0, 0, 0, 1] []) = .next t ∧ (started .b85enc [0, 0, 0, 0, 1] []).Ready .enc :=
  ⟨_, rfl, by decide⟩

theorem witness_bounds :
    let s := startedWith { defaultParams with maxInLen := some 1 } .b85dec [] ['z']
    let u := started .b122dec [] [Char.ofNat 0x01, Char.ofNat 0x780]
    (∃ t, exec .b85dec s = .next t ∧ s.Ready .dec ∧ t.code = .ok ∧ s.params.maxInLen = some 1) ∧
    (∃ t, exec .b122dec u = .next t ∧ u.Ready .dec ∧ t.code = .ok) ∧ b122WellFormedText u.params u.input.text = true :=
  ⟨⟨_, rfl, by decide, by decide, rfl⟩, ⟨_, rfl, by decide, by decide⟩, by decide⟩

/-- Base32DecodesResolvedUnits. -/
theorem witness_b32_valid :
    let s := started .b32dec [] ['o', '-', 'Z', 'z']
    s.Ready .dec ∧ ∀ c ∈ ['o', '-', 'Z', 'z'], Closed.b32Invalid s.params.b32Fold c = false :=
  ⟨by decide, fun c hc => by fin_cases hc <;> decide⟩

/-- Base32RejectsTheFirstInvalidUnit: an ignored unit, a symbol, then `u`. -/
theorem witness_b32_invalid :
    let s := started .b32dec [] ['-', 'A', 'u', '#']
    s.Ready .dec ∧ s.input.text = ['-', 'A'] ++ 'u' :: ['#'] ∧
      (∀ d ∈ ['-', 'A'], Closed.b32Invalid s.params.b32Fold d = false) ∧ Closed.b32Invalid s.params.b32Fold 'u' = true :=
  ⟨by decide, rfl, fun d hd => by fin_cases hd <;> decide, by decide⟩

/-- Base32IgnoredUnitsDoNotMatter: the source's example "A-B C" and "ABC", and one that ends in the error. -/
theorem witness_b32_ignored :
    let s := started .b32dec [] ['A', '-', 'B', ' ', 'C']
    let u := started .b32dec [] ['A', 'B', 'C']
    s.Ready .dec ∧ u.Ready .dec ∧ u.params = s.params ∧
      u.input.text = s.input.text.filter (fun c => !b32Ignore.contains c) := by decide

/-- Base32RoundTrip. -/
theorem witness_b32_round_trip :
    ∃ t, exec .b32enc (started .b32enc [0xFF] []) = .next t ∧ (started .b32enc [0xFF] []).Ready .enc ∧
      (started .b32dec [] ['Z', 'W']).Ready .dec ∧ (started .b32dec [] ['Z', 'W']).input.text = t.out.text :=
  ⟨_, rfl, by decide, by decide, by decide⟩

/-- Base85DecodesTheGroups: `z`, a full group and a partial one, a space among them, under `wrap`; and, since none overflows, under `error`. -/
theorem witness_b85_groups :
    let s := started .b85dec [] ['z', '!', '!', ' ', '!', '!', '"', '!', '!']
    let u := startedWith { defaultParams with b85Overflow := .error } .b85dec [] s.input.text
    let gs := [['z'], ['!', '!', '!', '!', '"'], ['!', '!']]
    s.Ready .dec ∧ u.Ready .dec ∧ s.params.b85Overflow = .wrap ∧ Closed.b85Groups (Closed.b85Strip s.input.text) = some gs ∧
      (∀ g ∈ gs, Closed.b85GroupOverflows g = false) ∧ gs.flatMap Closed.b85GroupBytes = [0, 0, 0, 0, 0, 0, 0, 1, 0] := by decide

/-- Base85RejectsTheFirstInvalidUnit: `z` in a group, the first unit above the range, and the last below it; under `error` an invalid unit behind a partial group. -/
theorem witness_b85_invalid :
    let s := started .b85dec [] ['z', '!', 'z']
    let u := started .b85dec [] ['v']
    let w := started .b85dec [] [' ', Char.ofNat 0x1F]
    (s.Ready .dec ∧ s.params.b85Overflow = .wrap ∧ s.input.text = ['z', '!'] ++ 'z' :: [] ∧ Closed.b85Slots ['z', '!'] = some 1) ∧
    (u.Ready .dec ∧ u.input.text = [] ++ 'v' :: [] ∧ Closed.b85Slots [] = some 0 ∧
      'v' ∉ b85Ignore ∧ 'v' ≠ 'z' ∧ 0x75 < 'v'.toNat) ∧
    (w.Ready .dec ∧ w.input.text = [' '] ++ Char.ofNat 0x1F :: [] ∧ Closed.b85Slots [' '] = some 0 ∧
      Char.ofNat 0x1F ∉ b85Ignore ∧ Char.ofNat 0x1F ≠ 'z' ∧ (Char.ofNat 0x1F).toNat < 0x21) := by decide

theorem witness_b85_invalid_error :
    let s := startedWith { defaultParams with b85Overflow := .error } .b85dec [] ['!', '!', '!', '!', '!', 'u', 'u', '~']
    s.Ready .dec ∧ Closed.b85Slots ['!', '!', '!', '!', '!', 'u', 'u'] = some 2 ∧
      Closed.b85Groups (Closed.b85Strip ['!', '!', '!', '!', '!', 'u', 'u']) = some [['!', '!', '!', '!', '!'], ['u', 'u']] ∧
      Closed.b85GroupOverflows ['!', '!', '!', '!', '!'] = false := by decide

/-- Base85GroupValueAndOverflow: 2^32 - 1 and 2^32 (V189, V190), under both parameters. -/
theorem witness_b85_overflow :
    let lo := [b85Symbol 82, b85Symbol 23, b85Symbol 54, b85Symbol 12, b85Symbol 0]
    let hi := [b85Symbol 82, b85Symbol 23, b85Symbol 54, b85Symbol 12, b85Symbol 1]
    82 * 85 ^ 4 + 23 * 85 ^ 3 + 54 * 85 ^ 2 + 12 * 85 + 0 = 2 ^ 32 - 1 ∧
    82 * 85 ^ 4 + 23 * 85 ^ 3 + 54 * 85 ^ 2 + 12 * 85 + 1 = 2 ^ 32 ∧
    (started .b85dec [] lo).Ready .dec ∧ (started .b85dec [] hi).Ready .dec ∧
    (startedWith { defaultParams with b85Overflow := .error } .b85dec [] hi).Ready .dec ∧
    (startedWith { defaultParams with b85Overflow := .error } .b85dec [] hi).params.b85Overflow = .error := by decide

/-- Base85GroupValueAndOverflow under `error`: a second group that overflows (`s8W-"` of rule R107) before more text, a partial group of two symbols, and a single symbol, each with ignored units. -/
theorem witness_b85_error_clauses :
    let p : Params := { defaultParams with b85Overflow := .error }
    let s := startedWith p .b85dec [] ['z', 's', '8', ' ', 'W', '-', '"', '!']
    let u := startedWith p .b85dec [] ['z', 'u', 'u', ' ']
    let w := startedWith p .b85dec [] ['z', 'u', ' ']
    (s.Ready .dec ∧ s.input.text = ['z', 's', '8', ' ', 'W', '-'] ++ '"' :: ['!'] ∧ '"' ∉ b85Ignore ∧
      Closed.b85Groups (Closed.b85Strip (['z', 's', '8', ' ', 'W', '-'] ++ ['"'])) = some ([['z']] ++ [['s', '8', 'W', '-', '"']]) ∧
      Closed.b85GroupOverflows ['z'] = false ∧ Closed.b85GroupOverflows ['s', '8', 'W', '-', '"'] = true) ∧
    (u.Ready .dec ∧ u.input.text = ['z', 'u'] ++ 'u' :: [' '] ∧
      Closed.b85Groups (Closed.b85Strip (['z', 'u'] ++ ['u'])) = some ([['z']] ++ [['u', 'u']]) ∧
      Closed.b85GroupOverflows ['u', 'u'] = true ∧ ' ' ∈ b85Ignore) ∧
    (w.Ready .dec ∧ w.input.text = ['z'] ++ 'u' :: [' '] ∧
      Closed.b85Groups (Closed.b85Strip (['z'] ++ ['u'])) = some ([['z']] ++ [['u']])) := by decide

/-- Base85RoundTrip. -/
theorem witness_b85_round_trip :
    ∃ t, exec .b85enc (started .b85enc [0xFF] []) = .next t ∧ (started .b85enc [0xFF] []).Ready .enc ∧
      (started .b85dec [] ['r', 'r']).Ready .dec ∧ (started .b85dec [] ['r', 'r']).input.text = t.out.text :=
  ⟨_, rfl, by decide, by decide, by decide⟩

/-- Base58DecodesTheNumeral: "112", and that B58_TRIM = outer with the spec's blanks meets it too. -/
theorem witness_b58_numeral :
    let s := started .b58dec [] ['1', '1', '2']
    s.Ready .dec ∧ s.params.b58Trim = .noTrim ∧ isBlankText s.params s.input.text = false ∧
      s.input.text = [0, 0, 1].map b58Symbol ∧ ({ defaultParams with b58Trim := .outer } : Params).blanksApart = true := by decide

/-- Base58RejectsTheFirstInvalidUnit: "2O" (V8b). -/
theorem witness_b58_invalid :
    let s := started .b58dec [] ['2', 'O']
    s.Ready .dec ∧ s.params.b58Trim = .noTrim ∧ isBlankText s.params s.input.text = false ∧
      s.input.text = ['2'] ++ 'O' :: [] ∧ (∀ d ∈ ['2'], d ∈ b58Alpha) ∧ 'O' ∉ b58Alpha :=
  ⟨by decide, rfl, by decide, rfl, fun d hd => by fin_cases hd; decide, by decide⟩

/-- Base58OuterBlanks: " 2" under each value of B58_TRIM, and "2 " without trimming; " 2 O2 " under `outer`, an inner blank being the first invalid unit. -/
theorem witness_b58_blanks :
    let q : Params := { defaultParams with b58Trim := .outer }
    ((startedWith q .b58dec [] [' ', '2']).Ready .dec ∧ (startedWith q .b58dec [] ['2']).Ready .dec ∧
      q.blanksApart = true ∧ [' ', '2'] = [' '] ++ ['2'] ++ [] ∧ '2' ∈ b58Alpha ∧ ' ' ∈ q.blankSet) ∧
    ((started .b58dec [] ['2', ' ']).Ready .dec ∧ (started .b58dec [] ['2', ' ']).params.b58Trim = .noTrim ∧
      ['2', ' '] = [] ++ ['2'] ++ [' ']) ∧
    ((started .b58dec [] [' ', '2']).Ready .dec ∧ (started .b58dec [] ['2']).Ready .dec ∧
      (started .b58dec [] [' ', '2']).params.b58Trim = .noTrim ∧ defaultParams.blanksApart = true ∧
      [' ', '2'] = [' '] ++ ['2'] ++ []) := by decide

theorem witness_b58_outer_error :
    let s := startedWith { defaultParams with b58Trim := .outer } .b58dec [] [' ', '2', ' ', 'O', '2', ' ']
    s.Ready .dec ∧ s.input.text = [' '] ++ (['2'] ++ ' ' :: ['O', '2']) ++ [' '] ∧ ' ' ∈ s.params.blankSet ∧
      '2' ∉ s.params.blankSet ∧ '2' ∈ b58Alpha ∧ ' ' ∉ b58Alpha := by decide

/-- Base58RoundTrip. -/
theorem witness_b58_round_trip :
    ∃ t, exec .b58enc (started .b58enc [0, 0xFF] []) = .next t ∧ (started .b58enc [0, 0xFF] []).Ready .enc ∧
      (started .b58dec [] ['1', '5', 'Q']).Ready .dec ∧ (started .b58dec [] ['1', '5', 'Q']).params.blanksApart = true ∧
      (started .b58dec [] ['1', '5', 'Q']).input.text = t.out.text :=
  ⟨_, rfl, by decide, by decide, by decide, by decide⟩

/-- Base58TextsAreCanonical. -/
theorem witness_b58_canonical :
    ∃ t, exec .b58dec (started .b58dec [] ['1', '2']) = .next t ∧ (started .b58dec [] ['1', '2']).Ready .dec ∧
      (started .b58dec [] ['1', '2']).params.blanksApart = true ∧ (∀ c ∈ ['1', '2'], c ∈ b58Alpha) ∧
      (started .b58enc [0, 1] []).Ready .enc ∧ (started .b58enc [0, 1] []).input.bytes = t.out.bytes :=
  ⟨_, rfl, by decide, by decide, fun c hc => by fin_cases hc <;> decide, by decide, by decide⟩

/-- BlankTextsDecodeToNothing: one text for each of its three clauses. -/
theorem witness_blank :
    ((started .b32dec [] [' ', '-']).Ready .dec ∧ ∀ c ∈ [' ', '-'], c ∈ b32Ignore) ∧
    ((started .b85dec [] [' ', '\t']).Ready .dec ∧ ∀ c ∈ [' ', '\t'], c ∈ b85Ignore) ∧
    ((started .b58dec [] [' ', '\n']).Ready .dec ∧ ∀ c ∈ [' ', '\n'], c ∈ defaultParams.blankSet) :=
  ⟨⟨by decide, fun c hc => by fin_cases hc <;> decide⟩, ⟨by decide, fun c hc => by fin_cases hc <;> decide⟩,
    ⟨by decide, fun c hc => by fin_cases hc <;> decide⟩⟩

/-- Base122DecodesWellFormedText: V249. -/
theorem witness_b122_well_formed :
    let s := started .b122dec [] [Char.ofNat 0x01, Char.ofNat 0x780]
    s.Ready .dec ∧ b122WellFormedText s.params s.input.text = true := by decide

/-- Base122MalformedTextLeavesOutFree: V255 (an index with no entry) and V262 (pad bits). -/
theorem witness_b122_malformed :
    let s := started .b122dec [] [Char.ofNat 0x680]
    let u := started .b122dec [] [Char.ofNat 0x01, Char.ofNat 0x781]
    (s.Ready .dec ∧ b122WellFormedText s.params s.input.text = false) ∧
    (u.Ready .dec ∧ b122WellFormedText u.params u.input.text = false) := by decide

/-- Base122WellFormedIsTheEncodersImage: the spec's marker, and the other free index. -/
theorem witness_marker : defaultParams.markerFree = true ∧ ({ defaultParams with b122Short := 6 } : Params).markerFree = true := by decide

/-- Base122RoundTrip: V236 and V251. -/
theorem witness_b122_round_trip :
    ∃ t, exec .b122enc (started .b122enc [0, 0] []) = .next t ∧ (started .b122enc [0, 0] []).Ready .enc ∧
      (started .b122dec [] [Char.ofNat 0x80, Char.ofNat 0x780]).Ready .dec ∧
      (started .b122enc [0, 0] []).params.markerFree = true ∧
      (started .b122dec [] [Char.ofNat 0x80, Char.ofNat 0x780]).input.text = t.out.text :=
  ⟨_, rfl, by decide, by decide, by decide, by decide⟩

/-- EncodersStayInTheirAlphabets and the eight frames: each operation answers a next state from a ready state. -/
theorem witness_next_enc :
    (∃ t, exec .b32enc (started .b32enc [0x48] []) = .next t) ∧ (∃ t, exec .b85enc (started .b85enc [0x48] []) = .next t) ∧
    (∃ t, exec .b58enc (started .b58enc [0x48] []) = .next t) ∧ (∃ t, exec .b122enc (started .b122enc [0x48] []) = .next t) :=
  ⟨⟨_, rfl⟩, ⟨_, rfl⟩, ⟨_, rfl⟩, ⟨_, rfl⟩⟩

theorem witness_next_dec :
    (∃ t, exec .b32dec (started .b32dec [] ['2', '2']) = .next t) ∧ (∃ t, exec .b85dec (started .b85dec [] ['2', '2']) = .next t) ∧
    (∃ t, exec .b58dec (started .b58dec [] ['2', '2']) = .next t) ∧ (∃ t, exec .b122dec (started .b122dec [] ['2', '2']) = .next t) :=
  ⟨⟨_, rfl⟩, ⟨_, rfl⟩, ⟨_, rfl⟩, ⟨_, rfl⟩⟩

/-- EveryStepKeepsTheInvariant: a BUSY state of a bounded block right after START meets every clause, and its step answers a next state. -/
theorem witness_invariant :
    let s := startedWith { defaultParams with maxInLen := some 2 } .b32dec [] ['A', '#']
    s.Inv ∧ ∃ t, step s = .next t := by
  refine ⟨?_, _, rfl⟩
  constructor <;> try decide
  · constructor <;> decide
  · intro n hn
    cases hn
    constructor <;> try decide
    intro i _; cases i <;> decide

/-- NoStateCarriesBetweenTransactions: a block after reset and one after an error, with the same START, and a malformed B122DEC text beside it. -/
theorem witness_no_carry :
    let r : Request := { cmd := 7, input := { bytes := [], text := [Char.ofNat 0x01, Char.ofNat 0x780] } }
    let s := { State.reset with host := [.start r] }
    let u := { State.reset.terminate .invalidEncoding 3 with host := [.start r] }
    s.phase ≠ .busy ∧ u.phase ≠ .busy ∧ u.params = s.params ∧ s.host = [.start r] ∧ u.host = [.start r] ∧
      decode r.cmd = .command .b122dec ∧ b122WellFormedText s.params r.input.text = true := by decide

end Sys2Proof.Tests
end

section
/-! PROOFS of the scope family: who writes STATE, OP, IN and the parameters (O11), what the host reads (O19), and the contents of the constant tables (O60).
Each part gives the lemmas about the functions of the model it speaks of, and then the theorem that settles its statement. -/

namespace Sys2Proof.Machine

/-! ### What a running operation never writes -/

/-- The state t still holds the command, the input, the parameters and the host's moves of s: what an operation reads and never writes (rules R19, R23, R38). -/
structure KeepsCommand (s t : State) : Prop where
  op : t.op = s.op
  input : t.input = s.input
  params : t.params = s.params
  host : t.host = s.host

theorem KeepsCommand.trans {s t u : State} (h1 : KeepsCommand s t) (h2 : KeepsCommand t u) : KeepsCommand s u :=
  ⟨h2.op.trans h1.op, h2.input.trans h1.input, h2.params.trans h1.params, h2.host.trans h1.host⟩

theorem CursorFrame.keepsCommand {s t : State} (h : CursorFrame s t) : KeepsCommand s t := by
  rw [h]; exact ⟨rfl, rfl, rfl, rfl⟩

theorem AccFrame.keepsCommand {s t : State} (h : AccFrame s t) : KeepsCommand s t := by
  rw [h]; exact ⟨rfl, rfl, rfl, rfl⟩

theorem GroupFrame.keepsCommand {s t : State} (h : GroupFrame s t) : KeepsCommand s t := by
  rw [h]; exact ⟨rfl, rfl, rfl, rfl⟩

theorem BigFrame.keepsCommand {s t : State} (h : BigFrame s t) : KeepsCommand s t := by
  rw [h]; exact ⟨rfl, rfl, rfl, rfl⟩

theorem b85EncBody_keepsCommand (s : State) : KeepsCommand s (b85EncBody s).state := by
  rw [b85EncBody, OpResult.state_returns, b85EncLoop_frame]; exact ⟨rfl, rfl, rfl, rfl⟩

theorem b58EncBody_keepsCommand (s : State) : KeepsCommand s (b58EncBody s).state := by
  unfold b58EncBody
  split
  · exact ⟨rfl, rfl, rfl, rfl⟩
  · rw [OpResult.state_returns, b58EncEmit, b58DigitLoop_frame]; exact ⟨rfl, rfl, rfl, rfl⟩

/-- B122ENC sets or clears PEND beside the cursor and OUT (rule R125), and no more. -/
theorem b122EncBody_keepsCommand (s : State) : KeepsCommand s (b122EncBody s).state := by
  rcases b122EncLoop_frame s.groupFuel s with h | h
  · exact h.keepsCommand
  · obtain ⟨hop, hin, hparams, hhost⟩ := h.keepsCommand
    exact ⟨hop, hin, hparams, hhost⟩

theorem b122DecSettle_keepsCommand (s : State) : KeepsCommand s (b122DecSettle s) := by
  unfold b122DecSettle; split <;> exact ⟨rfl, rfl, rfl, rfl⟩

theorem b122DecBody_keepsCommand (s : State) : KeepsCommand s (b122DecBody s).state := by
  obtain ⟨t, ht, hf⟩ := forUnits_b122DecUnit_frame s.input.text s
  rw [b122DecBody, ht]
  exact hf.keepsCommand.trans (b122DecSettle_keepsCommand t)

/-- Whichever way an operation ends, it has not written its command, its input or the parameters. -/
theorem bodyOf_keepsCommand (i : Instr) (s : State) : KeepsCommand s (bodyOf i s).state := by
  cases i with
  | b32enc => exact (b32EncLoop_frame s.groupFuel s).keepsCommand
  | b32dec => exact (b32DecBody_frame s).1.keepsCommand
  | b85enc => exact b85EncBody_keepsCommand s
  | b85dec => exact (b85DecBody_frame s).keepsCommand
  | b58enc => exact b58EncBody_keepsCommand s
  | b58dec => exact (b58DecBody_frame s).keepsCommand
  | b122enc => exact b122EncBody_keepsCommand s
  | b122dec => exact b122DecBody_keepsCommand s

theorem KeepsCommand.complete (s : State) : KeepsCommand s s.complete := ⟨rfl, rfl, rfl, rfl⟩

theorem KeepsCommand.terminate (s : State) (code : Code) (index : Nat) : KeepsCommand s (s.terminate code index) :=
  ⟨rfl, rfl, rfl, rfl⟩

/-- A transaction whose body keeps the command ends DONE and keeps it (rules R146, R162). -/
theorem transact_done_keepsCommand {dir : Dir} {body : State → OpResult} {s t : State}
    (hbody : KeepsCommand s (body s).state) (h : transact dir body s = .next t) :
    t.phase = .done ∧ KeepsCommand s t := by
  rcases transact_cases h with ⟨-, rfl⟩ | ⟨-, ⟨s', hb, rfl⟩ | ⟨i, s', hb, rfl⟩⟩
  · exact ⟨rfl, .terminate s _ _⟩
  · rw [hb] at hbody; exact ⟨rfl, hbody.trans (.complete s')⟩
  · rw [hb] at hbody; exact ⟨rfl, hbody.trans (.terminate s' _ _)⟩

/-- The completion of any command, reserved or not, ends DONE and keeps OP, IN and the parameters (rules R18, R19, R23). -/
theorem finishTransaction_done_keepsCommand {s t : State} (h : finishTransaction s = .next t) :
    t.phase = .done ∧ KeepsCommand s t := by
  rcases finishTransaction_cases h with ⟨op, -, rfl⟩ | ⟨i, -, hi⟩
  · exact ⟨rfl, .terminate s _ _⟩
  · exact transact_done_keepsCommand (bodyOf_keepsCommand i s) hi

/-! ### A move of the host -/

/-- A passed move leaves every register alone; `host` is the only field it writes (rule R170). -/
theorem passMove_sameRegisters (s : State) : s.SameRegisters s.passMove := by
  rw [passMove_eq]; exact ⟨rfl, rfl, rfl, rfl, rfl, rfl, rfl, rfl⟩

/-- A START presented to a block that is not BUSY is accepted (rules R160, R161). -/
theorem idleStep_of_start {s : State} {r : Request} (h : s.host.head? = some (.start r)) :
    s.idleStep = { s with host := s.host.tail }.acceptStart r := by
  obtain ⟨rest, hrest⟩ := List.head?_eq_some_iff.1 h
  simp [State.idleStep, hrest]

/-- Without a START the move is passed (rule R170). -/
theorem idleStep_of_no_start {s : State} (h : ∀ r, s.host.head? ≠ some (.start r)) : s.idleStep = s.passMove := by
  unfold State.idleStep
  split
  · rename_i r rest hhost; exact absurd (by rw [hhost]; rfl) (h r)
  · rfl

/-- A step in IDLE or DONE keeps the parameters, whether it accepts a START or not. -/
theorem idleStep_params (s : State) : s.idleStep.params = s.params := by
  by_cases h : ∃ r, s.host.head? = some (.start r)
  · obtain ⟨r, hr⟩ := h
    rw [idleStep_of_start hr]; rfl
  · obtain ⟨-, -, -, -, -, -, -, hparams⟩ := passMove_sameRegisters s
    rw [idleStep_of_no_start (not_exists.1 h), hparams]

/-- A step of a BUSY block without reset ends DONE with OP, IN and the parameters it had (rules R18, R19, R23). -/
theorem step_of_busy_keeps {s t : State} (hr : s.host.head? ≠ some .reset) (hb : s.phase = .busy)
    (h : step s = .next t) : t.phase = .done ∧ t.op = s.op ∧ t.input = s.input ∧ t.params = s.params := by
  rw [step_of_busy hr hb] at h
  obtain ⟨hdone, hkeep⟩ := finishTransaction_done_keepsCommand h
  obtain ⟨-, hop, -, -, hinput, -, -, hparams⟩ := passMove_sameRegisters s
  exact ⟨hdone, hkeep.op.trans hop, hkeep.input.trans hinput, hkeep.params.trans hparams⟩

/-- No step writes the parameters (rule R7). -/
theorem step_params {s t : State} (h : step s = .next t) : t.params = s.params := by
  rcases step_cases h with ⟨-, rfl⟩ | ⟨hr, hb, -⟩ | ⟨-, -, rfl⟩
  · rfl
  · obtain ⟨-, -, -, hparams⟩ := step_of_busy_keeps hr hb h
    exact hparams
  · exact idleStep_params s

/-- Settles O11: the parameters by `step_params`, and STATE, OP and IN case by case along BUSY, a passed move and a START. -/
theorem onlyStartResetAndCompletionWriteStateOpAndIn :
    Obligations.OnlyStartResetAndCompletionWriteStateOpAndIn := by
  intro s t h
  refine ⟨step_params h, fun hr hb => ?busy, fun hr hb hs => ?passed, fun r hb hs => ?start⟩
  case busy =>
    obtain ⟨hdone, hop, hinput, -⟩ := step_of_busy_keeps hr hb h
    exact ⟨hdone, hop, hinput⟩
  case passed =>
    rw [step_of_not_busy hr hb, idleStep_of_no_start hs] at h
    cases h
    obtain ⟨hphase, hop, -, -, hinput, -⟩ := passMove_sameRegisters s
    exact ⟨hphase, hop, hinput⟩
  case start =>
    have hr : s.host.head? ≠ some .reset := by simp [hs]
    rw [step_of_not_busy hr hb, idleStep_of_start hs] at h
    cases h
    exact ⟨rfl, rfl⟩

/-! ### What the host reads -/

@[simp] theorem packStatus_phase (code : BitVec 3) (phase : BitVec 2) :
    (packStatus code phase).extractLsb' 0 2 = phase := by
  revert code phase; decide

@[simp] theorem packStatus_code (code : BitVec 3) (phase : BitVec 2) :
    (packStatus code phase).extractLsb' 2 3 = code := by
  revert code phase; decide

@[simp] theorem packStatus_reserved (code : BitVec 3) (phase : BitVec 2) :
    (packStatus code phase).extractLsb' 5 3 = 0#3 := by
  revert code phase; decide

theorem readStatus_of_busy {s : State} (h : s.phase = .busy) (n : Nat) :
    s.readStatus n = packStatus (Config.freeCode n) 1#2 := by
  rw [State.readStatus, if_pos h, h]; rfl

theorem readStatus_of_not_busy {s : State} (h : s.phase ≠ .busy) (n : Nat) : s.readStatus n = s.statusWord :=
  if_neg h

theorem readErrIndex_of_busy {s : State} (h : s.phase = .busy) (n : Nat) :
    s.readErrIndex n = Params.fitIndex s.params (Config.freeIndex n) :=
  if_pos h

theorem readErrIndex_of_not_busy {s : State} (h : s.phase ≠ .busy) (n : Nat) : s.readErrIndex n = s.errIndex :=
  if_neg h

/-- An unbounded block cuts no index (rule R7). -/
theorem fitIndex_of_unbounded {p : Params} (h : p.maxInLen = none) (i : Nat) : Params.fitIndex p i = i := by
  simp [Params.fitIndex, Params.idxWidth, h]

/-- A block bounded by m holds an index in `ceil(log2(m + 1))` bits (rule R7). -/
theorem fitIndex_of_bounded {p : Params} {m : Nat} (h : p.maxInLen = some m) (i : Nat) :
    Params.fitIndex p i = i % 2 ^ Nat.clog 2 (m + 1) := by
  simp [Params.fitIndex, Params.idxWidth, indexWidth, h]

/-- Settles O19: STATUS and ERR_INDEX by whether the block is BUSY, and OUT by whether it is DONE with OK. -/
theorem hostReadsTheRegistersAtDone : Obligations.HostReadsTheRegistersAtDone := by
  intro s n
  refine ⟨fun h => ⟨readStatus_of_not_busy h n, readErrIndex_of_not_busy h n⟩, fun h => ?busy, rfl,
    fun h => if_pos h, fun h => if_neg h⟩
  case busy =>
    rw [readStatus_of_busy h, readErrIndex_of_busy h]
    exact ⟨packStatus_phase _ _, packStatus_code _ _, packStatus_reserved _ _,
      fun hm => fitIndex_of_unbounded hm _, fun m hm => fitIndex_of_bounded hm _⟩

/-! ### The constant tables -/

theorem b32Alpha_getElem? (v : BitVec 5) : b32Alpha[v.toNat]? = some (b32Symbol v) :=
  List.getElem?_eq_getElem v.isLt

theorem b58Alpha_getElem? (d : Fin 58) : b58Alpha[d.val]? = some (b58Symbol d) :=
  List.getElem?_eq_getElem d.isLt

/-- Outside the alphabet and the three aliases nothing resolves (rule R64). -/
theorem b32Rev_eq_none {c : CodePoint} (halpha : c ∉ b32Alpha) (halias : c ∉ ['O', 'I', 'L']) : b32Rev c = none := by
  have hidx : b32Alpha.idxOf? c = none := List.idxOf?_eq_none_iff.2 halpha
  simp only [List.mem_cons, List.not_mem_nil, or_false, not_or] at halias
  obtain ⟨hO, hI, hL⟩ := halias
  simp [b32Rev, b32AliasValue, hidx, hO, hI, hL]

/-- Outside the alphabet nothing resolves (rule R68). -/
theorem b58Rev_eq_none {c : CodePoint} (h : c ∉ b58Alpha) : b58Rev c = none :=
  List.idxOf?_eq_none_iff.2 h

/-- Rule R88: `a` to `z` fold down by 0x20, whichever folding. -/
theorem foldCase_toNat_of_lower (m : B32Fold) {c : CodePoint} (hlo : 0x61 ≤ c.toNat) (hhi : c.toNat ≤ 0x7A) :
    (foldCase m c).toNat = c.toNat - 0x20 := by
  unfold foldCase
  rw [if_pos ⟨hlo, hhi⟩]
  exact codePoint_toNat _ (by omega)

/-- Rule R88: `ascii` folds nothing but `a` to `z`. -/
theorem foldCase_ascii_of_not_lower {c : CodePoint} (h : ¬ (0x61 ≤ c.toNat ∧ c.toNat ≤ 0x7A)) : foldCase .ascii c = c := by
  unfold foldCase
  exact if_neg h

/-- Rule R88: `java_char` folds two code points more, and no other (log 12). -/
theorem foldCase_javaChar_of_not_lower {c : CodePoint} (h : ¬ (0x61 ≤ c.toNat ∧ c.toNat ≤ 0x7A))
    (hi : c.toNat ≠ 0x131) (hs : c.toNat ≠ 0x17F) : foldCase .javaChar c = c := by
  have hi' : c ≠ Char.ofNat 0x131 := fun hc => hi (by rw [hc]; exact codePoint_toNat _ (by decide))
  have hs' : c ≠ Char.ofNat 0x17F := fun hc => hs (by rw [hc]; exact codePoint_toNat _ (by decide))
  unfold foldCase
  rw [if_neg h]
  simp [hi', hs']

/-- Settles O60: the literal tables by evaluation, the maps over them by their lemmas. -/
theorem constantTablesHoldTheirContents : Obligations.ConstantTablesHoldTheirContents :=
  ⟨by decide,
    fun v => ⟨b32Alpha_getElem? v, b32Rev_b32Symbol v⟩,
    by decide,
    fun _ halpha halias => b32Rev_eq_none halpha halias,
    by decide,
    fun m _ hlo hhi => foldCase_toNat_of_lower m hlo hhi,
    fun _ h => ⟨foldCase_ascii_of_not_lower h, foldCase_javaChar_of_not_lower h⟩,
    by decide,
    b85Symbol_toNat,
    by decide,
    by decide,
    by decide,
    fun d => ⟨b58Alpha_getElem? d, b58Rev_b58Symbol d⟩,
    fun _ h => b58Rev_eq_none h,
    by decide,
    by decide,
    by decide⟩

end Sys2Proof.Machine
end

section
/-! PROOFS of the state family: START, reset, STATUS and the frames of the eight operations (O4, O7, O18, O49 to O56).
Each part gives the lemmas about the functions of the model it speaks of, and then the theorems that settle its statements. -/

namespace Sys2Proof.Machine

/-! ### START, reset and STATUS -/

/-- Settles O4: the step is `acceptStart`, whose fields are the statement's. -/
theorem startIsLatchedWhenNotBusy : Obligations.StartIsLatchedWhenNotBusy := by
  intro s cmd input rest hb hhost
  have hstart : s.host.head? = some (.start { cmd := cmd, input := input }) := by rw [hhost]; rfl
  have hr : s.host.head? ≠ some .reset := by simp [hstart]
  rw [step_of_not_busy hr hb, idleStep_of_start hstart, hhost]
  rfl

/-- Settles O7: each register by its definition. -/
theorem resetValuesOfEveryRegister : Obligations.ResetValuesOfEveryRegister :=
  ⟨rfl, rfl, rfl, rfl, rfl, rfl, rfl, rfl, rfl, rfl, rfl, rfl, rfl, rfl, rfl, rfl, rfl, rfl, rfl⟩

/-- A move that leaves the block alone is used up, and the block completes what runs or keeps everything (rules R22, R49, R170). -/
theorem step_of_passive {e : HostEvent} (he : e.isPassive = true) (s : State) (rest : List HostEvent) :
    step { s with host := e :: rest } =
      if s.phase = .busy then finishTransaction { s with host := rest } else .next { s with host := rest } := by
  cases e with
  | start _ | reset => cases he
  | read _ | writeStatus _ | wait => rfl

/-- Settles O18: the fields are read back from `packStatus`. -/
theorem statusWordHoldsStateAndCode : Obligations.StatusWordHoldsStateAndCode := by
  refine ⟨fun s => ⟨?phase, ?code, packStatus_reserved _ _⟩, rfl, fun s v rest => ?write⟩
  case phase => rw [State.statusWord, packStatus_phase]; cases s.phase <;> rfl
  case code => rw [State.statusWord, packStatus_code]; cases s.code <;> rfl
  case write => rw [step_of_passive rfl, step_of_passive rfl]

/-! ### What an operation leaves unchanged -/

/-- An operation that completes with OK was within MAX_IN_LEN, and its body returned (rules R145 to R147). -/
theorem exec_ok {i : Instr} {s t : State} (h : exec i s = .next t) (hok : t.code = .ok) :
    ∃ u, bodyOf i s = .returns u ∧ t = u.complete := by
  rw [exec_eq_transact] at h
  rcases transact_cases h with ⟨-, rfl⟩ | ⟨-, ⟨u, hu, rfl⟩ | ⟨j, u, -, rfl⟩⟩
  · cases hok
  · exact ⟨u, hu, rfl⟩
  · cases hok

/-- With OK the whole of OUT, the working registers and the draws are what the body left. -/
theorem exec_ok_state {i : Instr} {s t : State} (h : exec i s = .next t) (hok : t.code = .ok) :
    t = (bodyOf i s).state.complete := by
  obtain ⟨u, hu, rfl⟩ := exec_ok h hok
  rw [hu, OpResult.state_returns]

/-- The working registers after an operation are those its body left, or, when the input exceeds MAX_IN_LEN, those before (rules R145, R146). -/
theorem exec_work {i : Instr} {s t : State} (h : exec i s = .next t) :
    t.work = s.work ∨ t.work = (bodyOf i s).state.work := by
  rw [exec_eq_transact] at h
  rcases transact_cases h with ⟨-, rfl⟩ | ⟨-, ⟨u, hu, rfl⟩ | ⟨j, u, hu, rfl⟩⟩
  · exact .inl rfl
  · rw [hu]; exact .inr rfl
  · rw [hu]; exact .inr rfl

/-- The frame of an operation from that of its body: `m w w'` is `w` with the registers the operation may use taken from `w'`. -/
theorem exec_frame {m : Work → Work → Work} (hm : ∀ w, w = m w w) {i : Instr} {s t : State}
    (hbody : (bodyOf i s).state.work = m s.work (bodyOf i s).state.work) (h : exec i s = .next t) :
    t = { s with
      phase := t.phase, code := t.code, errIndex := t.errIndex, out := t.out, draws := t.draws
      work := m s.work t.work } := by
  have hwork : t.work = m s.work t.work := by
    rcases exec_work h with hw | hw <;> rw [hw]
    · exact hm s.work
    · exact hbody
  rw [exec_eq_transact] at h
  obtain ⟨-, hop, hinput, hparams, hhost⟩ := transact_done_keepsCommand (bodyOf_keepsCommand i s) h
  cases t
  cases hop; cases hinput; cases hparams; cases hhost
  exact congrArg (State.mk _ _ _ _ _ _ · _ _ _) hwork

/-- B122DEC's settling writes OUT's bytes and the draws alone (rule R136). -/
theorem b122DecSettle_frame (s : State) : AccFrame s (b122DecSettle s) := by
  unfold b122DecSettle; split
  · rfl
  · rfl

theorem bodyOf_b32enc_frame (s : State) : CursorFrame s (bodyOf .b32enc s).state :=
  b32EncLoop_frame s.groupFuel s

theorem bodyOf_b32dec_frame (s : State) : AccFrame s (bodyOf .b32dec s).state :=
  (b32DecBody_frame s).1

theorem bodyOf_b85enc_frame (s : State) :
    (bodyOf .b85enc s).state = { s with
      out := { s.out with text := (bodyOf .b85enc s).state.out.text }
      work := { s.work with
        chunk := (bodyOf .b85enc s).state.work.chunk, chunkCnt := (bodyOf .b85enc s).state.work.chunkCnt } } :=
  b85EncLoop_frame s.input.bytes s

theorem bodyOf_b85dec_frame (s : State) : GroupFrame s (bodyOf .b85dec s).state :=
  b85DecBody_frame s

/-- B58ENC changes ZCOUNT and BIG beside OUT's text (rules R112 to R116). -/
theorem bodyOf_b58enc_frame (s : State) :
    (bodyOf .b58enc s).state = { s with
      out := { s.out with text := (bodyOf .b58enc s).state.out.text }
      work := { s.work with
        big := (bodyOf .b58enc s).state.work.big, zcount := (bodyOf .b58enc s).state.work.zcount } } := by
  simp only [bodyOf, b58EncBody]
  split
  · rfl
  · rw [OpResult.state_returns, b58EncEmit, b58DigitLoop_frame]; rfl

theorem bodyOf_b58dec_frame (s : State) : BigFrame s (bodyOf .b58dec s).state :=
  b58DecBody_frame s

/-- B122ENC changes the cursor and PEND beside OUT's text (rule R125). -/
theorem bodyOf_b122enc_frame (s : State) :
    (bodyOf .b122enc s).state = { s with
      out := { s.out with text := (bodyOf .b122enc s).state.out.text }
      work := { s.work with
        curByte := (bodyOf .b122enc s).state.work.curByte
        curBit := (bodyOf .b122enc s).state.work.curBit
        pend := (bodyOf .b122enc s).state.work.pend } } := by
  rw [bodyOf, b122EncBody, OpResult.state_returns]
  rcases b122EncLoop_frame s.groupFuel s with h | h
  · rw [h]
  · rw [h]; rfl

theorem bodyOf_b122dec_frame (s : State) : AccFrame s (bodyOf .b122dec s).state := by
  obtain ⟨t, ht, hf⟩ := forUnits_b122DecUnit_frame s.input.text s
  rw [bodyOf, b122DecBody, ht]
  exact hf.trans (b122DecSettle_frame t)

/-- No encoder writes the byte lane of OUT, or draws a free value. -/
theorem encoder_keeps_bytes_draws {i : Instr} (hi : i.dir = .enc) (s : State) :
    (bodyOf i s).state.out.bytes = s.out.bytes ∧ (bodyOf i s).state.draws = s.draws := by
  cases i with
  | b32enc => rw [bodyOf_b32enc_frame s]; exact ⟨rfl, rfl⟩
  | b85enc => rw [bodyOf_b85enc_frame s]; exact ⟨rfl, rfl⟩
  | b58enc => rw [bodyOf_b58enc_frame s]; exact ⟨rfl, rfl⟩
  | b122enc => rw [bodyOf_b122enc_frame s]; exact ⟨rfl, rfl⟩
  | b32dec | b85dec | b58dec | b122dec => cases hi

/-- No decoder writes the text lane of OUT. -/
theorem decoder_keeps_text {i : Instr} (hi : i.dir = .dec) (s : State) :
    (bodyOf i s).state.out.text = s.out.text := by
  cases i with
  | b32dec => rw [bodyOf_b32dec_frame s]
  | b85dec => rw [bodyOf_b85dec_frame s]
  | b58dec => rw [bodyOf_b58dec_frame s]
  | b122dec => rw [bodyOf_b122dec_frame s]
  | b32enc | b85enc | b58enc | b122enc => cases hi

/-- Settles O49, by the frame of B32ENC's loop. -/
theorem base32EncoderFrame : Obligations.Base32EncoderFrame := by
  intro s t h
  refine ⟨exec_frame (m := fun w w' => { w with curByte := w'.curByte, curBit := w'.curBit })
    (fun _ => rfl) ?_ h, fun hok => ?_⟩
  · rw [bodyOf_b32enc_frame s]
  · rw [exec_ok_state h hok]; exact encoder_keeps_bytes_draws rfl s

/-- Settles O50, by the frame of B32DEC's walk. -/
theorem base32DecoderFrame : Obligations.Base32DecoderFrame := by
  intro s t h
  refine ⟨exec_frame (m := fun w w' => { w with pos := w'.pos, acc := w'.acc, accCnt := w'.accCnt })
    (fun _ => rfl) ?_ h, fun hok => ?_⟩
  · rw [bodyOf_b32dec_frame s]
  · rw [exec_ok_state h hok]; exact ⟨decoder_keeps_text rfl s, (b32DecBody_frame s).2⟩

/-- Settles O51, by the frame of B85ENC's loop. -/
theorem base85EncoderFrame : Obligations.Base85EncoderFrame := by
  intro s t h
  refine ⟨exec_frame (m := fun w w' => { w with chunk := w'.chunk, chunkCnt := w'.chunkCnt })
    (fun _ => rfl) ?_ h, fun hok => ?_⟩
  · rw [bodyOf_b85enc_frame s]
  · rw [exec_ok_state h hok]; exact encoder_keeps_bytes_draws rfl s

/-- Settles O52, by the frame of B85DEC's walk and its tail. -/
theorem base85DecoderFrame : Obligations.Base85DecoderFrame := by
  intro s t h
  refine ⟨exec_frame (m := fun w w' => { w with pos := w'.pos, b85Buf := w'.b85Buf, b85Cnt := w'.b85Cnt })
    (fun _ => rfl) ?_ h, fun hok => ?_⟩
  · rw [bodyOf_b85dec_frame s]
  · rw [exec_ok_state h hok]
    exact ⟨decoder_keeps_text rfl s, by rw [bodyOf_b85dec_frame s]; rfl⟩

/-- Settles O53, by the frame of B58ENC's body. -/
theorem base58EncoderFrame : Obligations.Base58EncoderFrame := by
  intro s t h
  refine ⟨exec_frame (m := fun w w' => { w with big := w'.big, zcount := w'.zcount })
    (fun _ => rfl) ?_ h, fun hok => ?_⟩
  · rw [bodyOf_b58enc_frame s]
  · rw [exec_ok_state h hok]; exact encoder_keeps_bytes_draws rfl s

/-- Settles O54, by the frame of B58DEC's body. -/
theorem base58DecoderFrame : Obligations.Base58DecoderFrame := by
  intro s t h
  refine ⟨exec_frame (m := fun w w' => { w with pos := w'.pos, big := w'.big, zcount := w'.zcount })
    (fun _ => rfl) ?_ h, fun hok => ?_⟩
  · rw [bodyOf_b58dec_frame s]
  · rw [exec_ok_state h hok]
    exact ⟨decoder_keeps_text rfl s, by rw [bodyOf_b58dec_frame s]; rfl⟩

/-- Settles O55, by the frame of B122ENC's body. -/
theorem base122EncoderFrame : Obligations.Base122EncoderFrame := by
  intro s t h
  refine ⟨exec_frame (m := fun w w' => { w with curByte := w'.curByte, curBit := w'.curBit, pend := w'.pend })
    (fun _ => rfl) ?_ h, fun hok => ?_⟩
  · rw [bodyOf_b122enc_frame s]
  · rw [exec_ok_state h hok]; exact encoder_keeps_bytes_draws rfl s

/-- A push draws no free value. -/
@[simp] theorem pushGroup_draws {k : Nat} (v : BitVec k) (s : State) : (pushGroup v s).draws = s.draws := by
  rw [pushGroup_frame]

/-- The entry of an index that has one is pushed without a draw (rules R132, R137 (a)). -/
theorem b122PushIllegal_draws {idx : BitVec 3} (h : (b122IllegalGroup idx).isSome) (s : State) :
    (b122PushIllegal idx s).draws = s.draws := by
  obtain ⟨g, hg⟩ := Option.isSome_iff_exists.1 h
  simp [b122PushIllegal, hg]

/-- In a text that does not reach `unspecified` neither the first unit nor the rest does (rule R137 (a)). -/
theorem b122ReachesUnspecified_cons {p : Params} {c : CodePoint} {cs : List CodePoint}
    (h : b122ReachesUnspecified p (c :: cs) = false) :
    (c.toNat ≤ 0x7F ∨ escapeIndex c = p.b122Short ∨ (b122IllegalGroup (escapeIndex c)).isSome) ∧
      b122ReachesUnspecified p cs = false := by
  rw [b122ReachesUnspecified, List.any_cons, Bool.or_eq_false_iff] at h
  obtain ⟨hc, hcs⟩ := h
  refine ⟨?_, hcs⟩
  by_contra hno
  obtain ⟨hplain, hshort, hentry⟩ : 0x7F < c.toNat ∧ escapeIndex c ≠ p.b122Short ∧
      b122IllegalGroup (escapeIndex c) = none := by simpa using hno
  simp [hplain, hshort, hentry] at hc

/-- A unit that does not reach `unspecified` draws no free value (rules R132 to R134). -/
theorem b122DecUnit_draws {c : CodePoint} {s : State}
    (h : c.toNat ≤ 0x7F ∨ escapeIndex c = s.params.b122Short ∨ (b122IllegalGroup (escapeIndex c)).isSome) :
    (b122DecUnit c s).state.draws = s.draws := by
  unfold b122DecUnit
  split
  · exact pushGroup_draws _ s
  split
  · exact pushGroup_draws _ s
  · rename_i hplain hshort
    have hentry := (h.resolve_left hplain).resolve_left hshort
    rw [OpResult.state_returns, pushGroup_draws, b122PushIllegal_draws hentry]

/-- The datapath draws no free value on a text that does not reach `unspecified` (rule R132). -/
theorem forUnits_b122DecUnit_draws : ∀ (cs : List CodePoint) (s : State),
    b122ReachesUnspecified s.params cs = false → (forUnits b122DecUnit cs s).state.draws = s.draws
  | [], _, _ => rfl
  | c :: cs, s, h => by
    obtain ⟨hc, hcs⟩ := b122ReachesUnspecified_cons h
    obtain ⟨u, hu, hf, -⟩ := b122DecUnit_frame c s
    have hdraws := b122DecUnit_draws hc
    rw [hu, OpResult.state_returns] at hdraws
    have hparams : u.advancePos.params = s.params := hf.keepsCommand.params
    rw [forUnits_cons, hu, OpResult.andThen_returns,
      forUnits_b122DecUnit_draws cs u.advancePos (by rw [hparams]; exact hcs), State.advancePos_draws, hdraws]

/-- On well-formed text B122DEC's body is its datapath: OUT is not settled anew (rule R136). -/
theorem b122DecBody_of_wellFormed {s : State} (h : b122WellFormedText s.params s.input.text = true) :
    b122DecBody s = forUnits b122DecUnit s.input.text s := by
  obtain ⟨t, ht, hf⟩ := forUnits_b122DecUnit_frame s.input.text s
  have hkeep := hf.keepsCommand
  rw [b122DecBody, ht, OpResult.andThen_returns, b122DecSettle, hkeep.params, hkeep.input, if_pos h]

/-- On well-formed text B122DEC draws no free value (rule R136). -/
theorem b122DecBody_draws {s : State} (h : b122WellFormedText s.params s.input.text = true) :
    (b122DecBody s).state.draws = s.draws := by
  have hreach : b122ReachesUnspecified s.params s.input.text = false := by
    rw [b122WellFormedText, Bool.and_eq_true, Bool.not_eq_true'] at h; exact h.1
  rw [b122DecBody_of_wellFormed h, forUnits_b122DecUnit_draws _ _ hreach]

/-- Settles O56, by the frame of B122DEC's body, and by the draws of its datapath on well-formed text. -/
theorem base122DecoderFrame : Obligations.Base122DecoderFrame := by
  intro s t h
  refine ⟨exec_frame (m := fun w w' => { w with pos := w'.pos, acc := w'.acc, accCnt := w'.accCnt })
    (fun _ => rfl) ?_ h, fun hok => ?_⟩
  · rw [bodyOf_b122dec_frame s]
  · rw [exec_ok_state h hok]; exact ⟨decoder_keeps_text rfl s, b122DecBody_draws⟩

end Sys2Proof.Machine
end

section
/-! PROOFS of the state family, continued: the invariant (O57, O58).
The registers an operation leaves keep to the bounds of its own input (`WithinInput`); with the frames that gives every clause of the invariant. -/

namespace Sys2Proof.Machine

/-! ### The registers, bounded by the input -/

/-- The working registers keep to their ranges, and ZCOUNT and BIG to what the input in hand allows (rules R25 to R30): what a body leaves, in bounds that do not name MAX_IN_LEN. -/
structure State.WithinInput (s : State) (d : Dir) : Prop extends s.WorkInRange where
  zcount_le : s.work.zcount ≤ s.inLen d
  big_lt : s.work.big < 2 ^ bigWidth d (s.inLen d)

theorem workInRange_of_fresh {s : State} (h : s.work = Work.reset) : s.WorkInRange := by
  constructor <;> simp [h, Work.reset]

theorem withinInput_of_fresh {s : State} (h : s.work = Work.reset) (d : Dir) : s.WithinInput d :=
  { toWorkInRange := workInRange_of_fresh h
    zcount_le := by simp [h, Work.reset]
    big_lt := by simp [h, Work.reset] }

section
variable {s t : State} {d : Dir}

/-- A change of OUT's text and the cursor keeps the bounds if CUR_BYTE keeps its own. -/
theorem CursorFrame.withinInput (hf : CursorFrame s t) (h : s.WithinInput d)
    (hcur : t.work.curByte ≤ s.input.bytes.length) : t.WithinInput d := by
  rw [hf]; exact { h with curByte_le := hcur }

/-- A change of OUT's bytes, POS and the accumulator keeps the bounds if POS and ACC keep theirs. -/
theorem AccFrame.withinInput (hf : AccFrame s t) (h : s.WithinInput d)
    (hpos : t.work.pos ≤ s.input.text.length) (hacc : t.work.acc.toNat < 2 ^ t.work.accCnt.toNat) :
    t.WithinInput d := by
  rw [hf]; exact { h with pos_le := hpos, acc_lt := hacc }

/-- A change of OUT's bytes, POS and the group buffer keeps the bounds if these registers keep theirs. -/
theorem GroupFrame.withinInput (hf : GroupFrame s t) (h : s.WithinInput d)
    (hpos : t.work.pos ≤ s.input.text.length) (hcnt : t.work.b85Cnt.toNat ≤ 5)
    (hdigits : ∀ x ∈ t.work.b85Buf.toList, x.toNat < 85) : t.WithinInput d := by
  rw [hf]; exact { h with pos_le := hpos, b85Cnt_le := hcnt, digits_lt := hdigits }

/-- A change of OUT's bytes, POS, BIG and ZCOUNT keeps the bounds if these registers keep theirs. -/
theorem BigFrame.withinInput (hf : BigFrame s t) (h : s.WithinInput d)
    (hpos : t.work.pos ≤ s.input.text.length) (hz : t.work.zcount ≤ s.inLen d)
    (hbig : t.work.big < 2 ^ bigWidth d (s.inLen d)) : t.WithinInput d := by
  rw [hf]; exact { h with pos_le := hpos, zcount_le := hz, big_lt := hbig }

end

/-! ### Encoders -/

/-- nextGroup stops behind the last byte (rule R76). -/
theorem nextGroup_curByte_le {k : Nat} (hk : k ≤ 8) {s : State} (h : s.work.curByte ≤ s.input.bytes.length) :
    (nextGroup k s).2.work.curByte ≤ s.input.bytes.length := by
  rcases nextGroup_cases k s with ⟨-, hn⟩ | ⟨hlt, v, hn⟩ <;> rw [hn]
  · exact h
  · have hpos := advanceCursor_position s hk
    have hbit := s.work.curBit.isLt
    simp only
    omega

theorem b32EncLoop_curByte_le : ∀ (fuel : Nat) (s : State), s.work.curByte ≤ s.input.bytes.length →
    (b32EncLoop fuel s).work.curByte ≤ s.input.bytes.length
  | 0, _, h => h
  | fuel + 1, s, h => by
    have hcur := nextGroup_curByte_le (k := Config.groupB32) (by decide) h
    have hin := (CursorFrame.nextGroup Config.groupB32 s).keepsCommand.input
    rw [b32EncLoop]
    split
    · rename_i s' hn; rw [hn] at hcur; exact hcur
    · rename_i v s' hn
      rw [hn] at hcur hin
      rw [← hin] at hcur ⊢
      exact b32EncLoop_curByte_le fuel (s'.emitText [b32Symbol v]) hcur

theorem b122EncEscape_curByte_le (idx : Fin 6) (g : BitVec 7) {s : State}
    (h : s.work.curByte ≤ s.input.bytes.length) :
    (b122EncEscape idx g s).work.curByte ≤ s.input.bytes.length := by
  have hcur := nextGroup_curByte_le (k := Config.groupB122) (by decide)
    (s := s.setPend (some { idx := idx, group := g })) h
  unfold b122EncEscape
  split
  · rename_i h' s' hn; rw [hn] at hcur; exact hcur
  · rename_i s' hn; rw [hn] at hcur; exact hcur

theorem b122EncEscape_input (idx : Fin 6) (g : BitVec 7) (s : State) : (b122EncEscape idx g s).input = s.input :=
  (b122EncEscape_frame idx g s).keepsCommand.input

theorem b122EncLoop_curByte_le : ∀ (fuel : Nat) (s : State), s.work.curByte ≤ s.input.bytes.length →
    (b122EncLoop fuel s).work.curByte ≤ s.input.bytes.length
  | 0, _, h => h
  | fuel + 1, s, h => by
    have hcur := nextGroup_curByte_le (k := Config.groupB122) (by decide) h
    have hin := (CursorFrame.nextGroup Config.groupB122 s).keepsCommand.input
    rw [b122EncLoop]
    split
    · rename_i s' hn; rw [hn] at hcur; exact hcur
    · rename_i g s' hn
      rw [hn] at hcur hin
      rw [← hin] at hcur ⊢
      split
      · exact b122EncLoop_curByte_le fuel (s'.emitText [plainUnit g]) hcur
      · rename_i idx _
        have hnext := b122EncLoop_curByte_le fuel (b122EncEscape idx g s')
        rw [b122EncEscape_input] at hnext
        exact hnext (b122EncEscape_curByte_le idx g hcur)

/-- B122ENC leaves no escape open (rule R125). -/
theorem b122EncLoop_pend_none (fuel : Nat) {s : State} (h : s.work.pend = none) :
    (b122EncLoop fuel s).work.pend = none := by
  rcases b122EncLoop_frame fuel s with hf | hf <;> rw [hf]
  · exact h
  · rfl

theorem b85EncChunk_chunkCnt_le {bs : List Byte} (h : bs.length ≤ 4) (s : State) :
    (b85EncChunk bs s).work.chunkCnt.toNat ≤ 4 :=
  (Nat.mod_le bs.length (2 ^ 3)).trans h

/-- CHUNK_CNT counts the bytes of a chunk, which are at most four (rule R97). -/
theorem b85EncLoop_chunkCnt_le : ∀ (bs : List Byte) (s : State), s.work.chunkCnt.toNat ≤ 4 →
    (b85EncLoop bs s).work.chunkCnt.toNat ≤ 4
  | [], _, h => h
  | [a], s, _ => b85EncChunk_chunkCnt_le (bs := [a]) (by simp) s
  | [a, b], s, _ => b85EncChunk_chunkCnt_le (bs := [a, b]) (by simp) s
  | [a, b, c], s, _ => b85EncChunk_chunkCnt_le (bs := [a, b, c]) (by simp) s
  | a :: b :: c :: d :: rest, s, _ => by
    rw [b85EncLoop]
    exact b85EncLoop_chunkCnt_le rest _ (b85EncChunk_chunkCnt_le (bs := [a, b, c, d]) (by simp) s)

theorem lead_le_length {α : Type} [DecidableEq α] (x : α) (l : List α) : lead x l ≤ l.length := by
  induction l with
  | nil => exact le_rfl
  | cons y ys ih =>
    rw [lead, List.length_cons]
    split
    · exact Nat.succ_le_succ ih
    · exact Nat.zero_le _

/-- The digit loop of B58ENC only divides BIG (rule R115). -/
theorem b58DigitLoop_big_le : ∀ (fuel : Nat) (s : State) (ds : List (Fin 58)),
    (b58DigitLoop fuel s ds).2.work.big ≤ s.work.big
  | 0, _, _ => le_rfl
  | fuel + 1, s, ds => by
    rw [b58DigitLoop]
    split
    · exact le_rfl
    · exact (b58DigitLoop_big_le fuel _ _).trans (Nat.div_le_self _ _)

/-- B58ENC leaves ZCOUNT a count of the input's bytes, and BIG at most the input's value (rules R114 to R116). -/
theorem b58EncBody_big_zcount {s : State} (h : s.work = Work.reset) :
    (b58EncBody s).state.work.zcount ≤ s.input.bytes.length ∧
      (b58EncBody s).state.work.big ≤ beNat s.input.bytes := by
  unfold b58EncBody
  split
  · simp [h, Work.reset]
  · refine ⟨?_, b58DigitLoop_big_le _ s.loadBig []⟩
    rw [OpResult.state_returns, b58EncEmit, b58DigitLoop_frame]
    exact lead_le_length 0 s.input.bytes

/-- A number of n bytes fits the `8n` bits of BIG (rule R29). -/
theorem beNat_lt_two_pow_bigWidth (bs : List Byte) : beNat bs < 2 ^ bigWidth .enc bs.length := by
  have h : (256 : Nat) ^ bs.length = 2 ^ bigWidth .enc bs.length := by
    rw [bigWidth, pow_mul]; norm_num
  exact h ▸ beNat_lt bs

theorem encoder_withinInput {i : Instr} (hi : i.dir = .enc) {s : State} (h : s.work = Work.reset) :
    (bodyOf i s).state.WithinInput .enc := by
  have hs := withinInput_of_fresh h .enc
  cases i with
  | b32enc => exact (bodyOf_b32enc_frame s).withinInput hs (b32EncLoop_curByte_le _ s hs.curByte_le)
  | b85enc =>
    rw [bodyOf_b85enc_frame s]
    exact { hs with chunkCnt_le := b85EncLoop_chunkCnt_le s.input.bytes s hs.chunkCnt_le }
  | b58enc =>
    obtain ⟨hz, hb⟩ := b58EncBody_big_zcount h
    rw [bodyOf_b58enc_frame s]
    exact { hs with zcount_le := hz, big_lt := hb.trans_lt (beNat_lt_two_pow_bigWidth _) }
  | b122enc =>
    rw [bodyOf_b122enc_frame s]
    exact { hs with
      curByte_le := b122EncLoop_curByte_le _ s hs.curByte_le
      pend_none := b122EncLoop_pend_none _ hs.pend_none }
  | b32dec | b85dec | b58dec | b122dec => cases hi

/-! ### Decoders -/

/-- A unit keeps POS, and raises only at it (rules R25, R148). -/
structure KeepsPos (f : CodePoint → State → OpResult) : Prop where
  state_pos : ∀ c s, (f c s).state.work.pos = s.work.pos
  raises_at : ∀ c s i t, f c s = .raises i t → i = s.work.pos

section
variable {f : CodePoint → State → OpResult}

theorem KeepsPos.walk_pos (hf : KeepsPos f) (cs : List CodePoint) (s : State) :
    (∀ t, forUnits f cs s = .returns t → t.work.pos = s.work.pos + cs.length) ∧
      (∀ i t, forUnits f cs s = .raises i t → i = t.work.pos ∧ s.work.pos ≤ i ∧ i < s.work.pos + cs.length) :=
  forUnits_pos (fun c s t h => by simpa [h] using hf.state_pos c s)
    (fun c s i t h => ⟨hf.raises_at c s i t h, by simpa [h] using hf.state_pos c s⟩) cs s

/-- POS never passes the end of the walk. -/
theorem KeepsPos.pos_le (hf : KeepsPos f) (cs : List CodePoint) (s : State) :
    (forUnits f cs s).state.work.pos ≤ s.work.pos + cs.length := by
  obtain ⟨hret, hraise⟩ := hf.walk_pos cs s
  cases hr : forUnits f cs s with
  | returns t => exact (hret t hr).le
  | raises i t => obtain ⟨hi, -, hlt⟩ := hraise i t hr; exact hi ▸ hlt.le

end

theorem pushGroup_pos {k : Nat} (v : BitVec k) (s : State) : (pushGroup v s).work.pos = s.work.pos := by
  rw [pushGroup_frame]

theorem b32DecUnit_keepsPos : KeepsPos b32DecUnit where
  state_pos c s := by
    unfold b32DecUnit
    split
    · rfl
    · split
      · exact pushGroup_pos _ s
      · rfl
  raises_at c s i t h := by
    unfold b32DecUnit at h
    split at h
    · cases h
    · split at h
      · cases h
      · cases h; rfl

theorem b85DecUnit_keepsPos : KeepsPos b85DecUnit where
  state_pos c s := (b85DecUnit_frame c s).2.1
  raises_at c s := (b85DecUnit_frame c s).2.2

theorem b58DecUnit_keepsPos : KeepsPos b58DecUnit where
  state_pos c s := by unfold b58DecUnit; split <;> rfl
  raises_at c s i t h := by
    unfold b58DecUnit at h
    split at h <;> cases h
    rfl

theorem b122DecUnit_keepsPos : KeepsPos b122DecUnit where
  state_pos c s := by
    obtain ⟨t, ht, -, hpos⟩ := b122DecUnit_frame c s
    rw [ht]; exact hpos
  raises_at c s i t h := by
    obtain ⟨t, ht, -⟩ := b122DecUnit_frame c s
    rw [ht] at h; cases h

/-- ACC holds no bit above the ACC_CNT it holds (rule R27). -/
def State.AccBounded (s : State) : Prop := s.work.acc.toNat < 2 ^ s.work.accCnt.toNat

theorem b32DecUnit_accBounded (c : CodePoint) (s : State) (h : s.AccBounded) : (b32DecUnit c s).state.AccBounded := by
  unfold b32DecUnit
  split
  · exact h
  · split
    · exact pushGroup_acc_lt (by decide) _ s
    · exact h

theorem b122DecUnit_accBounded (c : CodePoint) (s : State) : (b122DecUnit c s).state.AccBounded := by
  unfold b122DecUnit
  split
  · exact pushGroup_acc_lt (by decide) _ _
  split
  · exact pushGroup_acc_lt (by decide) _ _
  · exact pushGroup_acc_lt (by decide) _ _

theorem b122DecSettle_work (s : State) : (b122DecSettle s).work = s.work := by
  unfold b122DecSettle; split <;> rfl

/-- The working registers B122DEC leaves are those of its datapath (rule R136). -/
theorem b122DecBody_work (s : State) : (b122DecBody s).state.work = (forUnits b122DecUnit s.input.text s).state.work := by
  obtain ⟨t, ht, -⟩ := forUnits_b122DecUnit_frame s.input.text s
  rw [b122DecBody, ht]; exact b122DecSettle_work t

/-! B85DEC: between two units fewer than five slots are filled, and a raise may leave the fifth filled. -/

/-- The group buffer holds digits, and at most m of its slots are filled (rule R28). -/
structure State.BufferUpTo (s : State) (m : Nat) : Prop where
  cnt_le : s.work.b85Cnt.toNat ≤ m
  digits_lt : ∀ x ∈ s.work.b85Buf.toList, x.toNat < 85

/-- An operation that returns keeps P, and one that raises keeps Q. -/
def OpResult.Ends (P Q : State → Prop) : OpResult → Prop
  | .returns s => P s
  | .raises _ s => Q s

theorem OpResult.Ends.imp {P P' Q Q' : State → Prop} {r : OpResult} (h : r.Ends P Q) (hP : ∀ s, P s → P' s)
    (hQ : ∀ s, Q s → Q' s) : r.Ends P' Q' := by
  cases r with
  | returns s => exact hP s h
  | raises i s => exact hQ s h

theorem OpResult.Ends.state {P : State → Prop} {r : OpResult} (h : r.Ends P P) : P r.state := by
  cases r with
  | returns s => exact h
  | raises i s => exact h

/-- The rule of a walk: P speaks of the units that are left, and Q of the state a raise leaves. -/
theorem forUnits_ends {P : List CodePoint → State → Prop} {Q : State → Prop} {f : CodePoint → State → OpResult}
    (hf : ∀ c cs s, P (c :: cs) s → (f c s).Ends (fun t => P cs t.advancePos) Q) :
    ∀ (cs : List CodePoint) (s : State), P cs s → (forUnits f cs s).Ends (P []) Q
  | [], _, h => h
  | c :: cs, s, h => by
    have hc := hf c cs s h
    rw [forUnits_cons]
    cases hr : f c s with
    | returns t => rw [hr] at hc; exact forUnits_ends hf cs t.advancePos hc
    | raises i t => rw [hr] at hc; exact hc

/-- A digit of the range goes into the next slot (rules R102, R105). -/
theorem State.BufferUpTo.pushDigit {s : State} {m d : Nat} (h : s.BufferUpTo m) (hm : m < 7) (hd : d < 85) :
    (b85PushDigit d s).BufferUpTo (m + 1) where
  cnt_le := by
    have hcnt := h.cnt_le
    have hnext : (b85PushDigit d s).work.b85Cnt.toNat = (s.work.b85Cnt.toNat + 1) % 2 ^ 3 := BitVec.toNat_add _ _
    omega
  digits_lt x hx := by
    have hmem : x ∈ (s.work.b85Buf.setIfInBounds s.work.b85Cnt.toNat (BitVec.ofNat 7 d)).toList := hx
    rw [Vector.toList_setIfInBounds] at hmem
    rcases List.mem_or_eq_of_mem_set hmem with hold | rfl
    · exact h.digits_lt x hold
    · rw [BitVec.toNat_ofNat]; omega

/-- A fifth digit completes its group, which empties the buffer or raises (rules R106, R107). -/
theorem b85FullGroup_ends {s : State} (h : s.BufferUpTo 5) :
    (b85FullGroup s).Ends (·.BufferUpTo 4) (·.BufferUpTo 5) := by
  unfold b85FullGroup
  split
  · rcases b85EmitGroup_cases 5 s.work.pos s with hr | ⟨bs, hr⟩ <;> rw [hr]
    · exact h
    · exact ⟨Nat.zero_le 4, h.digits_lt⟩
  · rename_i hne
    have hcnt := h.cnt_le
    have hne' : s.work.b85Cnt.toNat ≠ 5 := fun he => hne (BitVec.eq_of_toNat_eq he)
    exact ⟨by omega, h.digits_lt⟩

theorem b85DecUnit_ends (c : CodePoint) (s : State) (h : s.BufferUpTo 4) :
    (b85DecUnit c s).Ends (·.BufferUpTo 4) (·.BufferUpTo 5) := by
  have h5 : s.BufferUpTo 5 := ⟨h.cnt_le.trans (by decide), h.digits_lt⟩
  unfold b85DecUnit
  split
  · exact h
  split
  · split
    · exact ⟨h.cnt_le, h.digits_lt⟩
    · exact h5
  split
  · rename_i hrange
    have hd : c.toNat - 0x21 < 85 := by
      simp only [b85InRange, Bool.and_eq_true, decide_eq_true_eq] at hrange; omega
    exact b85FullGroup_ends (h.pushDigit (by decide) hd)
  · exact h5

/-- The padding of a partial group is the digit 84 (rule R108). -/
theorem b85Pad_digits_lt (m : Nat) {e : Vector (BitVec 7) 5} (h : ∀ x ∈ e.toList, x.toNat < 85) :
    ∀ x ∈ (b85Pad m e).toList, x.toNat < 85 := by
  intro x hx
  rw [Vector.mem_toList_iff, b85Pad, Vector.mem_ofFn] at hx
  obtain ⟨i, rfl⟩ := hx
  split
  · exact h _ (Vector.mem_toList_iff.2 (Vector.getElem_mem _))
  · decide

theorem b85DecTail_bufferUpTo {s : State} {m : Nat} (h : s.BufferUpTo m) : (b85DecTail s).state.BufferUpTo m := by
  unfold b85DecTail
  split
  · exact h
  · have hpad : State.BufferUpTo { s with work.b85Buf := b85Pad s.work.b85Cnt.toNat s.work.b85Buf } m :=
      ⟨h.cnt_le, b85Pad_digits_lt _ h.digits_lt⟩
    rcases b85EmitGroup_cases s.work.b85Cnt.toNat (b85LastSymbol s.input.text)
      { s with work.b85Buf := b85Pad s.work.b85Cnt.toNat s.work.b85Buf } with hr | ⟨bs, hr⟩ <;> rw [hr]
    · exact hpad
    · exact ⟨hpad.cnt_le, hpad.digits_lt⟩

/-- B85DEC leaves POS where its walk left it. -/
theorem b85DecTail_pos (s : State) : (b85DecTail s).state.work.pos = s.work.pos := by
  unfold b85DecTail
  split
  · rfl
  · rcases b85EmitGroup_cases s.work.b85Cnt.toNat (b85LastSymbol s.input.text)
      { s with work.b85Buf := b85Pad s.work.b85Cnt.toNat s.work.b85Buf } with hr | ⟨bs, hr⟩ <;> rw [hr] <;> rfl

theorem b85DecBody_bufferUpTo {s : State} (h : ∀ x ∈ s.work.b85Buf.toList, x.toNat < 85) :
    (b85DecBody s).state.BufferUpTo 5 := by
  have hwalk := forUnits_ends (P := fun _ t => t.BufferUpTo 4)
    (fun c _ t ht => (b85DecUnit_ends c t ht).imp (fun _ hu => ⟨hu.cnt_le, hu.digits_lt⟩) fun _ hu => hu)
    s.input.text { s with work.b85Cnt := 0 } ⟨Nat.zero_le 4, h⟩
  unfold b85DecBody
  cases hr : forUnits b85DecUnit s.input.text { s with work.b85Cnt := 0 } with
  | raises i t => rw [hr] at hwalk; exact hwalk
  | returns t =>
    rw [hr] at hwalk
    have htail := b85DecTail_bufferUpTo hwalk
    exact ⟨htail.cnt_le.trans (by decide), htail.digits_lt⟩

theorem b85DecBody_pos_le (s : State) : (b85DecBody s).state.work.pos ≤ s.work.pos + s.input.text.length := by
  have hwalk := b85DecUnit_keepsPos.pos_le s.input.text { s with work.b85Cnt := 0 }
  unfold b85DecBody
  cases hr : forUnits b85DecUnit s.input.text { s with work.b85Cnt := 0 } with
  | raises i t => rw [hr] at hwalk; exact hwalk
  | returns t => rw [hr] at hwalk; exact (b85DecTail_pos t).trans_le hwalk

/-! B58DEC: BIG is below 58 to the number of units behind the leading `1`s. -/

theorem b58Rev_lt {c : CodePoint} {d : Nat} (h : b58Rev c = some d) : d < 58 := by
  obtain ⟨hlt, -⟩ := List.idxOf?_eq_some_iff.1 h
  exact hlt

/-- Each digit multiplies the bound of BIG by 58 (rule R121). -/
theorem b58DecUnit_big (c : CodePoint) (s : State) :
    (b58DecUnit c s).Ends (fun t => t.work.big + 1 ≤ (s.work.big + 1) * 58) (fun t => t.work.big = s.work.big) := by
  unfold b58DecUnit
  split
  · rfl
  · rename_i d hd
    have hlt := b58Rev_lt hd
    show s.work.big * 58 + d + 1 ≤ (s.work.big + 1) * 58
    omega

theorem forUnits_b58DecUnit_big_lt (cs : List CodePoint) (s : State) :
    (forUnits b58DecUnit cs s).state.work.big < (s.work.big + 1) * 58 ^ cs.length := by
  have hwalk := forUnits_ends
    (P := fun rest t => (t.work.big + 1) * 58 ^ rest.length ≤ (s.work.big + 1) * 58 ^ cs.length)
    (Q := fun t => t.work.big < (s.work.big + 1) * 58 ^ cs.length) (f := b58DecUnit) ?unit cs s le_rfl
  case unit =>
    intro c rest t ht
    refine (b58DecUnit_big c t).imp (fun u hu => ?_) fun u hu => ?_
    · calc (u.work.big + 1) * 58 ^ rest.length
          ≤ (t.work.big + 1) * 58 * 58 ^ rest.length := Nat.mul_le_mul_right _ hu
        _ = (t.work.big + 1) * 58 ^ (c :: rest).length := by rw [List.length_cons, pow_succ]; ring
        _ ≤ _ := ht
    · rw [hu]
      exact lt_of_lt_of_le (Nat.lt_succ_self _) ((Nat.le_mul_of_pos_right _ (by positivity)).trans ht)
  exact OpResult.Ends.state (P := fun t => t.work.big < _) (hwalk.imp (fun t ht => by simpa using ht) fun _ ht => ht)

/-- Leading `1`s, whose digit is 0, leave BIG at 0 (rules R121, R122). -/
theorem forUnits_b58DecUnit_big_lt_of_zero : ∀ (cs : List CodePoint) (s : State), s.work.big = 0 →
    (forUnits b58DecUnit cs s).state.work.big < 58 ^ (cs.length - lead (b58Symbol 0) cs)
  | [], s, h => by simp [h]
  | c :: cs, s, h => by
    by_cases hc : c = b58Symbol 0
    · have hunit : b58DecUnit c s = .returns { s with work.big := 0 } := by
        simp [b58DecUnit, hc, h]
      have hnext := forUnits_b58DecUnit_big_lt_of_zero cs (State.advancePos { s with work.big := 0 }) rfl
      rw [forUnits_cons, hunit, OpResult.andThen_returns, lead, if_pos hc, List.length_cons, Nat.add_sub_add_right]
      exact hnext
    · have hall := forUnits_b58DecUnit_big_lt (c :: cs) s
      rw [lead, if_neg hc]
      simpa [h] using hall

theorem b58Trimmed_length_le (p : Params) (t : List CodePoint) :
    b58Skip p t + (b58Trimmed p t).length ≤ t.length := by
  unfold b58Skip b58Trimmed
  split
  · simp
  · have hsplit := congrArg List.length (List.takeWhile_append_dropWhile (p := fun c => p.blankSet.contains c) (l := t))
    have hdrop := (List.dropWhile_sublist (fun c => p.blankSet.contains c)
      (l := (t.dropWhile fun c => p.blankSet.contains c).reverse)).length_le
    rw [List.length_append] at hsplit
    rw [List.length_reverse] at hdrop ⊢
    omega

/-- A numeral of n symbols fits the bits of BIG (rule R29). -/
theorem lt_two_pow_bigWidth_dec {v k n : Nat} (h : v < 58 ^ k) (hk : k ≤ n) : v < 2 ^ bigWidth .dec n :=
  h.trans_le ((Nat.pow_le_pow_right (by decide) hk).trans (Nat.le_pow_clog (by decide) _))

theorem b58DecUnit_zcount (c : CodePoint) (s : State) : (b58DecUnit c s).state.work.zcount = s.work.zcount := by
  unfold b58DecUnit; split <;> rfl

/-- The registers B58DEC leaves, within the text it was given (rules R118 to R122). -/
theorem b58DecBody_registers {s : State} (h : s.work = Work.reset) :
    (b58DecBody s).state.work.pos ≤ s.input.text.length ∧
      (b58DecBody s).state.work.zcount ≤ s.input.text.length ∧
      (b58DecBody s).state.work.big < 2 ^ bigWidth .dec s.input.text.length := by
  have hlen := b58Trimmed_length_le s.params s.input.text
  have hlead := lead_le_length (b58Symbol 0) (b58Trimmed s.params s.input.text)
  unfold b58DecBody
  split
  · simp [h, Work.reset]
  · have hpos := b58DecUnit_keepsPos.pos_le (b58Trimmed s.params s.input.text)
      { s with work.big := 0, work.pos := b58Skip s.params s.input.text }
    have hbig := lt_two_pow_bigWidth_dec (n := s.input.text.length)
      (forUnits_b58DecUnit_big_lt_of_zero (b58Trimmed s.params s.input.text)
        { s with work.big := 0, work.pos := b58Skip s.params s.input.text } rfl) (by omega)
    have hframe := forUnits_preserves (P := fun t => t.work.zcount = s.work.zcount) (f := b58DecUnit)
      (fun c t ht => (b58DecUnit_zcount c t).trans ht) (fun _ ht => ht)
      (b58Trimmed s.params s.input.text) { s with work.big := 0, work.pos := b58Skip s.params s.input.text } rfl
    cases hr : forUnits b58DecUnit (b58Trimmed s.params s.input.text)
        { s with work.big := 0, work.pos := b58Skip s.params s.input.text } with
    | raises i t =>
      rw [hr] at hpos hbig hframe
      refine ⟨hpos.trans hlen, ?_, hbig⟩
      rw [OpResult.andThen_raises, hframe, h]; exact Nat.zero_le _
    | returns t =>
      rw [hr] at hpos hbig
      exact ⟨hpos.trans hlen, hlead.trans (by omega), hbig⟩

theorem decoder_withinInput {i : Instr} (hi : i.dir = .dec) {s : State} (h : s.work = Work.reset) :
    (bodyOf i s).state.WithinInput .dec := by
  have hs := withinInput_of_fresh h .dec
  have hpos : s.work.pos + s.input.text.length ≤ s.input.text.length := by simp [h, Work.reset]
  cases i with
  | b32dec =>
    exact (bodyOf_b32dec_frame s).withinInput hs
      ((b32DecUnit_keepsPos.pos_le s.input.text s).trans hpos)
      (forUnits_preserves (P := State.AccBounded) b32DecUnit_accBounded (fun _ ht => ht) _ s hs.acc_lt)
  | b85dec =>
    have hbuf := b85DecBody_bufferUpTo hs.digits_lt
    exact (bodyOf_b85dec_frame s).withinInput hs ((b85DecBody_pos_le s).trans hpos)
      hbuf.cnt_le hbuf.digits_lt
  | b58dec =>
    obtain ⟨hp, hz, hb⟩ := b58DecBody_registers h
    exact (bodyOf_b58dec_frame s).withinInput hs hp hz hb
  | b122dec =>
    have hwork : (bodyOf .b122dec s).state.work = _ := b122DecBody_work s
    refine (bodyOf_b122dec_frame s).withinInput hs ?_ ?_ <;> rw [hwork]
    · exact (b122DecUnit_keepsPos.pos_le s.input.text s).trans hpos
    · exact forUnits_preserves (P := State.AccBounded) (fun c t _ => b122DecUnit_accBounded c t) (fun _ ht => ht)
        _ s hs.acc_lt
  | b32enc | b85enc | b58enc | b122enc => cases hi

/-- From a fresh state every operation keeps its registers within its input. -/
theorem bodyOf_withinInput (i : Instr) {s : State} (h : s.work = Work.reset) :
    (bodyOf i s).state.WithinInput i.dir := by
  cases hi : i.dir with
  | enc => exact encoder_withinInput hi h
  | dec => exact decoder_withinInput hi h

/-! ### What an error names -/

/-- B122DEC never raises (rules R132, R142). -/
theorem b122DecBody_returns (s : State) : ∃ t, b122DecBody s = .returns t := by
  obtain ⟨t, ht, -⟩ := forUnits_b122DecUnit_frame s.input.text s
  exact ⟨b122DecSettle t, by rw [b122DecBody, ht]; rfl⟩

theorem encoder_returns {i : Instr} (hi : i.dir = .enc) (s : State) : ∃ t, bodyOf i s = .returns t := by
  cases i with
  | b32enc | b85enc | b122enc => exact ⟨_, rfl⟩
  | b58enc =>
    by_cases h : s.input.bytes = []
    · exact ⟨s, if_pos h⟩
    · exact ⟨_, if_neg h⟩
  | b32dec | b85dec | b58dec | b122dec => cases hi

/-- Only the decoders but B122DEC raise (rules R141, R142). -/
theorem raises_decoder {i : Instr} {s u : State} {j : Nat} (h : bodyOf i s = .raises j u) :
    i = .b32dec ∨ i = .b85dec ∨ i = .b58dec := by
  have hret : ∀ t, bodyOf i s ≠ .returns t := fun t ht => by rw [ht] at h; cases h
  cases i with
  | b32enc | b85enc | b58enc | b122enc =>
    exact absurd (encoder_returns (by rfl) s) (not_exists.2 hret)
  | b122dec =>
    exact absurd (b122DecBody_returns s) (not_exists.2 hret)
  | b32dec => exact .inl rfl
  | b85dec => exact .inr (.inl rfl)
  | b58dec => exact .inr (.inr rfl)

/-- The tail of B85DEC raises for a partial group, at the last symbol (log 9). -/
theorem b85DecTail_raises {s u : State} {j : Nat} (h : b85DecTail s = .raises j u) :
    s.work.b85Cnt ≠ 0 ∧ j = b85LastSymbol s.input.text := by
  unfold b85DecTail at h
  split at h
  · cases h
  · rename_i hne
    refine ⟨hne, ?_⟩
    rcases b85EmitGroup_cases s.work.b85Cnt.toNat (b85LastSymbol s.input.text)
      { s with work.b85Buf := b85Pad s.work.b85Cnt.toNat s.work.b85Buf } with hr | ⟨bs, hr⟩ <;> rw [hr] at h
    · cases h; rfl
    · cases h

theorem b85LastSymbol_lt {t : List CodePoint} (h : t ≠ []) : b85LastSymbol t < t.length := by
  have hdrop := (List.dropWhile_sublist (· ∈ b85Ignore) (l := t.reverse)).length_le
  have hlen := List.length_pos_iff.2 h
  rw [List.length_reverse] at hdrop
  unfold b85LastSymbol
  omega

theorem b85DecBody_raises {s u : State} {j : Nat} (h : s.work = Work.reset) (hj : b85DecBody s = .raises j u) :
    j < s.input.text.length := by
  obtain ⟨-, hraise⟩ := b85DecUnit_keepsPos.walk_pos s.input.text { s with work.b85Cnt := 0 }
  have hframe := forUnits_preserves (f := b85DecUnit) (P := GroupFrame s)
    (fun c t ht => ht.trans (b85DecUnit_frame c t).1) (fun t ht => ht.trans rfl) s.input.text
    { s with work.b85Cnt := 0 } rfl
  unfold b85DecBody at hj
  cases hr : forUnits b85DecUnit s.input.text { s with work.b85Cnt := 0 } with
  | raises i t =>
    obtain ⟨-, -, hlt⟩ := hraise i t hr
    rw [hr] at hj; cases hj
    simpa [h, Work.reset] using hlt
  | returns t =>
    rw [hr] at hj hframe
    obtain ⟨hcnt, rfl⟩ := b85DecTail_raises hj
    have hin : t.input = s.input := hframe.keepsCommand.input
    rw [hin]
    refine b85LastSymbol_lt fun hnil => hcnt ?_
    rw [hnil, forUnits_nil] at hr
    cases hr; rfl

theorem b58DecBody_raises {s u : State} {j : Nat} (hj : b58DecBody s = .raises j u) : j < s.input.text.length := by
  obtain ⟨-, hraise⟩ := b58DecUnit_keepsPos.walk_pos (b58Trimmed s.params s.input.text)
    { s with work.big := 0, work.pos := b58Skip s.params s.input.text }
  have hlen := b58Trimmed_length_le s.params s.input.text
  unfold b58DecBody at hj
  split at hj
  · cases hj
  · cases hr : forUnits b58DecUnit (b58Trimmed s.params s.input.text)
        { s with work.big := 0, work.pos := b58Skip s.params s.input.text } with
    | raises i t =>
      obtain ⟨-, -, hlt⟩ := hraise i t hr
      rw [hr] at hj; cases hj
      exact hlt.trans_le hlen
    | returns t => rw [hr] at hj; cases hj

/-- An error names a unit of the text (rules R21, R148). -/
theorem raises_index_lt {i : Instr} {s u : State} {j : Nat} (hs : s.work = Work.reset)
    (h : bodyOf i s = .raises j u) : j < s.input.text.length := by
  rcases raises_decoder h with rfl | rfl | rfl
  · obtain ⟨-, -, hlt⟩ := (b32DecUnit_keepsPos.walk_pos s.input.text s).2 j u h
    simpa [hs, Work.reset] using hlt
  · exact b85DecBody_raises hs h
  · exact b58DecBody_raises h

/-! ### The command word behind an operation -/

theorem eq_encode_of_decode {op : BitVec 4} {i : Instr} (h : decode op = .command i) : op = encode i := by
  cases i <;> revert op <;> decide

theorem rsvField_of_decode_reserved {op op' : BitVec 4} (h : decode op = .reserved op') : rsvField op = 1 := by
  unfold decode at h
  split at h
  · assumption
  · cases h

/-- The DIR bit of an operation's word (rule R55). -/
theorem encode_getLsbD_zero (i : Instr) : (encode i).getLsbD 0 = decide (i.dir = .dec) := by
  cases i <;> decide

/-! ### The widths of a bounded block -/

theorem bigWidth_mono (d : Dir) {m n : Nat} (h : m ≤ n) : bigWidth d m ≤ bigWidth d n := by
  cases d with
  | enc => exact Nat.mul_le_mul_left 8 h
  | dec => exact Nat.clog_mono_right 2 (Nat.pow_le_pow_right (by decide) h)

theorem fitsWidths_of_fresh {s : State} (hw : s.work = Work.reset) (he : s.errIndex = 0) (n : Nat) :
    s.FitsWidths n := by
  constructor <;> simp [hw, he, Work.reset]

/-- Registers within an input of at most n units fit the widths of a block with MAX_IN_LEN = n. -/
theorem State.WithinInput.fitsWidths {s : State} {d : Dir} {n : Nat} (h : s.WithinInput d)
    (hd : ∀ i, decode s.op = .command i → i.dir = d) (hbytes : s.input.bytes.length ≤ n)
    (htext : s.input.text.length ≤ n) (he : s.errIndex < 2 ^ indexWidth n) : s.FitsWidths n where
  errIndex_lt := he
  pos_lt := lt_two_pow_indexWidth (h.pos_le.trans htext)
  curByte_lt := lt_two_pow_indexWidth (h.curByte_le.trans hbytes)
  zcount_lt := lt_two_pow_indexWidth (h.zcount_le.trans (by cases d <;> assumption))
  big_lt i hi := by
    rw [hd i hi]
    exact h.big_lt.trans_le (Nat.pow_le_pow_right (by decide) (bigWidth_mono d (by cases d <;> assumption)))

/-! ### The invariant -/

theorem capture_typed (cmd : BitVec 4) (l : Lanes) :
    if cmd.getLsbD 0 then (Lanes.capture cmd l).bytes = [] else (Lanes.capture cmd l).text = [] := by
  unfold Lanes.capture; split <;> rfl

/-- A block right after reset (rule R34), whatever its parameters, its host and the draws. -/
theorem inv_after_reset (p : Params) (l : List HostEvent) (n : Nat) :
    ({ State.reset with params := p, host := l, draws := n } : State).Inv where
  idle_reset _ := rfl
  busy_fresh h := nomatch h
  code_raised := nofun
  illegal_reserved h := nomatch h
  invalid_decoder h := nomatch h
  errIndex_in h := nomatch h
  errIndex_zero _ := rfl
  input_typed := capture_typed 0#4 Lanes.empty
  out_typed h := nomatch h
  work_in_range := workInRange_of_fresh rfl
  in_widths _ _ := fitsWidths_of_fresh rfl rfl _

/-- Settles O57: reset is such a state. -/
theorem invariantHoldsAtReset : Obligations.InvariantHoldsAtReset := inv_after_reset defaultParams [] 0

/-- A block right after an accepted START (rules R35, R39, R161). -/
theorem inv_after_start (s : State) (r : Request) : (s.acceptStart r).Inv where
  idle_reset h := nomatch h
  busy_fresh _ := ⟨rfl, rfl, rfl, rfl⟩
  code_raised := nofun
  illegal_reserved h := nomatch h
  invalid_decoder h := nomatch h
  errIndex_in h := nomatch h
  errIndex_zero _ := rfl
  input_typed := capture_typed r.cmd r.input
  out_typed h := nomatch h
  work_in_range := workInRange_of_fresh rfl
  in_widths _ _ := fitsWidths_of_fresh rfl rfl _

/-- No clause speaks of the host's coming moves. -/
theorem State.Inv.withHost {s : State} (h : s.Inv) (l : List HostEvent) : ({ s with host := l } : State).Inv where
  idle_reset hp := congrArg (fun u : State => { u with host := l }) (h.idle_reset hp)
  busy_fresh := h.busy_fresh
  code_raised := h.code_raised
  illegal_reserved := h.illegal_reserved
  invalid_decoder := h.invalid_decoder
  errIndex_in := h.errIndex_in
  errIndex_zero := h.errIndex_zero
  input_typed := h.input_typed
  out_typed := h.out_typed
  work_in_range := { h.work_in_range with }
  in_widths n hn := { h.in_widths n hn with }

theorem State.Inv.passMove {s : State} (h : s.Inv) : s.passMove.Inv := by
  rw [passMove_eq]; exact h.withHost _

/-- A transaction that ends before its operation runs leaves the fresh registers: IllegalCommand of a reserved command, or CapacityExceeded (rules R144, R145). -/
theorem State.Inv.terminate_fresh {s : State} (h : s.Inv) (hb : s.phase = .busy) {c : Code}
    (hc : c = .illegalCommand ∧ rsvField s.op = 1 ∨ c = .capacityExceeded) : (s.terminate c 0).Inv := by
  obtain ⟨hw, -, -, -⟩ := h.busy_fresh hb
  have he : (s.terminate c 0).errIndex = 0 := fitIndex_zero s.params
  have hne : c ≠ .invalidEncoding := by rcases hc with ⟨rfl, -⟩ | rfl <;> nofun
  exact
    { idle_reset := nofun
      busy_fresh := nofun
      code_raised := by rcases hc with ⟨rfl, -⟩ | rfl <;> nofun
      illegal_reserved := fun hi => by
        rcases hc with ⟨-, hr⟩ | rfl
        · exact hr
        · cases hi
      invalid_decoder := fun hi => absurd hi hne
      errIndex_in := fun hi => absurd hi hne
      errIndex_zero := fun _ => he
      input_typed := h.input_typed
      out_typed := fun _ hok => by
        rcases hc with ⟨rfl, -⟩ | rfl
        · cases hok
        · cases hok
      work_in_range := workInRange_of_fresh hw
      in_widths := fun n _ => fitsWidths_of_fresh (s := s.terminate c 0) hw he n }

/-- Both lanes of an input within MAX_IN_LEN are: the one the operation does not read is empty (rules R39, R145). -/
theorem State.Inv.lanes_le {s : State} (h : s.Inv) {i : Instr} (hd : decode s.op = .command i)
    (hx : Params.exceeds s.params (s.inLen i.dir) = false) {n : Nat} (hn : s.params.maxInLen = some n) :
    s.input.bytes.length ≤ n ∧ s.input.text.length ≤ n := by
  have hlen : s.inLen i.dir ≤ n := by simpa [Params.exceeds, hn] using hx
  have htyped := h.input_typed
  rw [eq_encode_of_decode hd, encode_getLsbD_zero] at htyped
  cases hi : i.dir with
  | enc => simp_all [State.inLen]
  | dec => simp_all [State.inLen]

theorem State.WithinInput.congr {u t : State} {d : Dir} (h : u.WithinInput d) (hwork : t.work = u.work)
    (hinput : t.input = u.input) : t.WithinInput d := by
  cases u; cases t; cases hwork; cases hinput
  exact { h with }

/-- The input's lanes stay typed while the command and the input are kept. -/
theorem State.Inv.input_typed_of_keeps {s t : State} (h : s.Inv) (hkeep : KeepsCommand s t) :
    if t.op.getLsbD 0 then t.input.bytes = [] else t.input.text = [] := by
  rw [hkeep.op, hkeep.input]; exact h.input_typed

section
variable {s u : State} {i : Instr} (h : s.Inv) (hb : s.phase = .busy) (hd : decode s.op = .command i)
  (hx : Params.exceeds s.params (s.inLen i.dir) = false)
include h hb

/-- What the body of an operation leaves is within its input, whatever becomes of STATE, CODE, ERR_INDEX and OUT. -/
theorem State.Inv.withinInput_after {t : State} (hkeep : KeepsCommand s t)
    (hwork : t.work = (bodyOf i s).state.work) : t.WithinInput i.dir := by
  obtain ⟨hw, -, -, -⟩ := h.busy_fresh hb
  exact (bodyOf_withinInput i hw).congr hwork (hkeep.input.trans (bodyOf_keepsCommand i s).input.symm)

include hd

/-- The output of a body that returns is typed by its direction (rules R24, R39). -/
theorem State.Inv.out_typed_after :
    if s.op.getLsbD 0 then (bodyOf i s).state.out.text = [] else (bodyOf i s).state.out.bytes = [] := by
  obtain ⟨-, hout, -, -⟩ := h.busy_fresh hb
  rw [eq_encode_of_decode hd, encode_getLsbD_zero]
  cases hi : i.dir with
  | enc => simpa [hout, Lanes.empty] using (encoder_keeps_bytes_draws hi s).1
  | dec => simpa [hout, Lanes.empty] using decoder_keeps_text hi s

include hx

theorem State.Inv.fitsWidths_after {t : State} (hkeep : KeepsCommand s t)
    (hwork : t.work = (bodyOf i s).state.work) {n : Nat} (hn : t.params.maxInLen = some n)
    (he : t.errIndex < 2 ^ indexWidth n) : t.FitsWidths n := by
  obtain ⟨hbytes, htext⟩ := h.lanes_le hd hx (hkeep.params ▸ hn)
  refine (h.withinInput_after hb hkeep hwork).fitsWidths (fun k hk => ?_) ?_ ?_ he
  · rw [hkeep.op, hd] at hk; cases hk; rfl
  · rw [hkeep.input]; exact hbytes
  · rw [hkeep.input]; exact htext

/-- An operation that returns completes in a state of the invariant (rule R162). -/
theorem State.Inv.complete_after (hu : bodyOf i s = .returns u) : u.complete.Inv := by
  have hstate : (bodyOf i s).state = u := by rw [hu]; rfl
  have hkeep : KeepsCommand s u.complete := hstate ▸ (bodyOf_keepsCommand i s).trans (.complete _)
  have hwork : u.complete.work = (bodyOf i s).state.work := hstate ▸ rfl
  exact
    { idle_reset := nofun
      busy_fresh := nofun
      code_raised := nofun
      illegal_reserved := nofun
      invalid_decoder := nofun
      errIndex_in := nofun
      errIndex_zero := fun _ => rfl
      input_typed := h.input_typed_of_keeps hkeep
      out_typed := fun _ _ => by
        have hout := h.out_typed_after hb hd
        rw [hstate] at hout
        rw [hkeep.op]; exact hout
      work_in_range := (h.withinInput_after hb hkeep hwork).toWorkInRange
      in_widths := fun _ hn => h.fitsWidths_after hb hd hx hkeep hwork hn (Nat.two_pow_pos _) }

/-- An operation that raises ends in a state of the invariant, ERR_INDEX naming a unit of its text (rules R21, R142, R146). -/
theorem State.Inv.terminate_after {j : Nat} (hu : bodyOf i s = .raises j u) : (u.terminate .invalidEncoding j).Inv := by
  obtain ⟨hw, -, -, -⟩ := h.busy_fresh hb
  have hstate : (bodyOf i s).state = u := by rw [hu]; rfl
  have hkeep : KeepsCommand s (u.terminate .invalidEncoding j) :=
    hstate ▸ (bodyOf_keepsCommand i s).trans (.terminate _ _ _)
  have hwork : (u.terminate .invalidEncoding j).work = (bodyOf i s).state.work := hstate ▸ rfl
  exact
    { idle_reset := nofun
      busy_fresh := nofun
      code_raised := nofun
      illegal_reserved := nofun
      invalid_decoder := fun _ => by
        rw [hkeep.op, eq_encode_of_decode hd]
        rcases raises_decoder hu with rfl | rfl | rfl <;> decide
      errIndex_in := fun _ => by
        rw [hkeep.input]
        exact (fitIndex_le u.params j).trans_lt (raises_index_lt hw hu)
      errIndex_zero := fun hne => absurd rfl hne
      input_typed := h.input_typed_of_keeps hkeep
      out_typed := nofun
      work_in_range := (h.withinInput_after hb hkeep hwork).toWorkInRange
      in_widths := fun _ hn => h.fitsWidths_after hb hd hx hkeep hwork hn (fitIndex_lt hn j) }

end

/-- A completion keeps the invariant (rules R144 to R147, R162). -/
theorem State.Inv.finishTransaction {s t : State} (h : s.Inv) (hb : s.phase = .busy)
    (ht : Machine.finishTransaction s = .next t) : t.Inv := by
  rcases finishTransaction_cases ht with ⟨op, hd, rfl⟩ | ⟨i, hd, hi⟩
  · exact h.terminate_fresh hb (.inl ⟨rfl, rsvField_of_decode_reserved hd⟩)
  · rcases transact_cases hi with ⟨-, rfl⟩ | ⟨hx, ⟨u, hu, rfl⟩ | ⟨j, u, hu, rfl⟩⟩
    · exact h.terminate_fresh hb (.inr rfl)
    · exact h.complete_after hb hd hx hu
    · exact h.terminate_after hb hd hx hu

/-- A move of the host keeps the invariant (rules R160, R161, R170). -/
theorem State.Inv.idleStep {s : State} (h : s.Inv) : s.idleStep.Inv := by
  by_cases hstart : ∃ r, s.host.head? = some (.start r)
  · obtain ⟨r, hr⟩ := hstart
    rw [idleStep_of_start hr]; exact inv_after_start _ r
  · rw [idleStep_of_no_start (not_exists.1 hstart)]; exact h.passMove

/-- Settles O58: a step is a reset, a completion or a move of the host, and each keeps the invariant. -/
theorem everyStepKeepsTheInvariant : Obligations.EveryStepKeepsTheInvariant := by
  intro s t h ht
  rcases step_cases ht with ⟨-, rfl⟩ | ⟨-, hb, hfin⟩ | ⟨-, -, rfl⟩
  · exact inv_after_reset s.params s.host.tail s.draws
  · exact h.passMove.finishTransaction (by rw [passMove_eq]; exact hb) hfin
  · exact h.idleStep

end Sys2Proof.Machine
end

section
/-! PROOFS of the state family, continued: the output lengths (O30).
Encoders: the units a body emits, counted against the groups, chunks or digits that are left. Decoders: a measure that each unit of the walk raises by at most its share. -/

namespace Sys2Proof.Machine

/-! ### How many groups are left -/

/-- `ceil` of the bits behind the cursor by k: the groups nextGroup still answers (rules R74, R76). -/
def State.groupsLeft (s : State) (k : Nat) : Nat :=
  (8 * s.input.bytes.length - (8 * s.work.curByte + s.work.curBit.toNat) + (k - 1)) / k

/-- Taking k bits off takes one off their `ceil` by k. -/
theorem ceil_div_eq_succ {x k : Nat} (hk : 0 < k) (hx : 0 < x) : (x + (k - 1)) / k = (x - k + (k - 1)) / k + 1 := by
  rcases Nat.lt_or_ge x k with h | h
  · rw [show x + (k - 1) = (x - 1) + k by omega, Nat.add_div_right _ hk, Nat.div_eq_of_lt (by omega : x - 1 < k),
      Nat.div_eq_of_lt (by omega)]
  · rw [show x + (k - 1) = (x - k + (k - 1)) + k by omega, Nat.add_div_right _ hk]

theorem groupsLeft_of_none {k : Nat} (hk : 0 < k) {s s' : State} (h : nextGroup k s = (none, s')) :
    s' = s ∧ s.groupsLeft k = 0 := by
  rcases nextGroup_cases k s with ⟨hend, hn⟩ | ⟨-, v, hn⟩ <;> rw [hn] at h <;> cases h
  exact ⟨rfl, Nat.div_eq_of_lt (by omega)⟩

theorem groupsLeft_of_some {k : Nat} (hk : 0 < k) (hk8 : k ≤ 8) {s s' : State} {v : BitVec k}
    (h : nextGroup k s = (some v, s')) : s.groupsLeft k = s'.groupsLeft k + 1 ∧ s'.out = s.out := by
  rcases nextGroup_cases k s with ⟨-, hn⟩ | ⟨hlt, w, hn⟩ <;> rw [hn] at h <;> cases h
  have hpos := advanceCursor_position s hk8
  have hbit := s.work.curBit.isLt
  refine ⟨?_, State.advanceCursor_out s k⟩
  rw [State.groupsLeft, State.groupsLeft, State.advanceCursor_input, hpos, ← Nat.sub_sub _ _ k]
  exact ceil_div_eq_succ hk (by omega)

/-- A fresh cursor has all of IN before it (rule R74). -/
theorem groupsLeft_of_fresh {s : State} (h : s.work = Work.reset) (k : Nat) :
    s.groupsLeft k = (8 * s.input.bytes.length + (k - 1)) / k := by
  simp [State.groupsLeft, h, Work.reset]

/-! ### Encoders -/

/-- B32ENC emits one symbol for each group (rules R82, R83). -/
theorem b32EncLoop_text_length : ∀ (fuel : Nat) (s : State), s.groupsLeft 5 < fuel →
    (b32EncLoop fuel s).out.text.length = s.out.text.length + s.groupsLeft 5
  | fuel + 1, s, h => by
    rw [b32EncLoop]
    split
    · rename_i s' hn
      obtain ⟨rfl, hleft⟩ := groupsLeft_of_none (k := 5) (by decide) hn
      omega
    · rename_i v s' hn
      obtain ⟨hleft, hout⟩ := groupsLeft_of_some (k := 5) (by decide) (by decide) hn
      have hemit : (s'.emitText [b32Symbol v]).groupsLeft 5 = s'.groupsLeft 5 := rfl
      rw [b32EncLoop_text_length fuel _ (by omega), hemit, State.emitText_out, hout, List.length_append,
        List.length_singleton]
      omega

/-- An escape emits one unit, whether it takes a group for it or not (rules R128, R129). -/
theorem b122EncEscape_text_length (idx : Fin 6) (g : BitVec 7) (s : State) :
    (b122EncEscape idx g s).out.text.length + (b122EncEscape idx g s).groupsLeft 7 ≤
      s.out.text.length + s.groupsLeft 7 + 1 := by
  have hpend : (s.setPend (some { idx := idx, group := g })).groupsLeft 7 = s.groupsLeft 7 := rfl
  unfold b122EncEscape
  split
  · rename_i h s' hn
    obtain ⟨hleft, hout⟩ := groupsLeft_of_some (k := 7) (by decide) (by decide) hn
    show (s'.out.text ++ [_]).length + s'.groupsLeft 7 ≤ _
    rw [hout, List.length_append, List.length_singleton]
    show s.out.text.length + 1 + _ ≤ _
    omega
  · rename_i s' hn
    obtain ⟨rfl, hleft⟩ := groupsLeft_of_none (k := 7) (by decide) hn
    show (s.out.text ++ [_]).length + s.groupsLeft 7 ≤ _
    rw [List.length_append, List.length_singleton]
    omega

/-- B122ENC emits at most one unit for each group (rules R127 to R131). -/
theorem b122EncLoop_text_length_le : ∀ (fuel : Nat) (s : State),
    (b122EncLoop fuel s).out.text.length ≤ s.out.text.length + s.groupsLeft 7
  | 0, s => Nat.le_add_right _ _
  | fuel + 1, s => by
    rw [b122EncLoop]
    split
    · rename_i s' hn
      obtain ⟨rfl, -⟩ := groupsLeft_of_none (k := 7) (by decide) hn
      exact Nat.le_add_right _ _
    · rename_i g s' hn
      obtain ⟨hleft, hout⟩ := groupsLeft_of_some (k := 7) (by decide) (by decide) hn
      split
      · have hnext := b122EncLoop_text_length_le fuel (s'.emitText [plainUnit g])
        have hemit : (s'.emitText [plainUnit g]).groupsLeft 7 = s'.groupsLeft 7 := rfl
        rw [hemit, State.emitText_out, hout, List.length_append, List.length_singleton] at hnext
        omega
      · rename_i idx _
        have hnext := b122EncLoop_text_length_le fuel (b122EncEscape idx g s')
        have hesc := b122EncEscape_text_length idx g s'
        rw [hout] at hesc
        omega

/-- How many of the chunks of B85ENC are four zero bytes (rules R98, R101). -/
def b85ZeroChunks (b : List Byte) : Nat :=
  ((Closed.b85Chunks b).filter fun c => decide (c = [0#8, 0#8, 0#8, 0#8])).length

/-- The first four bytes are the first chunk (rule R97). -/
theorem b85Chunks_cons (a b c d : Byte) (rest : List Byte) :
    Closed.b85Chunks (a :: b :: c :: d :: rest) = [a, b, c, d] :: Closed.b85Chunks rest := by
  have hcount : ((a :: b :: c :: d :: rest).length + 3) / 4 = (rest.length + 3) / 4 + 1 := by
    simp only [List.length_cons]; omega
  rw [Closed.b85Chunks, hcount, List.range_succ_eq_map, List.map_cons, List.map_map]
  rfl

theorem b85ZeroChunks_cons (a b c d : Byte) (rest : List Byte) :
    b85ZeroChunks (a :: b :: c :: d :: rest) =
      (if [a, b, c, d] = [0#8, 0#8, 0#8, 0#8] then 1 else 0) + b85ZeroChunks rest := by
  rw [b85ZeroChunks, b85Chunks_cons, List.filter_cons]
  split <;> simp_all [b85ZeroChunks, Nat.add_comm]

/-- The value of a full chunk is 0 exactly when its bytes are (rule R98). -/
theorem b85ChunkValue_eq_zero_iff (a b c d : Byte) :
    (BitVec.ofNat 32 (b85ChunkValue [a, b, c, d])).toNat = 0 ↔ [a, b, c, d] = [0#8, 0#8, 0#8, 0#8] := by
  have hval : b85ChunkValue [a, b, c, d] = 256 * (256 * (256 * a.toNat + b.toNat) + c.toNat) + d.toNat := by
    simp [b85ChunkValue, beNat]
  have ha := a.isLt
  have hb := b.isLt
  have hc := c.isLt
  have hd := d.isLt
  simp only [hval, List.cons.injEq, and_true, BitVec.toNat_eq, BitVec.toNat_ofNat]
  omega

theorem b85ChunkText_length (chunk cnt : Nat) (h : cnt ≤ 4) :
    (b85ChunkText chunk cnt).length = if cnt = 4 ∧ chunk = 0 then 1 else cnt + 1 := by
  unfold b85ChunkText
  split
  · rfl
  · simp [b85Digits]; omega

theorem b85EncChunk_text_length {bs : List Byte} (h : bs.length ≤ 4) (s : State) :
    (b85EncChunk bs s).out.text.length = s.out.text.length +
      if bs.length = 4 ∧ (BitVec.ofNat 32 (b85ChunkValue bs)).toNat = 0 then 1 else bs.length + 1 := by
  have hcnt : (BitVec.ofNat 3 bs.length).toNat = bs.length := by
    rw [BitVec.toNat_ofNat]; exact Nat.mod_eq_of_lt (by omega)
  have htext : (b85EncChunk bs s).out.text =
    s.out.text ++ b85ChunkText (BitVec.ofNat 32 (b85ChunkValue bs)).toNat (BitVec.ofNat 3 bs.length).toNat := rfl
  rw [htext, List.length_append, hcnt, b85ChunkText_length _ _ h]

/-- A full chunk gives one symbol when it is zero, and five otherwise (rules R98, R99). -/
theorem b85EncChunk_full_length (a b c d : Byte) (s : State) :
    (b85EncChunk [a, b, c, d] s).out.text.length =
      s.out.text.length + if [a, b, c, d] = [0#8, 0#8, 0#8, 0#8] then 1 else 5 := by
  rw [b85EncChunk_text_length (bs := [a, b, c, d]) le_rfl]
  simp only [b85ChunkValue_eq_zero_iff, List.length_cons, List.length_nil, true_and, Nat.reduceAdd]

theorem b85ZeroChunks_of_short {b : List Byte} (h : b.length < 4) : b85ZeroChunks b = 0 := by
  rw [b85ZeroChunks, List.length_eq_zero_iff, List.filter_eq_nil_iff]
  intro c hc hzero
  obtain ⟨q, -, rfl⟩ := List.mem_map.1 hc
  have hlen := congrArg List.length (of_decide_eq_true hzero)
  simp only [List.length_take, List.length_drop, List.length_cons, List.length_nil] at hlen
  omega

theorem b85ZeroChunks_le : ∀ b : List Byte, b85ZeroChunks b ≤ b.length / 4
  | [] | [_] | [_, _] | [_, _, _] => by rw [b85ZeroChunks_of_short (by simp)]; exact Nat.zero_le _
  | a :: b :: c :: d :: rest => by
    have hrest := b85ZeroChunks_le rest
    rw [b85ZeroChunks_cons]
    simp only [List.length_cons]
    split <;> omega

/-- The symbols B85ENC gives for n bytes with z zero chunks: 5 for another full chunk, 1 for a zero one, and r + 1 for a last chunk of r bytes (rule R101). -/
def b85TextLength (n z : Nat) : Nat := 5 * (n / 4 - z) + z + (if 0 < n % 4 then n % 4 + 1 else 0)

/-- A last chunk of r = 1 to 3 bytes gives r + 1 symbols (rule R100). -/
theorem b85EncChunk_tail_length {bs : List Byte} (h0 : 0 < bs.length) (h4 : bs.length < 4) (s : State) :
    (b85EncChunk bs s).out.text.length = s.out.text.length + b85TextLength bs.length (b85ZeroChunks bs) := by
  rw [b85EncChunk_text_length h4.le, if_neg fun hc => h4.ne hc.1, b85ZeroChunks_of_short h4, b85TextLength,
    Nat.div_eq_of_lt h4, Nat.mod_eq_of_lt h4, if_pos h0]
  omega

theorem b85EncLoop_text_length : ∀ (bs : List Byte) (s : State),
    (b85EncLoop bs s).out.text.length = s.out.text.length + b85TextLength bs.length (b85ZeroChunks bs)
  | [], _ => rfl
  | [a], s => b85EncChunk_tail_length (bs := [a]) (by simp) (by simp) s
  | [a, b], s => b85EncChunk_tail_length (bs := [a, b]) (by simp) (by simp) s
  | [a, b, c], s => b85EncChunk_tail_length (bs := [a, b, c]) (by simp) (by simp) s
  | a :: b :: c :: d :: rest, s => by
    have hle := b85ZeroChunks_le rest
    have hmod : (rest.length + 4) % 4 = rest.length % 4 := Nat.add_mod_right _ _
    rw [b85EncLoop, b85EncLoop_text_length rest, b85EncChunk_full_length, b85ZeroChunks_cons]
    simp only [b85TextLength, List.length_cons, hmod]
    split <;> omega

/-- A number below 58^m has at most m base-58 digits (rule R115). -/
theorem b58DigitLoop_length_le : ∀ (fuel m : Nat) (s : State) (ds : List (Fin 58)), s.work.big < 58 ^ m →
    (b58DigitLoop fuel s ds).1.length ≤ ds.length + m
  | 0, m, s, ds, _ => Nat.le_add_right _ _
  | fuel + 1, m, s, ds, h => by
    rw [b58DigitLoop]
    split
    · exact Nat.le_add_right _ _
    · rename_i hne
      cases m with
      | zero => exact absurd (Nat.lt_one_iff.1 h) hne
      | succ m =>
        have hdiv : s.work.big / 58 < 58 ^ m := Nat.div_lt_of_lt_mul (by rw [pow_succ, Nat.mul_comm] at h; exact h)
        have hnext := b58DigitLoop_length_le fuel m { s with work.big := s.work.big / 58 }
          (ds ++ [⟨s.work.big % 58, Nat.mod_lt _ (by decide)⟩]) hdiv
        rw [List.length_append, List.length_singleton] at hnext
        omega

/-- A number below 256^m has at most m bytes (rule R12). -/
theorem minBeInto_length_le : ∀ (fuel m v : Nat) (tail : List Byte), v < 256 ^ m →
    (minBeInto fuel v tail).length ≤ tail.length + m
  | 0, m, v, tail, _ => Nat.le_add_right _ _
  | fuel + 1, m, v, tail, h => by
    rw [minBeInto]
    split
    · exact Nat.le_add_right _ _
    · rename_i hne
      cases m with
      | zero => exact absurd (Nat.lt_one_iff.1 h) hne
      | succ m =>
        have hdiv : v / 256 < 256 ^ m := Nat.div_lt_of_lt_mul (by rw [pow_succ, Nat.mul_comm] at h; exact h)
        have hnext := minBeInto_length_le fuel m (v / 256) (BitVec.ofNat 8 v :: tail) hdiv
        rw [List.length_cons] at hnext
        omega

theorem minBe_length_le {v m : Nat} (h : v < 256 ^ m) : (minBe v).length ≤ m := by
  exact (minBeInto_length_le (Nat.log2 v + 1) m v [] h).trans_eq (Nat.zero_add m)

/-- B58ENC emits at most one symbol for each leading zero byte and each base-58 digit (rule R117). -/
theorem b58EncBody_text_length_le (s : State) :
    (b58EncBody s).state.out.text.length ≤ s.out.text.length + outBound .b58enc s.input.bytes.length := by
  unfold b58EncBody
  split
  · exact Nat.le_add_right _ _
  · have hdigits := b58DigitLoop_length_le (Nat.log2 s.loadBig.work.big + 1)
      (Nat.clog 58 (256 ^ s.input.bytes.length)) s.loadBig []
      ((beNat_lt s.input.bytes).trans_le (Nat.le_pow_clog (by decide) _))
    have hlead := lead_le_length 0 s.input.bytes
    have hout : (b58DigitLoop (Nat.log2 s.loadBig.work.big + 1) s.loadBig []).2.out = s.out := by
      rw [b58DigitLoop_frame]; rfl
    have hz : (b58DigitLoop (Nat.log2 s.loadBig.work.big + 1) s.loadBig []).2.work.zcount = lead 0 s.input.bytes := by
      rw [b58DigitLoop_frame]; rfl
    rw [OpResult.state_returns, b58EncEmit]
    simp only [State.emitText_out, List.length_append, List.length_replicate, List.length_map, List.length_reverse,
      hout, hz, outBound]
    rw [List.length_nil, Nat.zero_add] at hdigits
    omega

section
variable {s : State} (hw : s.work = Work.reset) (hout : s.out = Lanes.empty)
include hw hout

theorem b32Enc_outLen : (bodyOf .b32enc s).state.outLen .enc = (8 * s.input.bytes.length + 4) / 5 := by
  have hleft := groupsLeft_of_fresh hw 5
  have hlen := b32EncLoop_text_length s.groupFuel s (by rw [hleft, State.groupFuel]; omega)
  rw [hleft, hout] at hlen
  exact hlen.trans (Nat.zero_add _)

omit hw in
theorem b85Enc_outLen :
    (bodyOf .b85enc s).state.outLen .enc = b85TextLength s.input.bytes.length (b85ZeroChunks s.input.bytes) := by
  have hlen := b85EncLoop_text_length s.input.bytes s
  rw [hout] at hlen
  exact hlen.trans (Nat.zero_add _)

omit hw in
theorem b58Enc_outLen_le : (bodyOf .b58enc s).state.outLen .enc ≤ outBound .b58enc s.input.bytes.length := by
  have hlen := b58EncBody_text_length_le s
  rw [hout] at hlen
  exact hlen.trans_eq (Nat.zero_add _)

theorem b122Enc_outLen_le : (bodyOf .b122enc s).state.outLen .enc ≤ outBound .b122enc s.input.bytes.length := by
  have hlen := b122EncLoop_text_length_le s.groupFuel s
  rw [groupsLeft_of_fresh hw, hout] at hlen
  exact hlen.trans_eq (Nat.zero_add _)

end

theorem b85TextLength_le {n z : Nat} (h : z ≤ n / 4) : b85TextLength n z ≤ outBound .b85enc n := by
  simp only [b85TextLength, outBound]
  split <;> omega

/-! ### Decoders -/

/-- What holds of the final state if the operation returns; a raise delivers no output to measure (rule R146). -/
abbrev OpResult.IfReturns (P : State → Prop) (r : OpResult) : Prop := r.Ends P fun _ => True

theorem OpResult.IfReturns.imp {P P' : State → Prop} {r : OpResult} (h : r.IfReturns P) (hP : ∀ s, P s → P' s) :
    r.IfReturns P' :=
  Ends.imp h hP fun _ h => h

/-- A walk whose units raise a measure by at most k each raises it by at most k for each of its units. -/
theorem forUnits_measure_le {μ : State → Nat} {k : Nat} {f : CodePoint → State → OpResult}
    (hf : ∀ c s, (f c s).IfReturns fun t => μ t ≤ μ s + k) (ha : ∀ s, μ s.advancePos = μ s)
    (cs : List CodePoint) (s : State) :
    (forUnits f cs s).IfReturns fun t => μ t ≤ μ s + k * cs.length := by
  refine forUnits_ends (P := fun rest t => μ t + k * rest.length ≤ μ s + k * cs.length) (Q := fun _ => True)
    (fun c rest t ht => ?_) cs s le_rfl
  refine (hf c t).imp fun u hu => ?_
  rw [List.length_cons, Nat.mul_succ] at ht
  rw [ha]; omega

/-- The bits pushed so far: those in OUT and those in ACC (rules R27, R78). -/
def State.bitsPushed (s : State) : Nat := 8 * s.out.bytes.length + s.work.accCnt.toNat

/-- pushGroup pushes k bits (rule R78). -/
theorem pushGroup_bitsPushed {k : Nat} (hk : k ≤ 8) (v : BitVec k) (s : State) :
    (pushGroup v s).bitsPushed = s.bitsPushed + k := by
  have hcnt := s.work.accCnt.isLt
  rw [State.bitsPushed, State.bitsPushed, pushGroup_accCnt hk, pushGroup_bytes, List.length_append]
  split
  · rw [List.length_singleton]; omega
  · rw [List.length_nil]; omega

theorem b32DecUnit_bitsPushed_le (c : CodePoint) (s : State) :
    (b32DecUnit c s).IfReturns fun t => t.bitsPushed ≤ s.bitsPushed + 5 := by
  unfold b32DecUnit
  split
  · exact Nat.le_add_right _ _
  · split
    · exact (pushGroup_bitsPushed (by decide) _ s).le
    · trivial

theorem b122PushIllegal_bitsPushed (idx : BitVec 3) (s : State) :
    (b122PushIllegal idx s).bitsPushed = s.bitsPushed + 7 := by
  unfold b122PushIllegal
  split
  · exact pushGroup_bitsPushed (by decide) _ s
  · exact pushGroup_bitsPushed (by decide) _ _

theorem b122DecUnit_bitsPushed_le (c : CodePoint) (s : State) :
    (b122DecUnit c s).IfReturns fun t => t.bitsPushed ≤ s.bitsPushed + 14 := by
  have hpush : ∀ t, (pushGroup (escapePayload c) t).bitsPushed = t.bitsPushed + 7 :=
    pushGroup_bitsPushed (by decide) _
  unfold b122DecUnit
  split
  · exact (hpush s).trans_le (by omega)
  split
  · exact (hpush s).trans_le (by omega)
  · exact ((hpush _).trans (by rw [b122PushIllegal_bitsPushed])).le

/-- The bytes emitted and the digits that wait in the group buffer. -/
def State.bytesAndDigits (s : State) : Nat := s.out.bytes.length + s.work.b85Cnt.toNat

/-- A group of m digits gives at most m - 1 bytes (rules R106, R108). -/
theorem b85EmitGroup_bytes_le (m i : Nat) (s : State) :
    (b85EmitGroup m i s).IfReturns fun t => t.out.bytes.length ≤ s.out.bytes.length + (m - 1) ∧ t.work = s.work := by
  unfold b85EmitGroup
  split
  · trivial
  · refine ⟨?_, rfl⟩
    rw [State.emitBytes_out, List.length_append, List.length_take]
    exact Nat.add_le_add_left (Nat.min_le_left _ _) _

theorem b85FullGroup_bytesAndDigits_le (s : State) :
    (b85FullGroup s).IfReturns fun t => t.bytesAndDigits ≤ s.bytesAndDigits := by
  unfold b85FullGroup
  split
  · rename_i hcnt
    have hemit := b85EmitGroup_bytes_le 5 s.work.pos s
    cases hr : b85EmitGroup 5 s.work.pos s with
    | raises i t => trivial
    | returns t =>
      rw [hr] at hemit
      have hbytes : t.out.bytes.length ≤ s.out.bytes.length + 4 := hemit.1
      show t.out.bytes.length + 0 ≤ s.out.bytes.length + s.work.b85Cnt.toNat
      rw [hcnt]
      exact hbytes.trans (Nat.add_le_add_left (by decide) _)
  · exact le_rfl

theorem b85DecUnit_bytesAndDigits_le (c : CodePoint) (s : State) :
    (b85DecUnit c s).IfReturns fun t => t.bytesAndDigits ≤ s.bytesAndDigits + 4 := by
  unfold b85DecUnit
  split
  · exact Nat.le_add_right _ _
  split
  · split
    · show (s.out.bytes ++ [0, 0, 0, 0]).length + s.work.b85Cnt.toNat ≤ s.out.bytes.length + s.work.b85Cnt.toNat + 4
      rw [List.length_append]
      exact (Nat.add_right_comm _ 4 _).le
    · trivial
  split
  · refine (b85FullGroup_bytesAndDigits_le (b85PushDigit (c.toNat - 0x21) s)).imp fun t ht => ht.trans ?_
    have hnext : (b85PushDigit (c.toNat - 0x21) s).work.b85Cnt.toNat = (s.work.b85Cnt.toNat + 1) % 2 ^ 3 :=
      BitVec.toNat_add _ _
    have hout : (b85PushDigit (c.toNat - 0x21) s).out = s.out := rfl
    rw [State.bytesAndDigits, State.bytesAndDigits, hout]
    omega
  · trivial

theorem b85DecTail_bytes_le (s : State) :
    (b85DecTail s).IfReturns fun t => t.out.bytes.length ≤ s.bytesAndDigits := by
  unfold b85DecTail
  split
  · exact Nat.le_add_right _ _
  · refine (b85EmitGroup_bytes_le _ _ _).imp fun t ht => ht.1.trans ?_
    exact Nat.add_le_add_left (Nat.sub_le _ _) _

theorem b85DecBody_bytes_le (s : State) :
    (b85DecBody s).IfReturns fun t => t.out.bytes.length ≤ s.out.bytes.length + 4 * s.input.text.length := by
  have hwalk := forUnits_measure_le b85DecUnit_bytesAndDigits_le (fun _ => rfl) s.input.text
    { s with work.b85Cnt := 0 }
  unfold b85DecBody
  cases hr : forUnits b85DecUnit s.input.text { s with work.b85Cnt := 0 } with
  | raises i t => trivial
  | returns t =>
    rw [hr] at hwalk
    exact (b85DecTail_bytes_le t).imp fun _ hu => hu.trans hwalk

theorem b58DecUnit_out (c : CodePoint) (s : State) : (b58DecUnit c s).state.out = s.out := by
  unfold b58DecUnit; split <;> rfl

/-- B58DEC emits a byte for each leading `1`, and of the rest at most a byte for each symbol (rules R122 to R124). -/
theorem b58DecBody_bytes_le (s : State) :
    (b58DecBody s).IfReturns fun t => t.out.bytes.length ≤ s.out.bytes.length + s.input.text.length := by
  have hlen := b58Trimmed_length_le s.params s.input.text
  have hlead := lead_le_length (b58Symbol 0) (b58Trimmed s.params s.input.text)
  unfold b58DecBody
  split
  · exact Nat.le_add_right _ _
  · have hbig := forUnits_b58DecUnit_big_lt_of_zero (b58Trimmed s.params s.input.text)
      { s with work.big := 0, work.pos := b58Skip s.params s.input.text } rfl
    have hout := forUnits_preserves (P := fun t => t.out = s.out) (f := b58DecUnit)
      (fun c t ht => (b58DecUnit_out c t).trans ht) (fun _ ht => ht) (b58Trimmed s.params s.input.text)
      { s with work.big := 0, work.pos := b58Skip s.params s.input.text } rfl
    cases hr : forUnits b58DecUnit (b58Trimmed s.params s.input.text)
        { s with work.big := 0, work.pos := b58Skip s.params s.input.text } with
    | raises i t => trivial
    | returns t =>
      rw [hr, OpResult.state_returns] at hbig hout
      have hmin := minBe_length_le (hbig.trans_le (Nat.pow_le_pow_left (by decide : 58 ≤ 256) _))
      show (t.out.bytes ++ _ ++ _).length ≤ _
      rw [hout, List.length_append, List.length_append, List.length_replicate]
      omega

/-- Where a body that returns leaves at most n bytes, its final state does. -/
theorem outLen_dec_le_of_ends {r : OpResult} {u : State} {n : Nat}
    (h : r.IfReturns fun t => t.out.bytes.length ≤ n) (hu : r = .returns u) : u.outLen .dec ≤ n := by
  rw [hu] at h; exact h

/-- A walk that pushes at most k bits for each unit of its text leaves at most `k * n / 8` bytes. -/
theorem forUnits_bytes_le {k : Nat} {f : CodePoint → State → OpResult}
    (hf : ∀ c s, (f c s).IfReturns fun t => t.bitsPushed ≤ s.bitsPushed + k) (cs : List CodePoint)
    {s : State} (hw : s.work = Work.reset) (hout : s.out = Lanes.empty) :
    (forUnits f cs s).IfReturns fun t => t.out.bytes.length ≤ k * cs.length / 8 := by
  have hzero : s.bitsPushed = 0 := by simp [State.bitsPushed, hw, hout, Work.reset, Lanes.empty]
  refine (forUnits_measure_le hf (fun _ => rfl) cs s).imp fun t ht => ?_
  rw [hzero, State.bitsPushed] at ht
  omega

section
variable {s u : State} (hw : s.work = Work.reset) (hout : s.out = Lanes.empty)
include hw hout

/-- Every body that returns from a fresh state, B122DEC's on well-formed text, keeps to the bound of rule R40. -/
theorem bodyOf_outLen_le {i : Instr} (hwf : i = .b122dec → b122WellFormedText s.params s.input.text = true)
    (hu : bodyOf i s = .returns u) : u.outLen i.dir ≤ outBound i (s.inLen i.dir) := by
  have hstate : (bodyOf i s).state = u := by rw [hu]; rfl
  have hbytes : s.out.bytes.length = 0 := by rw [hout]; rfl
  cases i with
  | b32enc => exact hstate ▸ (b32Enc_outLen hw hout).le
  | b85enc => exact hstate ▸ (b85Enc_outLen hout).trans_le (b85TextLength_le (b85ZeroChunks_le _))
  | b58enc => exact hstate ▸ b58Enc_outLen_le hout
  | b122enc => exact hstate ▸ b122Enc_outLen_le hw hout
  | b32dec => exact outLen_dec_le_of_ends (forUnits_bytes_le b32DecUnit_bitsPushed_le s.input.text hw hout) hu
  | b85dec =>
    have hlen := outLen_dec_le_of_ends (b85DecBody_bytes_le s) hu
    rw [hbytes, Nat.zero_add] at hlen
    exact hlen
  | b58dec =>
    have hlen := outLen_dec_le_of_ends (b58DecBody_bytes_le s) hu
    rw [hbytes, Nat.zero_add] at hlen
    exact hlen
  | b122dec =>
    have hwalk : forUnits b122DecUnit s.input.text s = .returns u := (b122DecBody_of_wellFormed (hwf rfl)).symm.trans hu
    exact outLen_dec_le_of_ends (forUnits_bytes_le b122DecUnit_bitsPushed_le s.input.text hw hout) hwalk

end

/-- The bound of OUT grows with the input (rules R37, R40). -/
theorem outBound_mono (i : Instr) {m n : Nat} (h : m ≤ n) : outBound i m ≤ outBound i n := by
  have hclog : Nat.clog 58 (256 ^ m) ≤ Nat.clog 58 (256 ^ n) :=
    Nat.clog_mono_right 58 (Nat.pow_le_pow_right (by decide) h)
  cases i <;> simp only [outBound] <;> omega

/-- A ready encoder completes with what its body leaves (rule R141). -/
theorem exec_encoder_state {i : Instr} (hi : i.dir = .enc) {s t : State} (hs : s.Ready .enc)
    (h : exec i s = .next t) : t = (bodyOf i s).state.complete := by
  obtain ⟨-, -, hx⟩ := hs
  obtain ⟨u, hu⟩ := encoder_returns hi s
  rw [exec_eq_transact, transact_returns (hi ▸ hx) hu] at h
  cases h
  rw [hu]; rfl

/-- Settles O30: the encoders' lengths by `b85Enc_outLen` and `b32Enc_outLen`, and every bound by `bodyOf_outLen_le`. -/
theorem outputLengthsAndBounds : Obligations.OutputLengthsAndBounds := by
  refine ⟨fun s t hs h => ?b85, fun s t hs h => ?b32, fun i s t hs h hok hwf => ?bounds⟩
  case b85 =>
    rw [exec_encoder_state rfl hs h]
    obtain ⟨-, hout, -⟩ := hs
    exact b85Enc_outLen hout
  case b32 =>
    rw [exec_encoder_state rfl hs h]
    obtain ⟨hw, hout, -⟩ := hs
    exact b32Enc_outLen hw hout
  case bounds =>
    obtain ⟨hw, hout, hx⟩ := hs
    obtain ⟨u, hu, rfl⟩ := exec_ok h hok
    have hlen : u.outLen i.dir ≤ outBound i (s.inLen i.dir) := bodyOf_outLen_le hw hout hwf hu
    refine ⟨hlen, fun m hm => hlen.trans (outBound_mono i ?_)⟩
    simpa [Params.exceeds, hm] using hx

end Sys2Proof.Machine
end

section
/-! PROOFS of the encoding family: the command words and the step that runs them (O1, O2, O3, O13), the escape unit (O43), B32ENC (O23) and the encoders' languages (O48).
Each part gives the lemmas about the functions of the model it speaks of, and then the theorems that settle its statements. -/

namespace Sys2Proof.Machine

/-! ### Command words -/

/-- An operation's word decodes to it (rules R53 to R56). -/
@[simp] theorem decode_encode (i : Instr) : decode (encode i) = .command i := by
  cases i <;> rfl

/-- A word with OP[3] = 1 is reserved, and keeps all its bits (rules R56, R57). -/
theorem decode_of_reserved {op : BitVec 4} (h : op.getLsbD 3 = true) : decode op = .reserved op := by
  revert op; decide

/-- Settles O1: the eight words are the encodings of the operations, and the rest are reserved. -/
theorem decodeOfEveryCommandWord : Obligations.DecodeOfEveryCommandWord :=
  ⟨decode_encode .b32enc, decode_encode .b32dec, decode_encode .b85enc, decode_encode .b85dec,
    decode_encode .b58enc, decode_encode .b58dec, decode_encode .b122enc, decode_encode .b122dec,
    fun _ h => decode_of_reserved h⟩

/-- Settles O2, one lemma for each way. -/
theorem decodeAndEncodeAgree : Obligations.DecodeAndEncodeAgree :=
  fun i _ => ⟨decode_encode i, eq_encode_of_decode⟩

/-! ### The step of a BUSY block -/

theorem finishTransaction_of_command {s : State} {i : Instr} (h : decode s.op = .command i) :
    finishTransaction s = exec i s := by
  unfold finishTransaction; rw [h]

theorem finishTransaction_of_reserved {s : State} (h : s.op.getLsbD 3 = true) :
    finishTransaction s = .next (s.terminate .illegalCommand 0) := by
  unfold finishTransaction; rw [decode_of_reserved h]; rfl

theorem passMove_of_nil {s : State} (h : s.host = []) : s.passMove = s := by
  unfold State.passMove; rw [h]

/-- A START that waits stays first (rule R160). -/
theorem passMove_of_start {s : State} {r : Request} {rest : List HostEvent} (h : s.host = .start r :: rest) :
    s.passMove = s := by
  simp [State.passMove, h, HostEvent.isPassive]

theorem passMove_of_passive {s : State} {e : HostEvent} {rest : List HostEvent} (h : s.host = e :: rest)
    (he : e.isPassive = true) : s.passMove = { s with host := rest } := by
  simp [State.passMove, h, he]

/-- Only a START and a reset act on the block (rules R22, R49, R170). -/
theorem isPassive_of_ne {e : HostEvent} (hstart : ∀ r, e ≠ .start r) (hreset : e ≠ .reset) : e.isPassive = true := by
  cases e with
  | start r => exact absurd rfl (hstart r)
  | reset => exact absurd rfl hreset
  | read _ | writeStatus _ | wait => rfl

/-- Settles O3: `step_of_busy`, and the host's list by its three cases. -/
theorem stepRunsTheDecodedInstruction : Obligations.StepRunsTheDecodedInstruction := by
  intro s i hb hr hd
  have hsame := passMove_sameRegisters s
  have hdraws : s.passMove.draws = s.draws := by rw [passMove_eq]
  have hd' : decode s.passMove.op = .command i := by rw [passMove_eq]; exact hd
  refine ⟨(step_of_busy hr hb).trans (finishTransaction_of_command hd'), hsame, hdraws,
    fun e rest hhost hstart => ?passive, fun r rest hhost => ?start, fun hhost => ?empty⟩
  case passive =>
    have hreset : e ≠ .reset := fun he => hr (by rw [hhost, he]; rfl)
    rw [passMove_of_passive hhost (isPassive_of_ne hstart hreset)]
  case start => rw [passMove_of_start hhost, hhost]
  case empty => rw [passMove_of_nil hhost, hhost]

/-- After an error every read of OUT is free (rules R24, R146). -/
theorem terminate_deliversNothing {code : Code} (h : code ≠ .ok) (s : State) (i : Nat) :
    (s.terminate code i).DeliversNothing :=
  fun _ => if_neg fun hok => h hok.2

/-- Settles O13: the completion is `State.terminate` on the registers the block had. -/
theorem reservedCommandIsIllegal : Obligations.ReservedCommandIsIllegal := by
  intro s hb hr h3
  obtain ⟨-, hop, -, -, hinput, -, hwork, hparams⟩ := passMove_sameRegisters s
  refine ⟨s.passMove.terminate .illegalCommand 0, ?_, rfl, rfl, fitIndex_zero _,
    terminate_deliversNothing (by decide) _ _, hop, hinput, hwork, hparams⟩
  rw [step_of_busy hr hb, finishTransaction_of_reserved (hop ▸ h3)]

/-! ### The escape unit -/

/-- An escape's code point is its three fields side by side (rule R70). -/
theorem escapeUnit_fields (idx : BitVec 3) (g : BitVec 7) :
    BitVec.ofNat 11 (escapeUnit idx g).toNat = idx ++ 1#1 ++ g := by
  have hi := idx.isLt
  have hg := g.isLt
  have hor : ((idx.toNat <<< 1 ||| (1#1).toNat) <<< 7) ||| g.toNat = 256 * idx.toNat + 128 + g.toNat := by
    rw [← Nat.shiftLeft_add_eq_or_of_lt hg, ← Nat.shiftLeft_add_eq_or_of_lt (by decide), Nat.shiftLeft_eq,
      Nat.shiftLeft_eq]
    simp only [BitVec.toNat_ofNat]
    omega
  apply BitVec.eq_of_toNat_eq
  rw [escapeUnit_toNat, BitVec.toNat_append, BitVec.toNat_append, hor, BitVec.toNat_ofNat]
  omega

/-- The first UTF-8 byte holds the index, the set bit and the top bit of the payload (rule R130). -/
theorem escapeFields_first_byte (idx : BitVec 3) (g : BitVec 7) :
    0xC0#8 ||| ((idx ++ 1#1 ++ g).extractLsb' 6 5).setWidth 8 =
      0xC2#8 ||| (idx.setWidth 8 <<< 2) ||| (g.extractLsb' 6 1).setWidth 8 := by
  have hsplit : (idx ++ 1#1 ++ g).extractLsb' 6 5 = idx ++ 1#1 ++ g.extractLsb' 6 1 := by
    rw [BitVec.extractLsb'_append_eq_ite, dif_pos (by decide), dif_neg (by decide)]
    exact congrArg (BitVec.cast _ <| · ++ _) BitVec.extractLsb'_eq_self
  rw [hsplit]
  generalize g.extractLsb' 6 1 = b
  clear hsplit
  revert idx b; decide

/-- The second UTF-8 byte holds the low six bits of the payload (rule R130). -/
theorem escapeFields_second_byte (idx : BitVec 3) (g : BitVec 7) :
    0x80#8 ||| ((idx ++ 1#1 ++ g).extractLsb' 0 6).setWidth 8 = 0x80#8 ||| (g.setWidth 8 &&& 0x3F#8) := by
  rw [BitVec.extractLsb'_append_eq_of_add_le (by decide)]
  revert g; decide

/-- Settles O43: the range by the sum of the fields, and each field and byte from the fields side by side. -/
theorem escapeUnitLayout : Obligations.EscapeUnitLayout := by
  intro idx g
  have hi := idx.isLt
  have hg := g.isLt
  have hsum := escapeUnit_toNat idx g
  simp only [escapeUnit_fields]
  refine ⟨by omega, by omega, ?_, ?_, ?_, escapeFields_first_byte idx g, escapeFields_second_byte idx g⟩
  · exact (BitVec.extractLsb'_append_eq_of_le (by decide)).trans BitVec.extractLsb'_append_eq_left
  · exact (BitVec.extractLsb'_append_eq_of_le (by decide)).trans BitVec.extractLsb'_append_eq_right
  · exact BitVec.extractLsb'_append_eq_right

/-! ### The bit stream that nextGroup reads -/

/-- Bit m of byte q, from the top (rule R73); past the end it is a bit of 0. -/
theorem bitz_of_lt_eight (b : List Byte) (q : Nat) {m : Nat} (hm : m < 8) :
    Closed.bitz b (8 * q + m) = ((b[q]?).getD 0).toNat / 2 ^ (7 - m) % 2 := by
  have hdiv : (8 * q + m) / 8 = q := by omega
  have hmod : (8 * q + m) % 8 = m := by omega
  rw [Closed.bitz, hdiv, hmod]
  cases b[q]? <;> simp

theorem window_toNat (s : State) (hi : Byte) :
    (s.window hi).toNat = 2 ^ 8 * hi.toNat + ((s.input.bytes[s.work.curByte + 1]?).getD 0).toNat := by
  rw [State.window, BitVec.toNat_append, ← Nat.shiftLeft_add_eq_or_of_lt (BitVec.isLt _), Nat.shiftLeft_eq,
    Nat.mul_comm]
  rfl

/-- Bit m of the window, from the top, is bit m of the stream behind CUR_BYTE (rules R73, R76). -/
theorem window_bit {s : State} {hi : Byte} (h : s.input.bytes[s.work.curByte]? = some hi) {m : Nat} (hm : m < 16) :
    (s.window hi).toNat / 2 ^ (15 - m) % 2 = Closed.bitz s.input.bytes (8 * s.work.curByte + m) := by
  rw [window_toNat]
  have hnext := ((s.input.bytes[s.work.curByte + 1]?).getD 0).isLt
  rcases Nat.lt_or_ge m 8 with hlt | hge
  · rw [bitz_of_lt_eight _ _ hlt, h, show 15 - m = 8 + (7 - m) by omega, Nat.pow_add, ← Nat.div_div_eq_div_mul,
      Nat.mul_add_div (by decide), Nat.div_eq_of_lt hnext]
    rfl
  · have hpow : 2 ^ 8 = 2 ^ (15 - m) * (2 * 2 ^ (m - 8)) := by
      rw [← Nat.pow_succ', ← Nat.pow_add]; congr 1; omega
    rw [show 8 * s.work.curByte + m = 8 * (s.work.curByte + 1) + (m - 8) by omega, bitz_of_lt_eight _ _ (by omega),
      show 7 - (m - 8) = 15 - m by omega, hpow, Nat.mul_assoc, Nat.mul_add_div (Nat.two_pow_pos _), Nat.mul_assoc,
      Nat.mul_add_mod]

/-- The low k binary digits of v, the most significant first, add up to `v mod 2^k`. -/
theorem sum_binary_digits (k v : Nat) :
    ((List.range k).map fun j => v / 2 ^ (k - 1 - j) % 2 * 2 ^ (k - 1 - j)).sum = v % 2 ^ k := by
  induction k with
  | zero => simp [Nat.mod_one]
  | succ k ih =>
    rw [List.range_succ_eq_map, List.map_cons, List.map_map, List.sum_cons, Nat.mod_pow_succ, ← ih]
    simp [Function.comp_def, Nat.sub_sub, Nat.mul_comm, Nat.add_comm]

/-- With the cursor at bit `k * i`, the k bits cut out of the window are group i (rules R75, R76). -/
theorem window_group {s : State} {hi : Byte} (h : s.input.bytes[s.work.curByte]? = some hi) {k i : Nat} (hk : k ≤ 8)
    (hat : 8 * s.work.curByte + s.work.curBit.toNat = k * i) :
    (s.window hi >>> (16 - s.work.curBit.toNat - k)).setWidth k =
      BitVec.ofNat k (Closed.groupAt k s.input.bytes i) := by
  have hbit := s.work.curBit.isLt
  have hdigits : Closed.groupAt k s.input.bytes i =
      (s.window hi).toNat / 2 ^ (16 - s.work.curBit.toNat - k) % 2 ^ k := by
    rw [← sum_binary_digits, Closed.groupAt]
    congr 1
    refine List.map_congr_left fun j hj => ?_
    have hj := List.mem_range.1 hj
    rw [Nat.div_div_eq_div_mul, ← Nat.pow_add, ← hat, Nat.add_assoc, ← window_bit h (by omega)]
    congr 4
    omega
  apply BitVec.eq_of_toNat_eq
  rw [hdigits, BitVec.toNat_setWidth, BitVec.toNat_ushiftRight, Nat.shiftRight_eq_div_pow, BitVec.toNat_ofNat,
    Nat.mod_mod]

/-! ### nextGroup as the reading of a list of groups -/

@[simp] theorem groups_length (k : Nat) (b : List Byte) : (Closed.groups k b).length = (8 * b.length + k - 1) / k := by
  simp [Closed.groups, Closed.groupCount]

/-- There is a group i exactly while a bit of it is in the stream (rules R74, R77). -/
theorem lt_groups_length_iff {k : Nat} (hk : 0 < k) (b : List Byte) (i : Nat) :
    i < (Closed.groups k b).length ↔ k * i < 8 * b.length := by
  rw [groups_length, Nat.lt_iff_add_one_le, Nat.le_div_iff_mul_le hk, Nat.mul_comm, Nat.mul_succ]
  omega

/-- The groups vs are still to be read: the cursor stands at a group of IN, and they are the groups from there on (rules R75, R76). -/
def State.Reads (s : State) {k : Nat} (vs : List (BitVec k)) : Prop :=
  ∃ i, 8 * s.work.curByte + s.work.curBit.toNat = k * i ∧ vs = (Closed.groups k s.input.bytes).drop i

/-- After START all groups of IN are still to be read (rules R35, R75). -/
theorem reads_of_fresh {s : State} (h : s.work = Work.reset) (k : Nat) : s.Reads (Closed.groups k s.input.bytes) :=
  ⟨0, by simp [h, Work.reset], rfl⟩

section
variable {k : Nat} {s : State}

/-- With no group left nextGroup signals exhaustion and changes nothing (rule R77). -/
theorem State.Reads.exhausted (hk : 0 < k) (h : s.Reads (k := k) []) : nextGroup k s = (none, s) := by
  obtain ⟨i, hat, hnil⟩ := h
  have hend : ¬ k * i < 8 * s.input.bytes.length := by
    rw [← lt_groups_length_iff hk]; exact (List.drop_eq_nil_iff.1 hnil.symm).not_gt
  rcases nextGroup_cases k s with ⟨-, hn⟩ | ⟨hlt, -⟩
  · exact hn
  · have hbit := s.work.curBit.isLt
    omega

/-- nextGroup answers the first group that is left and leaves the rest (rules R75, R76). -/
theorem State.Reads.next {v : BitVec k} {vs : List (BitVec k)} (hk : 0 < k) (hk8 : k ≤ 8) (h : s.Reads (v :: vs)) :
    nextGroup k s = (some v, s.advanceCursor k) ∧ (s.advanceCursor k).Reads vs := by
  obtain ⟨i, hat, hcons⟩ := h
  have hi : i < (Closed.groups k s.input.bytes).length := by
    by_contra hge
    rw [List.drop_eq_nil_of_le (Nat.le_of_not_lt hge)] at hcons
    cases hcons
  rw [List.drop_eq_getElem_cons hi, List.cons.injEq] at hcons
  obtain ⟨rfl, rfl⟩ := hcons
  have hbits := (lt_groups_length_iff hk _ _).1 hi
  have hbyte := List.getElem?_eq_getElem (show s.work.curByte < s.input.bytes.length by omega)
  refine ⟨?_, i + 1, ?_, ?_⟩
  · simp only [nextGroup, State.memReadByte, hbyte, window_group hbyte hk8 hat]
    simp [Closed.groups]
  · rw [advanceCursor_position s hk8, hat, Nat.mul_succ]
  · rw [State.advanceCursor_input]

/-- Emitting moves no cursor. -/
theorem State.Reads.emitText {vs : List (BitVec k)} (h : s.Reads vs) (cs : List CodePoint) :
    (s.emitText cs).Reads vs :=
  h

end

/-! ### B32ENC -/

/-- The loop of B32ENC emits the symbols of the groups that are left (rule R82). -/
theorem b32EncLoop_text {vs : List (BitVec 5)} {fuel : Nat} {s : State} (h : s.Reads vs) (hfuel : vs.length < fuel) :
    (b32EncLoop fuel s).out.text = s.out.text ++ vs.map b32Symbol := by
  induction vs generalizing fuel s with
  | nil =>
    obtain ⟨fuel, rfl⟩ := Nat.exists_eq_add_one_of_ne_zero hfuel.ne'
    rw [b32EncLoop, h.exhausted (by decide), List.map_nil, List.append_nil]
  | cons v vs ih =>
    obtain ⟨fuel, rfl⟩ := Nat.exists_eq_add_one_of_ne_zero (Nat.ne_zero_of_lt hfuel)
    obtain ⟨hnext, hrest⟩ := h.next (by decide) (by decide)
    rw [b32EncLoop, hnext, ih (hrest.emitText [b32Symbol v]) (Nat.lt_of_succ_lt_succ hfuel)]
    simp

/-- B32ENC from a fresh state emits the symbols of the groups of IN (rules R62, R82). -/
theorem b32Enc_text {s : State} (hw : s.work = Work.reset) (hout : s.out = Lanes.empty) :
    (bodyOf .b32enc s).state.out.text = (Closed.groups 5 s.input.bytes).map b32Symbol := by
  have htext := b32EncLoop_text (fuel := s.groupFuel) (reads_of_fresh hw 5)
    (by rw [groups_length, State.groupFuel]; omega)
  rw [hout] at htext
  exact htext

/-- A ready encoder completes with the text its body emits, and no bytes (rules R39, R141). -/
theorem encoder_completesWith {i : Instr} (hi : i.dir = .enc) {s : State} (hs : s.Ready .enc) :
    CompletesWith (exec i s) { bytes := [], text := (bodyOf i s).state.out.text } := by
  obtain ⟨t, ht, hphase⟩ := transact_next i.dir (bodyOf i) s
  rw [← exec_eq_transact] at ht
  obtain rfl := exec_encoder_state hi hs ht
  obtain ⟨-, hout, -⟩ := hs
  obtain ⟨hbytes, -⟩ := encoder_keeps_bytes_draws hi s
  rw [hout] at hbytes
  exact ⟨_, ht, hphase, rfl, rfl, congrArg (Lanes.mk · _) hbytes⟩

/-- Settles O23: B32ENC reads the list of the groups to its end, by induction on what is left of it. -/
theorem base32EncodesTheGroups : Obligations.Base32EncodesTheGroups := by
  intro s hs
  obtain ⟨hw, hout, -⟩ := id hs
  have hdone := encoder_completesWith (i := .b32enc) rfl hs
  rw [b32Enc_text hw hout] at hdone
  exact ⟨hdone, groups_length 5 s.input.bytes⟩

/-! ### The encoders' languages -/

/-- The output language of Base85 (rules R66, R72). -/
abbrev InB85Language (c : CodePoint) : Prop := (0x21 ≤ c.toNat ∧ c.toNat ≤ 0x75) ∨ c = 'z'

/-- The output language of Base122: plain units, and escapes of an illegal index or the marker (rules R70 to R72). -/
abbrev InB122Language (short : BitVec 3) (c : CodePoint) : Prop :=
  (c.toNat ≤ 0x7F ∧ c.toNat ∉ [0x00, 0x0A, 0x0D, 0x22, 0x26, 0x5C]) ∨
    ∃ idx g, c.toNat = 256 * idx + 128 + g ∧ g < 128 ∧ (idx < 6 ∨ idx = short.toNat)

/-- Every unit in the text lane of OUT is in the language P. -/
def State.TextIn (P : CodePoint → Prop) (s : State) : Prop := ∀ c ∈ s.out.text, P c

section
variable {P : CodePoint → Prop} {s : State}

theorem textIn_of_empty (h : s.out = Lanes.empty) : s.TextIn P := by
  simp [State.TextIn, h, Lanes.empty]

theorem State.TextIn.emitText (h : s.TextIn P) {cs : List CodePoint} (hcs : ∀ c ∈ cs, P c) :
    (s.emitText cs).TextIn P :=
  fun c hc => (List.mem_append.1 hc).elim (h c) (hcs c)

theorem State.TextIn.emitUnit (h : s.TextIn P) {c : CodePoint} (hc : P c) : (s.emitText [c]).TextIn P :=
  h.emitText fun _ hd => List.mem_singleton.1 hd ▸ hc

/-- nextGroup emits nothing (rule R76). -/
theorem State.TextIn.nextGroup {k : Nat} {v : Option (BitVec k)} {s' : State} (h : s.TextIn P)
    (hn : nextGroup k s = (v, s')) : s'.TextIn P := by
  rcases nextGroup_cases k s with ⟨-, he⟩ | ⟨-, w, he⟩ <;> rw [he] at hn <;> cases hn
  · exact h
  · rw [TextIn, advanceCursor_out]; exact h

end

theorem nextGroup_params {k : Nat} {v : Option (BitVec k)} {s s' : State} (hn : nextGroup k s = (v, s')) :
    s'.params = s.params := by
  have hkeep := (CursorFrame.nextGroup k s).keepsCommand.params
  rwa [hn] at hkeep

theorem b32Symbol_mem (v : BitVec 5) : b32Symbol v ∈ b32Alpha := List.getElem_mem _

theorem b58Symbol_mem (d : Fin 58) : b58Symbol d ∈ b58Alpha := List.getElem_mem _

theorem b85Digits_lt {chunk d : Nat} (h : d ∈ b85Digits chunk) : d < 85 := by
  simp only [b85Digits, List.mem_cons, List.not_mem_nil, or_false] at h
  omega

/-- A chunk gives `z` or symbols of base-85 digits (rules R98 to R100). -/
theorem b85ChunkText_language (chunk cnt : Nat) : ∀ c ∈ b85ChunkText chunk cnt, InB85Language c := by
  intro c hc
  unfold b85ChunkText at hc
  split at hc
  · exact .inr (List.mem_singleton.1 hc)
  · obtain ⟨d, hd, rfl⟩ := List.mem_map.1 hc
    have hlt := b85Digits_lt (List.mem_of_mem_take hd)
    rw [InB85Language, b85Symbol_toNat d hlt]
    omega

theorem b85EncChunk_textIn (bs : List Byte) {s : State} (h : s.TextIn InB85Language) :
    (b85EncChunk bs s).TextIn InB85Language :=
  State.TextIn.emitText (s := s.loadChunk bs) h (b85ChunkText_language _ _)

theorem b85EncLoop_textIn : ∀ (bs : List Byte) (s : State), s.TextIn InB85Language →
    (b85EncLoop bs s).TextIn InB85Language
  | [], _, h => h
  | [a], _, h => b85EncChunk_textIn [a] h
  | [a, b], _, h => b85EncChunk_textIn [a, b] h
  | [a, b, c], _, h => b85EncChunk_textIn [a, b, c] h
  | a :: b :: c :: d :: rest, _, h => b85EncLoop_textIn rest _ (b85EncChunk_textIn [a, b, c, d] h)

theorem b58EncEmit_textIn {r : List (Fin 58) × State} (h : r.2.TextIn (· ∈ b58Alpha)) :
    (b58EncEmit r).TextIn (· ∈ b58Alpha) := by
  refine (h.emitText fun c hc => ?ones).emitText fun c hc => ?digits
  case ones => rw [List.eq_of_mem_replicate hc]; exact b58Symbol_mem 0
  case digits => obtain ⟨d, -, rfl⟩ := List.mem_map.1 hc; exact b58Symbol_mem d

theorem b58EncBody_textIn {s : State} (h : s.TextIn (· ∈ b58Alpha)) : (b58EncBody s).state.TextIn (· ∈ b58Alpha) := by
  unfold b58EncBody
  split
  · exact h
  · refine b58EncEmit_textIn ?_
    rw [b58DigitLoop_frame]
    exact h

/-- A group that is no illegal byte is a plain unit (rules R71, R127). -/
theorem plainUnit_language {g : BitVec 7} (h : b122IndexOf g = none) (short : BitVec 3) :
    InB122Language short (plainUnit g) := by
  have hg := g.isLt
  have hplain : (plainUnit g).toNat = g.toNat := codePoint_toNat _ (by omega)
  have hlegal : g.toNat ∉ [0x00, 0x0A, 0x0D, 0x22, 0x26, 0x5C] := by revert g; decide
  exact .inl (hplain ▸ ⟨by omega, hlegal⟩)

theorem escapeUnit_language {short idx : BitVec 3} (h : idx.toNat < 6 ∨ idx = short) (g : BitVec 7) :
    InB122Language short (escapeUnit idx g) :=
  .inr ⟨idx.toNat, g.toNat, escapeUnit_toNat idx g, g.isLt, h.imp_right (congrArg BitVec.toNat)⟩

section
variable {short : BitVec 3} {s : State}

/-- An escape carries the index of its illegal byte, or the marker (rules R128, R129). -/
theorem b122EncEscape_textIn (idx : Fin 6) (g : BitVec 7) (hp : s.params.b122Short = short)
    (h : s.TextIn (InB122Language short)) : (b122EncEscape idx g s).TextIn (InB122Language short) := by
  have hpend : (s.setPend (some { idx := idx, group := g })).TextIn (InB122Language short) := h
  unfold b122EncEscape
  split
  · rename_i v s' hn
    have hidx : (BitVec.ofNat 3 idx.val).toNat < 6 := by rw [BitVec.toNat_ofNat]; omega
    exact (hpend.nextGroup hn).emitUnit (escapeUnit_language (.inl hidx) v)
  · rename_i s' hn
    have hshort : s'.params.b122Short = short := (congrArg Params.b122Short (nextGroup_params hn)).trans hp
    exact (hpend.nextGroup hn).emitUnit (escapeUnit_language (.inr hshort) g)

theorem b122EncEscape_params (idx : Fin 6) (g : BitVec 7) : (b122EncEscape idx g s).params = s.params :=
  (b122EncEscape_frame idx g s).keepsCommand.params

theorem b122EncLoop_textIn (fuel : Nat) (hp : s.params.b122Short = short) (h : s.TextIn (InB122Language short)) :
    (b122EncLoop fuel s).TextIn (InB122Language short) := by
  induction fuel generalizing s with
  | zero => exact h
  | succ fuel ih =>
    rw [b122EncLoop]
    split
    · rename_i s' hn
      exact h.nextGroup hn
    · rename_i g s' hn
      have hp' : s'.params.b122Short = short := (congrArg Params.b122Short (nextGroup_params hn)).trans hp
      have h' := h.nextGroup hn
      split
      · rename_i hlegal
        exact ih hp' (h'.emitUnit (plainUnit_language hlegal short))
      · rename_i idx _
        exact ih ((congrArg Params.b122Short (b122EncEscape_params idx g)).trans hp') (b122EncEscape_textIn idx g hp' h')

end

/-- Settles O48: what every emission keeps, along each encoder's loop; B32ENC by the text it emits. -/
theorem encodersStayInTheirAlphabets : Obligations.EncodersStayInTheirAlphabets := by
  intro s hs
  obtain ⟨hw, hout, -⟩ := id hs
  refine ⟨fun t ht => ?b32, fun t ht => ?b85, fun t ht => ?b58, fun t ht => ?b122⟩ <;>
    rw [exec_encoder_state rfl hs ht]
  case b32 =>
    rw [State.complete_out, b32Enc_text hw hout]
    intro c hc
    obtain ⟨v, -, rfl⟩ := List.mem_map.1 hc
    exact b32Symbol_mem v
  case b85 => exact b85EncLoop_textIn _ s (textIn_of_empty hout)
  case b58 => exact b58EncBody_textIn (textIn_of_empty hout)
  case b122 => exact b122EncLoop_textIn _ rfl (textIn_of_empty hout)

end Sys2Proof.Machine
end

section
/-! PROOFS of the BitCursor family: the read side (O20), the write side (O21) and the round trip (O22).
The bits of a group list are one list of booleans: ACC holds the bits behind the last whole byte, and a push takes the whole bytes off the front of ACC's bits followed by the group's. -/

namespace Sys2Proof.Machine

/-! ### The read side -/

/-- Settles O20: with the cursor at bit `k * i` the groups from i on are left to read, and they are none when the stream ends before. -/
theorem nextGroupReadsTheBitStream : Obligations.NextGroupReadsTheBitStream := by
  intro k s i hk hat
  have hpos : 0 < k := by omega
  have hk8 : k ≤ 8 := by omega
  have hreads : s.Reads ((Closed.groups k s.input.bytes).drop i) := ⟨i, hat, rfl⟩
  refine ⟨fun hbits => ?group, fun hend => ?exhausted⟩
  case group =>
    rw [List.drop_eq_getElem_cons ((lt_groups_length_iff hpos _ i).2 hbits)] at hreads
    refine ⟨s.advanceCursor k, (hreads.next hpos hk8).1.trans ?_, ?_, advanceCursor_frame s k⟩
    · simp [Closed.groups]
    · rw [advanceCursor_position s hk8, hat, Nat.mul_succ]
  case exhausted =>
    rw [List.drop_eq_nil_of_le (Nat.le_of_not_lt fun h => hend.not_gt ((lt_groups_length_iff hpos _ i).1 h))] at hreads
    exact hreads.exhausted hpos

/-! ### Bits, the most significant first -/

@[simp] theorem bitsValue_nil : Closed.bitsValue [] = 0 := rfl

@[simp] theorem bitsValue_concat (l : List Bool) (x : Bool) :
    Closed.bitsValue (l ++ [x]) = 2 * Closed.bitsValue l + x.toNat := by
  simp [Closed.bitsValue]

theorem bitsValue_append (l r : List Bool) :
    Closed.bitsValue (l ++ r) = 2 ^ r.length * Closed.bitsValue l + Closed.bitsValue r := by
  induction r using List.reverseRecOn with
  | nil => simp
  | append_singleton r x ih =>
    rw [← List.append_assoc, bitsValue_concat, ih, bitsValue_concat, List.length_append, List.length_singleton,
      Nat.pow_succ']
    ring

theorem bitsValue_lt (l : List Bool) : Closed.bitsValue l < 2 ^ l.length := by
  induction l using List.reverseRecOn with
  | nil => simp
  | append_singleton l x ih =>
    have hx := x.toNat_le
    rw [bitsValue_concat, List.length_append, List.length_singleton, Nat.pow_succ']
    omega

/-- Cutting off the low digits leaves the number of the first ones. -/
theorem bitsValue_append_div (l r : List Bool) : Closed.bitsValue (l ++ r) / 2 ^ r.length = Closed.bitsValue l := by
  rw [bitsValue_append, Nat.mul_add_div (Nat.two_pow_pos _), Nat.div_eq_of_lt (bitsValue_lt r), Nat.add_zero]

theorem bitsValue_append_mod (l r : List Bool) : Closed.bitsValue (l ++ r) % 2 ^ r.length = Closed.bitsValue r := by
  rw [bitsValue_append, Nat.mul_add_mod, Nat.mod_eq_of_lt (bitsValue_lt r)]

/-- The spec writes a number as the sum of its weighted bits (rules R75, R79). -/
theorem sum_weighted_bits (n : Nat) (f : Nat → Bool) :
    ((List.range n).map fun t => (f t).toNat * 2 ^ (n - 1 - t)).sum = Closed.bitsValue ((List.range n).map f) := by
  induction n generalizing f with
  | zero => rfl
  | succ n ih =>
    rw [List.range_succ_eq_map, List.map_cons, List.map_cons, List.sum_cons, List.map_map, List.map_map,
      ← List.singleton_append, bitsValue_append, ← ih]
    simp [Function.comp_def, Closed.bitsValue, Nat.mul_comm, Nat.sub_sub, Nat.add_comm]

/-- A number of n binary digits has the digits it is made of. -/
theorem getMsbD_bitsValue (l : List Bool) (j : Nat) (hj : j < l.length) :
    (BitVec.ofNat l.length (Closed.bitsValue l)).getMsbD j = l[j] := by
  have hdigit : Closed.bitsValue l / 2 ^ (l.length - 1 - j) % 2 = l[j].toNat := by
    have hsplit : l = (l.take j ++ [l[j]]) ++ l.drop (j + 1) := by simp
    have hlen : l.length - 1 - j = (l.drop (j + 1)).length := by rw [List.length_drop]; omega
    have hbit := l[j].toNat_le
    calc _ = Closed.bitsValue ((l.take j ++ [l[j]]) ++ l.drop (j + 1)) / 2 ^ (l.drop (j + 1)).length % 2 := by
            rw [← hsplit, hlen]
      _ = l[j].toNat := by rw [bitsValue_append_div, bitsValue_concat]; omega
  rw [BitVec.getMsbD_eq_getLsbD, BitVec.getLsbD_ofNat, Nat.testBit_eq_decide_div_mod_eq, hdigit]
  have hpos : l.length - 1 - j < l.length := by omega
  cases l[j] <;> simp [hj, hpos]

/-! ### The bits of groups -/

@[simp] theorem groupBits_nil (k : Nat) : Closed.groupBits ([] : List (BitVec k)) = [] := rfl

/-- The bits of a list of groups are those of the first, then those of the others (rule R79). -/
theorem groupBits_cons {k : Nat} (v : BitVec k) (vs : List (BitVec k)) :
    Closed.groupBits (v :: vs) = Closed.groupBits [v] ++ Closed.groupBits vs := by
  simp [Closed.groupBits]

@[simp] theorem groupBits_length {k : Nat} (vs : List (BitVec k)) : (Closed.groupBits vs).length = k * vs.length := by
  simp [Closed.groupBits, Nat.mul_comm]

/-- A group is the number of its bits (rule R79). -/
@[simp] theorem bitsValue_groupBits_singleton {k : Nat} (v : BitVec k) :
    Closed.bitsValue (Closed.groupBits [v]) = v.toNat := by
  have hdigit : ∀ j ∈ List.range k,
      (v.getMsbD j).toNat * 2 ^ (k - 1 - j) = v.toNat / 2 ^ (k - 1 - j) % 2 * 2 ^ (k - 1 - j) := fun j hj => by
    rw [BitVec.getMsbD_eq_getLsbD, decide_eq_true (List.mem_range.1 hj), Bool.true_and, BitVec.getLsbD,
      Nat.toNat_testBit]
  rw [Closed.groupBits, List.flatMap_singleton, ← sum_weighted_bits, List.map_congr_left hdigit, sum_binary_digits,
    Nat.mod_eq_of_lt v.isLt]

/-! ### The whole bytes of a list of bits -/

/-- The whole bytes of a list of bits (rule R79): `pack_eq_wholeBytes`. -/
def wholeBytes (bits : List Bool) : List Byte := (List.range (bits.length / 8)).map (Closed.packedByte bits)

/-- The bits behind the last whole byte: what ACC holds (rules R27, R79). -/
def lastBits (bits : List Bool) : List Bool := bits.drop (bits.length / 8 * 8)

theorem pack_eq_wholeBytes {k : Nat} (vs : List (BitVec k)) : Closed.pack vs = wholeBytes (Closed.groupBits vs) := by
  rw [wholeBytes, groupBits_length, Closed.pack]

@[simp] theorem lastBits_length (bits : List Bool) : (lastBits bits).length = bits.length % 8 := by
  rw [lastBits, List.length_drop]; omega

/-- A packed byte is the number of its eight bits (rule R79). -/
theorem packedByte_eq (bits : List Bool) (j : Nat) :
    Closed.packedByte bits j =
      BitVec.ofNat 8 (Closed.bitsValue ((List.range 8).map fun t => bits.getD (8 * j + t) false)) := by
  rw [← sum_weighted_bits]; rfl

/-- Eight bits and less than eight more are one whole byte, the number of the first eight (rule R78). -/
theorem wholeBytes_of_length_lt_sixteen {bits : List Bool} (h8 : 8 ≤ bits.length) (h16 : bits.length < 16) :
    wholeBytes bits = [BitVec.ofNat 8 (Closed.bitsValue bits >>> (bits.length - 8))] := by
  have hone : bits.length / 8 = 1 := by omega
  have hfirst : (List.range 8).map (fun t => bits.getD (8 * 0 + t) false) = bits.take 8 :=
    List.ext_getElem (by simp [h8]) fun t ht _ => by
      have ht : t < 8 := by simpa using ht
      simp [show t < bits.length by omega]
  have hcut := bitsValue_append_div (bits.take 8) (bits.drop 8)
  rw [List.take_append_drop, List.length_drop] at hcut
  rw [wholeBytes, hone, List.range_one, List.map_singleton, packedByte_eq, hfirst, Nat.shiftRight_eq_div_pow, hcut]

theorem wholeBytes_of_length_lt {bits : List Bool} (h : bits.length < 8) : wholeBytes bits = [] := by
  rw [wholeBytes, Nat.div_eq_of_lt h]; rfl

theorem lastBits_of_length_lt {bits : List Bool} (h : bits.length < 8) : lastBits bits = bits := by
  rw [lastBits, Nat.div_eq_of_lt h]; rfl

/-- Bits that fill whole bytes have no part in the bytes of those after them. -/
theorem wholeBytes_append_of_length {l : List Bool} {q : Nat} (h : l.length = 8 * q) (r : List Bool) :
    wholeBytes (l ++ r) = wholeBytes l ++ wholeBytes r := by
  have hcount : (l ++ r).length / 8 = l.length / 8 + r.length / 8 := by rw [List.length_append]; omega
  rw [wholeBytes, hcount, List.range_add, List.map_append, List.map_map]
  refine congrArg₂ _ (List.map_congr_left fun j hj => ?left) (List.map_congr_left fun j _ => ?right)
  case left =>
    have hj := List.mem_range.1 hj
    rw [packedByte_eq, packedByte_eq]
    refine congrArg (BitVec.ofNat 8 <| Closed.bitsValue ·) (List.map_congr_left fun t ht => ?_)
    have ht := List.mem_range.1 ht
    exact List.getD_append _ _ _ _ (by omega)
  case right =>
    rw [Function.comp_apply, packedByte_eq, packedByte_eq]
    refine congrArg (BitVec.ofNat 8 <| Closed.bitsValue ·) (List.map_congr_left fun t _ => ?_)
    rw [List.getD_append_right _ _ _ _ (by omega)]
    congr 1
    omega

theorem lastBits_append_of_length {l : List Bool} {q : Nat} (h : l.length = 8 * q) (r : List Bool) :
    lastBits (l ++ r) = lastBits r := by
  have hcut : (l ++ r).length / 8 * 8 = l.length + r.length / 8 * 8 := by rw [List.length_append]; omega
  rw [lastBits, hcut, List.drop_length_add_append, lastBits]

/-- A list of bits is whole bytes' bits and its last bits. -/
theorem exists_append_lastBits (l : List Bool) : ∃ a q, a.length = 8 * q ∧ l = a ++ lastBits l :=
  ⟨l.take (l.length / 8 * 8), l.length / 8, by rw [List.length_take]; omega, (List.take_append_drop _ l).symm⟩

/-- More bits behind a list complete the byte that its last bits begin. -/
theorem wholeBytes_append (l r : List Bool) :
    wholeBytes (l ++ r) = wholeBytes l ++ wholeBytes (lastBits l ++ r) := by
  obtain ⟨a, q, ha, hl⟩ := exists_append_lastBits l
  have hlast : wholeBytes (lastBits l) = [] := wholeBytes_of_length_lt (by rw [lastBits_length]; omega)
  have hfront : wholeBytes l = wholeBytes a := by
    rw [hl, wholeBytes_append_of_length ha, hlast, List.append_nil]
  rw [hfront, ← wholeBytes_append_of_length ha, ← List.append_assoc, ← hl]

theorem lastBits_append (l r : List Bool) : lastBits (l ++ r) = lastBits (lastBits l ++ r) := by
  obtain ⟨a, q, ha, hl⟩ := exists_append_lastBits l
  rw [← lastBits_append_of_length ha (lastBits l ++ r), ← List.append_assoc, ← hl]

/-- The last bits are the low digits of the number of all of them. -/
theorem bitsValue_lastBits (l : List Bool) :
    Closed.bitsValue (lastBits l) = Closed.bitsValue l % 2 ^ (l.length % 8) := by
  obtain ⟨a, -, -, hl⟩ := exists_append_lastBits l
  have hmod := bitsValue_append_mod a (lastBits l)
  rw [← hl, lastBits_length] at hmod
  exact hmod.symm

/-! ### The write side -/

/-- ACC keeps the bits of ACC and the group below the byte that is emitted (rule R78). -/
theorem pushGroup_acc {k : Nat} (hk : k ≤ 8) (v : BitVec k) (s : State) :
    (pushGroup v s).work.acc.toNat =
      ((s.work.acc.toNat <<< k) ||| v.toNat) % 2 ^ ((s.work.accCnt.toNat + k) % 8) := by
  have hcnt := s.work.accCnt.isLt
  have hkept : ∀ t c : Nat, c < 8 → (BitVec.ofNat 7 (t % 2 ^ c)).toNat = t % 2 ^ c := fun t c hc => by
    have hle : 2 ^ c ≤ 2 ^ 7 := Nat.pow_le_pow_right (by decide) (by omega)
    rw [BitVec.toNat_ofNat, Nat.mod_eq_of_lt ((Nat.mod_lt t (Nat.two_pow_pos c)).trans_le hle)]
  unfold pushGroup State.takeBits
  split
  · rw [show (s.work.accCnt.toNat + k) % 8 = s.work.accCnt.toNat + k - 8 by omega]
    exact hkept _ _ (by omega)
  · rw [show (s.work.accCnt.toNat + k) % 8 = s.work.accCnt.toNat + k by omega]
    exact hkept _ _ (by omega)

/-- The accumulator holds these bits, the oldest the most significant (rule R27). -/
def State.AccHolds (s : State) (bits : List Bool) : Prop :=
  s.work.accCnt.toNat = bits.length ∧ s.work.acc.toNat = Closed.bitsValue bits

theorem State.AccHolds.length_lt {s : State} {bits : List Bool} (h : s.AccHolds bits) : bits.length < 8 :=
  h.1 ▸ s.work.accCnt.isLt

/-- A push emits the whole bytes of ACC's bits and the group's, and ACC keeps the last bits of them (rule R78). -/
theorem State.AccHolds.pushGroup {s : State} {bits : List Bool} (h : s.AccHolds bits) {k : Nat} (hk : k ≤ 8)
    (v : BitVec k) :
    (pushGroup v s).out.bytes = s.out.bytes ++ wholeBytes (bits ++ Closed.groupBits [v]) ∧
      (pushGroup v s).AccHolds (lastBits (bits ++ Closed.groupBits [v])) := by
  have hlt := h.length_lt
  obtain ⟨hcnt, hacc⟩ := h
  have hlen : (bits ++ Closed.groupBits [v]).length = bits.length + k := by simp
  have hval : (s.work.acc.toNat <<< k) ||| v.toNat = Closed.bitsValue (bits ++ Closed.groupBits [v]) := by
    rw [bitsValue_append, ← Nat.shiftLeft_add_eq_or_of_lt v.isLt, Nat.shiftLeft_eq, hacc,
      bitsValue_groupBits_singleton, groupBits_length, List.length_singleton, Nat.mul_one, Nat.mul_comm]
  rw [State.AccHolds, pushGroup_bytes, pushGroup_accCnt hk, pushGroup_acc hk, hval, hcnt, ← hlen]
  generalize bits ++ Closed.groupBits [v] = all at hlen
  refine ⟨congrArg _ ?bytes, (lastBits_length all).symm, (bitsValue_lastBits all).symm⟩
  split
  case isTrue hfull => exact (wholeBytes_of_length_lt_sixteen hfull (by omega)).symm
  case isFalse hpart => exact (wholeBytes_of_length_lt (Nat.lt_of_not_le hpart)).symm

/-- Pushing groups one after the other emits the whole bytes of ACC's bits and theirs, and ACC keeps the last bits (rule R79). -/
theorem State.AccHolds.foldl_pushGroup {k : Nat} (hk : k ≤ 8) (vs : List (BitVec k)) {s : State} {bits : List Bool}
    (h : s.AccHolds bits) :
    (vs.foldl (fun s v => Machine.pushGroup v s) s).out.bytes =
        s.out.bytes ++ wholeBytes (bits ++ Closed.groupBits vs) ∧
      (vs.foldl (fun s v => Machine.pushGroup v s) s).AccHolds (lastBits (bits ++ Closed.groupBits vs)) := by
  induction vs generalizing s bits with
  | nil =>
    rw [groupBits_nil, List.append_nil, wholeBytes_of_length_lt h.length_lt, lastBits_of_length_lt h.length_lt,
      List.append_nil]
    exact ⟨rfl, h⟩
  | cons v vs ih =>
    obtain ⟨hbytes, hholds⟩ := h.pushGroup hk v
    obtain ⟨hrest, hlast⟩ := ih hholds
    rw [List.foldl_cons, groupBits_cons, ← List.append_assoc, wholeBytes_append (bits ++ _),
      lastBits_append (bits ++ _), ← List.append_assoc, ← hbytes]
    exact ⟨hrest, hlast⟩

/-- Pushing groups changes OUT's bytes, ACC and ACC_CNT alone (rule R78). -/
theorem foldl_pushGroup_frame {k : Nat} (vs : List (BitVec k)) (s : State) :
    AccFrame s (vs.foldl (fun s v => pushGroup v s) s) ∧
      (vs.foldl (fun s v => pushGroup v s) s).work.pos = s.work.pos ∧
      (vs.foldl (fun s v => pushGroup v s) s).draws = s.draws :=
  List.foldlRecOn (motive := fun t => AccFrame s t ∧ t.work.pos = s.work.pos ∧ t.draws = s.draws) vs _ ⟨rfl, rfl, rfl⟩
    fun t ⟨hframe, hpos, hdraws⟩ v _ =>
    ⟨hframe.trans (AccFrame.pushGroup v t), (pushGroup_pos v t).trans hpos, (pushGroup_draws v t).trans hdraws⟩

/-- Settles O21: an empty accumulator holds no bits, so the bits of the groups are all there are. -/
theorem pushedGroupsArePacked : Obligations.PushedGroupsArePacked := by
  intro k vs s hk hcnt hacc
  have hempty : s.AccHolds [] := by rw [State.AccHolds, hcnt, hacc]; exact ⟨rfl, rfl⟩
  obtain ⟨hbytes, hcount, hvalue⟩ := hempty.foldl_pushGroup (by omega) vs
  obtain ⟨hframe, hpos, hdraws⟩ := foldl_pushGroup_frame vs s
  rw [List.nil_append] at hbytes hcount hvalue
  rw [lastBits_length, groupBits_length] at hcount
  rw [lastBits, groupBits_length] at hvalue
  rw [← pack_eq_wholeBytes] at hbytes
  refine ⟨_, rfl, hbytes, hcount, hvalue, ?_⟩
  rwa [AccFrame, hpos, hdraws] at hframe

/-! ### The round trip -/

/-- Bit p of the zero-extended stream of b (rule R73). -/
def streamBit (b : List Byte) (p : Nat) : Bool := Closed.bitz b p == 1

theorem streamBit_toNat (b : List Byte) (p : Nat) : (streamBit b p).toNat = Closed.bitz b p := by
  have hlt : Closed.bitz b p < 2 := by
    unfold Closed.bitz
    split <;> omega
  have hcases : Closed.bitz b p = 0 ∨ Closed.bitz b p = 1 := by omega
  rcases hcases with h | h <;> rw [streamBit, h] <;> rfl

/-- The bits of group i are k bits of the stream (rule R75). -/
theorem groupAt_getMsbD {k : Nat} (b : List Byte) (i : Nat) {j : Nat} (hj : j < k) :
    (BitVec.ofNat k (Closed.groupAt k b i)).getMsbD j = streamBit b (k * i + j) := by
  have hvalue : Closed.groupAt k b i = Closed.bitsValue ((List.range k).map fun j => streamBit b (k * i + j)) := by
    rw [← sum_weighted_bits]
    simp only [streamBit_toNat, Closed.groupAt]
  have hbit := getMsbD_bitsValue ((List.range k).map fun j => streamBit b (k * i + j)) j (by simpa using hj)
  rw [List.getElem_map, List.getElem_range, ← hvalue, List.length_map, List.length_range] at hbit
  exact hbit

/-- n blocks of k indices in a row are the first `k * n` indices. -/
theorem flatMap_range_blocks {α : Type} (k n : Nat) (f : Nat → α) :
    (List.range n).flatMap (fun i => (List.range k).map fun j => f (k * i + j)) = (List.range (k * n)).map f := by
  induction n with
  | zero => rfl
  | succ n ih =>
    rw [List.range_succ, List.flatMap_append, ih, Nat.mul_succ, List.range_add, List.map_append, List.map_map,
      List.flatMap_singleton]
    rfl

/-- The groups' bits are the stream, extended by zeros to a whole group (rules R75, R79). -/
theorem groupBits_groups (k : Nat) (b : List Byte) :
    Closed.groupBits (Closed.groups k b) = (List.range (k * Closed.groupCount k b.length)).map (streamBit b) := by
  rw [← flatMap_range_blocks, Closed.groupBits, Closed.groups, List.flatMap_map]
  exact List.flatMap_congr fun i _ => List.map_congr_left fun j hj => groupAt_getMsbD b i (List.mem_range.1 hj)

/-- Eight bits of the stream are a byte of b (rule R73). -/
theorem bitsValue_streamBit (b : List Byte) (j : Nat) :
    Closed.bitsValue ((List.range 8).map fun t => streamBit b (8 * j + t)) = ((b[j]?).getD 0).toNat := by
  rw [← sum_weighted_bits]
  have hdigit : ∀ t ∈ List.range 8, (streamBit b (8 * j + t)).toNat * 2 ^ (8 - 1 - t) =
      ((b[j]?).getD 0).toNat / 2 ^ (8 - 1 - t) % 2 * 2 ^ (8 - 1 - t) := fun t ht => by
    rw [streamBit_toNat, bitz_of_lt_eight b j (List.mem_range.1 ht)]
  rw [List.map_congr_left hdigit, sum_binary_digits, Nat.mod_eq_of_lt (BitVec.isLt _)]

/-- The groups fill the bytes of b and less than one byte more (rule R80). -/
theorem groupCount_bytes {k : Nat} (hk : 0 < k) (hk8 : k ≤ 8) (n : Nat) : k * Closed.groupCount k n / 8 = n := by
  have hle := Nat.div_mul_le_self (8 * n + k - 1) k
  have hlt := Nat.lt_div_mul_add (a := 8 * n + k - 1) hk
  rw [Nat.mul_comm, Closed.groupCount]
  omega

/-- Settles O22: the bits packed are the stream of b, eight for each byte. -/
theorem packInvertsGroups : Obligations.PackInvertsGroups := by
  intro k b hk
  have hcount := groupCount_bytes (k := k) (by omega) (by omega) b.length
  rw [pack_eq_wholeBytes, groupBits_groups, wholeBytes, List.length_map, List.length_range, hcount]
  refine List.ext_getElem (by simp) fun j hj hj' => ?_
  have hbits : (List.range 8).map (fun t => ((List.range (k * Closed.groupCount k b.length)).map (streamBit b)).getD
      (8 * j + t) false) = (List.range 8).map fun t => streamBit b (8 * j + t) :=
    List.map_congr_left fun t ht => by
      have ht := List.mem_range.1 ht
      rw [List.getD_eq_getElem _ _ (by simp; omega), List.getElem_map, List.getElem_range]
  rw [List.getElem_map, List.getElem_range, packedByte_eq, hbits, bitsValue_streamBit, List.getElem?_eq_getElem hj',
    Option.getD_some, BitVec.ofNat_toNat, BitVec.setWidth_eq]

end Sys2Proof.Machine
end

section
/-! PROOFS of the Base32 family: what B32DEC does with a text, unit by unit, the round trip, and the blank texts of three decoders (O24 to O28, O41).
A text is walked like this: up to its first invalid unit the values of its units are pushed in order, and POS counts the units. -/

namespace Sys2Proof.Machine

/-! ### How a body's end is the operation's end -/

section
variable {i : Instr} {s t : State}

/-- A ready operation whose body returns completes with the OUT it leaves (rules R140, R162). -/
theorem completesWith_of_returns (hs : s.Ready i.dir) (hb : bodyOf i s = .returns t) :
    CompletesWith (exec i s) t.out := by
  obtain ⟨-, -, hx⟩ := hs
  exact ⟨_, (exec_eq_transact i s).trans (transact_returns hx hb), rfl, rfl, rfl, rfl⟩

/-- A ready operation whose body raises ends with InvalidEncoding at the index it names, which IDX_W bits hold (rules R21, R146). -/
theorem failsWith_of_raises {j : Nat} (hs : s.Ready i.dir) (hb : bodyOf i s = .raises j t) :
    FailsWith (exec i s) .invalidEncoding j := by
  obtain ⟨hw, -, hx⟩ := hs
  have hparams : t.params = s.params := by
    have hkeep := bodyOf_keepsCommand i s
    rw [hb] at hkeep
    exact hkeep.params
  have hindex : Params.fitIndex t.params j = j := by
    rw [hparams]
    refine fitIndex_of_lt hx ?_
    rcases raises_decoder hb with rfl | rfl | rfl <;> exact raises_index_lt hw hb
  exact ⟨_, (exec_eq_transact i s).trans (transact_raises hx hb), rfl, rfl, hindex,
    terminate_deliversNothing (by decide) t j⟩

end

/-! ### What a unit of a Base32 text resolves to -/

/-- Settles O27: each unit is folded and looked up, under one folding and the other. -/
theorem base32AliasesResolve : Obligations.Base32AliasesResolve := by
  intro m
  cases m with
  | ascii => decide
  | javaChar => decide

/-- Every element of the alphabet is the symbol of a value (rule R63). -/
theorem exists_b32Symbol_eq {c : CodePoint} (h : c ∈ b32Alpha) : ∃ v, b32Symbol v = c := by
  obtain ⟨v, hv, rfl⟩ := List.getElem_of_mem h
  exact ⟨⟨v, hv⟩, rfl⟩

/-- Exactly the alphabet and the three aliases resolve (rule R64). -/
theorem b32Rev_eq_none_iff {c : CodePoint} : b32Rev c = none ↔ c ∉ b32Alpha ∧ c ∉ ['O', 'I', 'L'] := by
  refine ⟨fun h => ⟨fun hc => ?alpha, fun hc => ?letter⟩, fun ⟨halpha, halias⟩ => b32Rev_eq_none halpha halias⟩
  case alpha =>
    obtain ⟨v, rfl⟩ := exists_b32Symbol_eq hc
    simp at h
  case letter =>
    have hsome : ['O', 'I', 'L'].all (fun d => (b32Rev d).isSome) = true := by decide
    simpa [h] using List.all_eq_true.1 hsome c hc

theorem b32Invalid_iff {m : B32Fold} {c : CodePoint} :
    Closed.b32Invalid m c = true ↔ c ∉ b32Ignore ∧ b32Value m c = none := by
  simp [Closed.b32Invalid]

/-- The lowercase forms of the 22 letters of the alphabet (rules R63, R88). -/
abbrev b32Lowercase : List CodePoint :=
  ['a', 'b', 'c', 'd', 'e', 'f', 'g', 'h', 'j', 'k', 'm', 'n', 'p', 'q', 'r', 's', 't', 'v', 'w', 'x', 'y', 'z']

/-- What rule R90 rejects under `ascii`, by the lists of what it does not. -/
abbrev IsB32Rejected (c : CodePoint) : Prop :=
  c ∉ b32Ignore ∧ c ∉ b32Alpha ∧ c ∉ b32Lowercase ∧ c ∉ ['O', 'I', 'L', 'o', 'i', 'l']

/-- `u` is the one lowercase letter that is rejected. -/
theorem b32Invalid_ascii_iff_of_lower {c : CodePoint} (hlo : 0x61 ≤ c.toNat) (hhi : c.toNat ≤ 0x7A) :
    Closed.b32Invalid .ascii c = true ↔ IsB32Rejected c := by
  have hinvalid : ∀ n : Fin 26, Closed.b32Invalid .ascii (Char.ofNat (0x61 + n)) = true ↔ n = 20 := by decide
  have hrejected : ∀ n : Fin 26, IsB32Rejected (Char.ofNat (0x61 + n)) ↔ n = 20 := by decide
  have hc := (hinvalid ⟨c.toNat - 0x61, by omega⟩).trans (hrejected ⟨c.toNat - 0x61, by omega⟩).symm
  rwa [Nat.add_sub_cancel' hlo, Char.ofNat_toNat] at hc

/-- Any other code point is looked up as it is, and is on neither list of lowercase letters. -/
theorem b32Invalid_ascii_iff_of_not_lower {c : CodePoint} (h : ¬ (0x61 ≤ c.toNat ∧ c.toNat ≤ 0x7A)) :
    Closed.b32Invalid .ascii c = true ↔ IsB32Rejected c := by
  have hrange : (b32Lowercase ++ ['o', 'i', 'l']).all (fun d => 0x61 ≤ d.toNat ∧ d.toNat ≤ 0x7A) = true := by decide
  have hnot : c ∉ b32Lowercase ++ ['o', 'i', 'l'] := fun hc => h (by simpa using List.all_eq_true.1 hrange c hc)
  obtain ⟨hletter, halias⟩ := not_or.1 (mt List.mem_append.2 hnot)
  have haliases : c ∉ ['O', 'I', 'L'] ↔ c ∉ ['O', 'I', 'L', 'o', 'i', 'l'] := by
    rw [show ['O', 'I', 'L', 'o', 'i', 'l'] = ['O', 'I', 'L'] ++ ['o', 'i', 'l'] from rfl, List.mem_append, not_or,
      and_iff_left halias]
  rw [b32Invalid_iff, b32Value, foldCase_ascii_of_not_lower h, b32Rev_eq_none_iff, haliases, IsB32Rejected,
    and_iff_right hletter]

theorem b32Invalid_ascii_iff (c : CodePoint) : Closed.b32Invalid .ascii c = true ↔ IsB32Rejected c := by
  by_cases h : 0x61 ≤ c.toNat ∧ c.toNat ≤ 0x7A
  · exact b32Invalid_ascii_iff_of_lower h.1 h.2
  · exact b32Invalid_ascii_iff_of_not_lower h

/-! ### The resolved values of a text -/

theorem b32Values_append (m : B32Fold) (a b : List CodePoint) :
    Closed.b32Values m (a ++ b) = Closed.b32Values m a ++ Closed.b32Values m b := by
  simp [Closed.b32Values]

/-- An ignored unit has no value (rule R87). -/
theorem b32Values_singleton_of_ignored (m : B32Fold) {c : CodePoint} (h : c ∈ b32Ignore) :
    Closed.b32Values m [c] = [] := by
  simp [Closed.b32Values, h]

/-- Any other unit that resolves has one. -/
theorem b32Values_singleton_of_value {m : B32Fold} {c : CodePoint} {v : BitVec 5} (h : c ∉ b32Ignore)
    (hv : b32Value m c = some v) : Closed.b32Values m [c] = [v] := by
  simp [Closed.b32Values, h, hv]

/-- The ignored units of a text can be left out (rule R87). -/
theorem b32Values_filter (m : B32Fold) (cs : List CodePoint) :
    Closed.b32Values m (cs.filter fun c => !b32Ignore.contains c) = Closed.b32Values m cs := by
  rw [Closed.b32Values, List.filter_filter, Closed.b32Values]
  simp

theorem b32Values_of_ignored (m : B32Fold) {cs : List CodePoint} (h : ∀ c ∈ cs, c ∈ b32Ignore) :
    Closed.b32Values m cs = [] := by
  rw [← b32Values_filter, List.filter_eq_nil_iff.2 (by simpa using h)]
  rfl

/-- The symbols of groups have these groups as their values (rules R63, R64). -/
theorem b32Values_map_b32Symbol (m : B32Fold) (vs : List (BitVec 5)) :
    Closed.b32Values m (vs.map b32Symbol) = vs := by
  induction vs with
  | nil => rfl
  | cons v vs ih =>
    rw [List.map_cons, ← List.singleton_append, b32Values_append,
      b32Values_singleton_of_value (b32Symbol_not_ignored v) (b32Value_b32Symbol m v), ih]
    rfl

theorem b32Invalid_b32Symbol (m : B32Fold) (v : BitVec 5) : Closed.b32Invalid m (b32Symbol v) = false := by
  simp [Closed.b32Invalid]

theorem b32Invalid_of_ignored (m : B32Fold) {c : CodePoint} (h : c ∈ b32Ignore) : Closed.b32Invalid m c = false := by
  simp [Closed.b32Invalid, h]

/-! ### B32DEC -/

/-- The values are pushed one after the other, the first one first (rule R85). -/
abbrev State.pushAll (s : State) {k : Nat} (vs : List (BitVec k)) : State := vs.foldl (fun s v => pushGroup v s) s

/-- A unit that is not invalid pushes its value, or nothing if it is ignored (rules R86, R87). -/
theorem b32DecUnit_of_valid {c : CodePoint} {s : State} (h : Closed.b32Invalid s.params.b32Fold c = false) :
    b32DecUnit c s = .returns (s.pushAll (Closed.b32Values s.params.b32Fold [c])) := by
  unfold b32DecUnit
  by_cases hc : c ∈ b32Ignore
  · rw [if_pos hc, b32Values_singleton_of_ignored _ hc]
    rfl
  · cases hv : b32Value s.params.b32Fold c with
    | none => simp [b32Invalid_iff.2 ⟨hc, hv⟩] at h
    | some v =>
      rw [if_neg hc, b32Values_singleton_of_value hc hv]
      rfl

/-- An invalid unit raises at POS (rule R90). -/
theorem b32DecUnit_of_invalid {c : CodePoint} {s : State} (h : Closed.b32Invalid s.params.b32Fold c = true) :
    b32DecUnit c s = .raises s.work.pos s := by
  obtain ⟨hc, hnone⟩ := b32Invalid_iff.1 h
  simp [b32DecUnit, hc, hnone]

/-- The accumulator does not look at POS (rule R78). -/
theorem takeBits_advancePos (s : State) (t cnt : Nat) : s.advancePos.takeBits t cnt = (s.takeBits t cnt).advancePos := by
  by_cases h : 8 ≤ cnt
  · rw [State.takeBits, State.takeBits, if_pos h, if_pos h]; rfl
  · rw [State.takeBits, State.takeBits, if_neg h, if_neg h]; rfl

theorem pushGroup_advancePos {k : Nat} (v : BitVec k) (s : State) :
    pushGroup v s.advancePos = (pushGroup v s).advancePos :=
  takeBits_advancePos s _ _

theorem pushAll_advancePos {k : Nat} (vs : List (BitVec k)) (s : State) :
    s.advancePos.pushAll vs = (s.pushAll vs).advancePos :=
  List.foldl_hom State.advancePos fun t v => pushGroup_advancePos v t

theorem pushAll_params {k : Nat} (vs : List (BitVec k)) (s : State) : (s.pushAll vs).params = s.params := by
  rw [State.pushAll, (foldl_pushGroup_frame vs s).1]

/-- A text without invalid units returns, with the values of its units pushed in order (rules R85, R87). -/
theorem forUnits_b32DecUnit_of_valid {cs : List CodePoint} {s : State}
    (h : ∀ c ∈ cs, Closed.b32Invalid s.params.b32Fold c = false) :
    ∃ t, forUnits b32DecUnit cs s = .returns t ∧ t.params = s.params ∧
      t.out = (s.pushAll (Closed.b32Values s.params.b32Fold cs)).out := by
  induction cs generalizing s with
  | nil => exact ⟨s, rfl, rfl, rfl⟩
  | cons c cs ih =>
    obtain ⟨hc, hcs⟩ := List.forall_mem_cons.1 h
    have hparams := pushAll_params (Closed.b32Values s.params.b32Fold [c]) s
    obtain ⟨t, ht, htparams, htout⟩ := ih (s := (s.pushAll (Closed.b32Values s.params.b32Fold [c])).advancePos)
      (by rwa [State.advancePos_params, hparams])
    refine ⟨t, ?_, htparams.trans hparams, ?_⟩
    · rw [forUnits_cons, b32DecUnit_of_valid hc, OpResult.andThen_returns, ht]
    · rw [htout, State.advancePos_params, hparams, pushAll_advancePos, State.advancePos_out, State.pushAll,
        State.pushAll, ← List.foldl_append, ← b32Values_append, List.singleton_append]

/-- From a fresh accumulator and an empty OUT, the values are packed (rule R79). -/
theorem pushAll_out {s : State} (hw : s.work = Work.reset) (hout : s.out = Lanes.empty) (vs : List (BitVec 5)) :
    (s.pushAll vs).out = { bytes := Closed.pack vs, text := [] } := by
  obtain ⟨t, ht, hbytes, -, -, hframe⟩ := pushedGroupsArePacked 5 vs s (.inl rfl) (by rw [hw]; rfl) (by rw [hw]; rfl)
  rw [State.pushAll, ht, hframe, hbytes, hout]
  rfl

/-- Settles O24: the walk pushes the values of the units, and what is pushed is packed. -/
theorem base32DecodesResolvedUnits : Obligations.Base32DecodesResolvedUnits := by
  intro s hs hvalid
  obtain ⟨hw, hout, -⟩ := id hs
  obtain ⟨t, ht, -, htout⟩ := forUnits_b32DecUnit_of_valid hvalid
  have hdone := completesWith_of_returns (i := .b32dec) hs ht
  rwa [htout, pushAll_out hw hout] at hdone

/-- Settles O25: the units before the first invalid one return with POS at it, and it raises there. -/
theorem base32RejectsTheFirstInvalidUnit : Obligations.Base32RejectsTheFirstInvalidUnit := by
  refine ⟨fun s pre c post hs htext hpre hc => ?_, b32Invalid_ascii_iff⟩
  obtain ⟨t, ht, hparams, -⟩ := forUnits_b32DecUnit_of_valid hpre
  have hpos : t.work.pos = pre.length := by
    rw [(b32DecUnit_keepsPos.walk_pos pre s).1 t ht, hs.1]
    exact Nat.zero_add _
  have hraise : bodyOf .b32dec s = .raises pre.length t := by
    rw [bodyOf, b32DecBody, htext, forUnits_append, ht, OpResult.andThen_returns, forUnits_cons,
      b32DecUnit_of_invalid (by rwa [hparams]), hpos, OpResult.andThen_raises]
  exact failsWith_of_raises hs hraise

/-- A text has no invalid unit, or a first one (rule R90). -/
theorem b32Invalid_none_or_first (m : B32Fold) (cs : List CodePoint) :
    (∀ c ∈ cs, Closed.b32Invalid m c = false) ∨
      ∃ pre c post, cs = pre ++ c :: post ∧ (∀ d ∈ pre, Closed.b32Invalid m d = false) ∧
        Closed.b32Invalid m c = true := by
  cases hfind : cs.find? (Closed.b32Invalid m) with
  | none => exact .inl (by simpa using hfind)
  | some c =>
    obtain ⟨hc, pre, post, hcs, hpre⟩ := List.find?_eq_some_iff_append.1 hfind
    exact .inr ⟨pre, c, post, hcs, by simpa using hpre, hc⟩

/-- Settles O26: without an invalid unit both texts have the same values, and otherwise both have the same first invalid unit, which is not ignored. -/
theorem base32IgnoredUnitsDoNotMatter : Obligations.Base32IgnoredUnitsDoNotMatter := by
  intro s u hs hu hparams htext
  rcases b32Invalid_none_or_first s.params.b32Fold s.input.text with hvalid | ⟨pre, c, post, hsplit, hpre, hc⟩
  · have huvalid : ∀ c ∈ u.input.text, Closed.b32Invalid u.params.b32Fold c = false := by
      rw [htext, hparams]
      exact fun c hmem => hvalid c (List.mem_of_mem_filter hmem)
    obtain ⟨t, ht, -, htcode, -, htout⟩ := base32DecodesResolvedUnits s hs hvalid
    obtain ⟨v, hv, -, hvcode, -, hvout⟩ := base32DecodesResolvedUnits u hu huvalid
    rw [htext, hparams, b32Values_filter] at hvout
    exact ⟨t, v, ht, hv, htcode.trans hvcode.symm, fun _ => htout.trans hvout.symm,
      fun herr => by rw [htcode] at herr; cases herr⟩
  · obtain ⟨hignore, -⟩ := b32Invalid_iff.1 hc
    have husplit : u.input.text = pre.filter (fun c => !b32Ignore.contains c) ++
        c :: post.filter (fun c => !b32Ignore.contains c) := by
      rw [htext, hsplit, List.filter_append, List.filter_cons_of_pos (by simpa using hignore)]
    obtain ⟨t, ht, -, htcode, hindex, -⟩ := base32RejectsTheFirstInvalidUnit.1 s pre c post hs hsplit hpre hc
    obtain ⟨v, hv, -, hvcode, -⟩ := base32RejectsTheFirstInvalidUnit.1 u _ c _ hu husplit
      (by rw [hparams]; exact fun d hmem => hpre d (List.mem_of_mem_filter hmem)) (by rwa [hparams])
    refine ⟨t, v, ht, hv, htcode.trans hvcode.symm, fun hok => ?_, fun _ d hd => ?_⟩
    · rw [htcode] at hok; cases hok
    · rw [hindex, hsplit, List.getElem?_append_right le_rfl, Nat.sub_self, List.getElem?_cons_zero] at hd
      rwa [← Option.some.inj hd]

/-! ### The round trip -/

/-- Settles O28: the text is the groups' symbols (O23), its values are the groups (O24), and packing them gives the bytes back (O22). -/
theorem base32RoundTrip : Obligations.Base32RoundTrip := by
  intro s t u hs ht hu htext
  obtain ⟨⟨t', ht', -, -, -, hout⟩, -⟩ := base32EncodesTheGroups s hs
  obtain rfl : t' = t := by rw [ht] at ht'; cases ht'; rfl
  rw [hout] at htext
  have hvalid : ∀ c ∈ u.input.text, Closed.b32Invalid u.params.b32Fold c = false := by
    rw [htext, List.forall_mem_map]
    exact fun v _ => b32Invalid_b32Symbol _ v
  have hdone := base32DecodesResolvedUnits u hu hvalid
  rwa [htext, b32Values_map_b32Symbol, packInvertsGroups 5 s.input.bytes (.inl rfl)] at hdone

/-! ### Blank texts -/

/-- A walk over units that do nothing advances POS and does no more (rule R25). -/
theorem forUnits_of_skipped {f : CodePoint → State → OpResult} {cs : List CodePoint}
    (h : ∀ c ∈ cs, ∀ s, f c s = .returns s) (s : State) :
    forUnits f cs s = .returns { s with work.pos := s.work.pos + cs.length } := by
  induction cs generalizing s with
  | nil => rfl
  | cons c cs ih =>
    obtain ⟨hc, hcs⟩ := List.forall_mem_cons.1 h
    rw [forUnits_cons, hc, OpResult.andThen_returns, ih hcs, List.length_cons, Nat.add_comm cs.length, ← Nat.add_assoc]
    rfl

theorem b85DecTail_of_no_digits {s : State} (h : s.work.b85Cnt = 0) : b85DecTail s = .returns s := if_pos h

/-- B85DEC of a blank text fills no slot and emits nothing (rules R103, R109). -/
theorem b85DecBody_of_blank {s : State} (h : ∀ c ∈ s.input.text, c ∈ b85Ignore) :
    ∃ t, b85DecBody s = .returns t ∧ t.out = s.out := by
  rw [b85DecBody, forUnits_of_skipped (f := b85DecUnit) fun c hc t => if_pos (h c hc), OpResult.andThen_returns]
  exact ⟨_, b85DecTail_of_no_digits rfl, rfl⟩

/-- B58DEC of a blank text emits nothing (rule R119). -/
theorem b58DecBody_of_blank {s : State} (h : ∀ c ∈ s.input.text, c ∈ s.params.blankSet) :
    b58DecBody s = .returns s :=
  if_pos (by simpa [isBlankText] using h)

/-- Settles O41: B32DEC packs no values, B85DEC has no group, and B58DEC returns at once. -/
theorem blankTextsDecodeToNothing : Obligations.BlankTextsDecodeToNothing := by
  intro s hs
  obtain ⟨-, hout, -⟩ := id hs
  refine ⟨fun h => ?base32, fun h => ?base85, fun h => ?base58⟩
  case base32 =>
    have hdone := base32DecodesResolvedUnits s hs fun c hc => b32Invalid_of_ignored _ (h c hc)
    rwa [b32Values_of_ignored _ h] at hdone
  case base85 =>
    obtain ⟨t, ht, htout⟩ := b85DecBody_of_blank h
    have hdone := completesWith_of_returns (i := .b85dec) hs ht
    rwa [htout, hout] at hdone
  case base58 =>
    have hdone := completesWith_of_returns (i := .b58dec) hs (b58DecBody_of_blank h)
    rwa [hout] at hdone

end Sys2Proof.Machine
end

section
/-! PROOFS of the Base85 family: the symbols of the chunks (O29), and a text read unit by unit.
A reading says which groups of a text are complete and which symbols the open one has; it counts the slots and gives the groups. -/

namespace Sys2Proof.Machine

open Sys2Proof.Closed (b85IsSymbol b85Groups b85Strip b85Slot b85Slots b85Chunks b85ChunkSymbols)

/-! ### B85ENC -/

theorem beNat_append_replicate_zero (bs : List Byte) (k : Nat) : beNat (bs ++ List.replicate k 0) = beNat bs * 256 ^ k := by
  induction k with
  | zero => simp
  | succ k ih =>
    rw [List.replicate_succ', ← List.append_assoc, beNat, List.foldl_append, ← beNat, ih, List.foldl_cons, List.foldl_nil,
      pow_succ]
    change 256 * (beNat bs * 256 ^ k) + 0 = _
    ring

/-- The bytes of a chunk come first in its value, zero bytes behind them (rule R97). -/
theorem b85ChunkValue_eq (bs : List Byte) : b85ChunkValue bs = beNat bs * 256 ^ (4 - bs.length) :=
  beNat_append_replicate_zero bs _

/-- The next chunk value with zero bytes behind is still in reach of 32 bits (rule R110). -/
theorem beNat_succ_mul_le {bs : List Byte} (h : bs.length ≤ 4) : (beNat bs + 1) * 256 ^ (4 - bs.length) ≤ 2 ^ 32 := by
  calc (beNat bs + 1) * 256 ^ (4 - bs.length)
      ≤ 256 ^ bs.length * 256 ^ (4 - bs.length) := Nat.mul_le_mul_right _ (beNat_lt bs)
    _ = 2 ^ 32 := by rw [← pow_add, Nat.add_sub_cancel' h]; norm_num

theorem b85ChunkValue_lt {bs : List Byte} (h : bs.length ≤ 4) : b85ChunkValue bs < 2 ^ 32 := by
  rw [b85ChunkValue_eq]
  exact (Nat.mul_lt_mul_of_pos_right (Nat.lt_succ_self _) (by positivity)).trans_le (beNat_succ_mul_le h)

/-- The first n digits of a chunk value, the most significant first (rule R99). -/
def b85LeadingDigits (v n : Nat) : List Nat := (List.range n).map fun t => v / 85 ^ (4 - t) % 85

theorem b85LeadingDigits_succ (v n : Nat) :
    b85LeadingDigits v (n + 1) = b85LeadingDigits v n ++ [v / 85 ^ (4 - n) % 85] := by
  simp [b85LeadingDigits, List.range_succ]

theorem b85Digits_take (v : Nat) {n : Nat} (h : n ≤ 5) : (b85Digits v).take n = b85LeadingDigits v n := by
  have hfive : b85Digits v = b85LeadingDigits v 5 := by simp [b85Digits, b85LeadingDigits, List.range_succ]
  rw [hfive, b85LeadingDigits, b85LeadingDigits, ← List.map_take, List.take_range, Nat.min_eq_left h]

/-- The symbols of the first r + 1 digits of a chunk of r bytes (rules R99, R100). -/
def b85DigitSymbols (bs : List Byte) : List CodePoint :=
  (b85LeadingDigits (b85ChunkValue bs) (bs.length + 1)).map b85Symbol

/-- A chunk is `z`, or the symbols of its digits (rules R98 to R100). -/
theorem b85ChunkSymbols_eq (bs : List Byte) :
    b85ChunkSymbols bs = if bs.length = 4 ∧ beNat bs = 0 then ['z'] else b85DigitSymbols bs := by
  rw [b85ChunkSymbols, b85DigitSymbols, b85ChunkValue_eq, b85LeadingDigits, List.map_map]
  rfl

theorem b85EncChunk_text {bs : List Byte} (h : bs.length ≤ 4) (s : State) :
    (b85EncChunk bs s).out.text = s.out.text ++ b85ChunkSymbols bs := by
  have hcnt : (BitVec.ofNat 3 bs.length).toNat = bs.length := (BitVec.toNat_ofNat _ _).trans (Nat.mod_eq_of_lt (by omega))
  have hval : (BitVec.ofNat 32 (b85ChunkValue bs)).toNat = b85ChunkValue bs :=
    (BitVec.toNat_ofNat _ _).trans (Nat.mod_eq_of_lt (b85ChunkValue_lt h))
  have hzero : (bs.length = 4 ∧ b85ChunkValue bs = 0) ↔ (bs.length = 4 ∧ beNat bs = 0) :=
    and_congr_right fun h4 => by rw [b85ChunkValue_eq, h4]; simp
  have htext : (b85EncChunk bs s).out.text =
    s.out.text ++ b85ChunkText (BitVec.ofNat 32 (b85ChunkValue bs)).toNat (BitVec.ofNat 3 bs.length).toNat := rfl
  rw [htext, hcnt, hval, b85ChunkText, b85Digits_take _ (by omega), b85ChunkSymbols_eq]
  simp only [hzero]
  rfl

/-- One to four bytes are one chunk (rule R97). -/
theorem b85Chunks_of_short {bs : List Byte} (h0 : bs ≠ []) (h4 : bs.length ≤ 4) : b85Chunks bs = [bs] := by
  have hpos := List.length_pos_iff.2 h0
  have hcount : (bs.length + 3) / 4 = 1 := by omega
  simp [b85Chunks, hcount, List.take_of_length_le h4]

/-- The chunks, at most four bytes each, make up the input (rule R97). -/
theorem b85Chunks_spec : ∀ bs : List Byte,
    (b85Chunks bs).flatten = bs ∧ ∀ g ∈ b85Chunks bs, g.length ≤ 4
  | [] => by decide
  | [_] | [_, _] | [_, _, _] => by
    rw [b85Chunks_of_short (by simp) (by simp)]
    simp
  | a :: b :: c :: d :: rest => by
    obtain ⟨hflat, hlen⟩ := b85Chunks_spec rest
    rw [b85Chunks_cons, List.flatten_cons, hflat, List.forall_mem_cons]
    exact ⟨rfl, by simp, hlen⟩

/-- The loop of B85ENC emits the symbols of the chunks in order (rules R96, R97). -/
theorem b85EncLoop_text : ∀ (bs : List Byte) (s : State),
    (b85EncLoop bs s).out.text = s.out.text ++ (b85Chunks bs).flatMap b85ChunkSymbols
  | [], s => (List.append_nil _).symm
  | [_], s | [_, _], s | [_, _, _], s => by
    rw [b85Chunks_of_short (by simp) (by simp), List.flatMap_singleton]
    exact b85EncChunk_text (by simp) s
  | a :: b :: c :: d :: rest, s => by
    rw [b85EncLoop, b85EncLoop_text rest, b85EncChunk_text (by simp), b85Chunks_cons, List.flatMap_cons, List.append_assoc]

/-- Settles O29, by induction on the chunks. -/
theorem base85EncodesTheChunks : Obligations.Base85EncodesTheChunks := by
  intro s hs
  obtain ⟨-, hout, -⟩ := id hs
  have htext : (bodyOf .b85enc s).state.out.text = (b85Chunks s.input.bytes).flatMap b85ChunkSymbols := by
    rw [bodyOf, b85EncBody, OpResult.state_returns, b85EncLoop_text, hout]
    rfl
  have hdone := encoder_completesWith (i := .b85enc) rfl hs
  rwa [htext] at hdone

/-! ### A text, read unit by unit -/

/-- What of a Base85 text has been read: its complete groups, each `z` or five symbols, and the symbols of the open group. -/
structure B85Reading where
  full : List (List CodePoint)
  part : List CodePoint

/-- Nothing has been read. -/
def B85Reading.nil : B85Reading := ⟨[], []⟩

/-- One more symbol, which completes the open group if it is the fifth (rule R106). -/
def B85Reading.push (r : B85Reading) (c : CodePoint) : B85Reading :=
  if r.part.length = 4 then ⟨r.full ++ [r.part ++ [c]], []⟩ else ⟨r.full, r.part ++ [c]⟩

/-- One more unit, `none` when it is rejected (rules R103 to R105). -/
def B85Reading.read (r : B85Reading) (c : CodePoint) : Option B85Reading :=
  if c ∈ b85Ignore then some r
  else if c = 'z' then (if r.part = [] then some ⟨r.full ++ [['z']], []⟩ else none)
  else if b85IsSymbol c then some (r.push c)
  else none

/-- The reading of a whole text, from its first unit on. -/
def b85Reading (t : List CodePoint) : Option B85Reading := t.foldlM B85Reading.read .nil

/-- All groups, the open one last if it has a symbol (rule R108). -/
def B85Reading.groups (r : B85Reading) : List (List CodePoint) := r.full ++ if r.part = [] then [] else [r.part]

/-- What a reading always is: its complete groups are `z` or five units, and its open group is at most four symbols. -/
structure B85Reading.Valid (r : B85Reading) : Prop where
  complete : ∀ g ∈ r.full, g = ['z'] ∨ g.length = 5
  length_le : r.part.length ≤ 4
  symbols : ∀ c ∈ r.part, b85IsSymbol c = true

theorem B85Reading.Valid.nil : B85Reading.nil.Valid := ⟨by simp [B85Reading.nil], Nat.zero_le _, by simp [B85Reading.nil]⟩

theorem mem_b85Ignore_iff {c : CodePoint} : c ∈ b85Ignore ↔ c.toNat ∈ [0x09, 0x0A, 0x0B, 0x0C, 0x0D, 0x20] := by
  simp only [b85Ignore, List.mem_cons, List.not_mem_nil, or_false, ← Char.toNat_inj]
  rfl

theorem b85Strip_eq (t : List CodePoint) : b85Strip t = t.filter (· ∉ b85Ignore) :=
  List.filter_congr fun c _ => by simp only [mem_b85Ignore_iff, decide_not]

theorem b85IsSymbol_iff {c : CodePoint} : b85IsSymbol c = true ↔ 0x21 ≤ c.toNat ∧ c.toNat ≤ 0x75 := decide_eq_true_iff

theorem z_not_symbol : b85IsSymbol 'z' = false := rfl

theorem z_not_ignored : 'z' ∉ b85Ignore := by decide

theorem ne_z_of_symbol {c : CodePoint} (h : b85IsSymbol c = true) : c ≠ 'z' := by
  rintro rfl; cases h

theorem not_ignored_of_symbol {c : CodePoint} (h : b85IsSymbol c = true) : c ∉ b85Ignore := by
  rw [mem_b85Ignore_iff]
  rw [b85IsSymbol_iff] at h
  simp only [List.mem_cons, List.not_mem_nil, or_false]
  omega

section
variable {r : B85Reading} {c : CodePoint}

theorem B85Reading.read_of_ignored (h : c ∈ b85Ignore) : r.read c = some r := if_pos h

theorem B85Reading.read_of_symbol (h : b85IsSymbol c = true) : r.read c = some (r.push c) := by
  simp [read, not_ignored_of_symbol h, ne_z_of_symbol h, h]

/-- A unit is rejected when it is `z` in a group, or no unit of a Base85 text at all (rules R104, R105). -/
theorem B85Reading.read_eq_none_iff :
    r.read c = none ↔ (c = 'z' ∧ r.part ≠ []) ∨ (c ∉ b85Ignore ∧ c ≠ 'z' ∧ b85IsSymbol c = false) := by
  by_cases hi : c ∈ b85Ignore
  · have hz : c ≠ 'z' := fun h => z_not_ignored (h ▸ hi)
    simp [read, hi, hz]
  · by_cases hz : c = 'z'
    · simp [read, hz, z_not_ignored]
    · simp [read, hi, hz]

/-- The four ways to read a unit (rules R103 to R106). -/
theorem B85Reading.read_cases {r' : B85Reading} (h : r.read c = some r') :
    (c ∈ b85Ignore ∧ r' = r) ∨
    (c = 'z' ∧ r.part = [] ∧ r' = ⟨r.full ++ [['z']], []⟩) ∨
    (b85IsSymbol c = true ∧ r.part.length = 4 ∧ r' = ⟨r.full ++ [r.part ++ [c]], []⟩) ∨
    (b85IsSymbol c = true ∧ r.part.length ≠ 4 ∧ r' = ⟨r.full, r.part ++ [c]⟩) := by
  unfold read at h
  split at h
  · exact .inl ⟨‹_›, (Option.some.inj h).symm⟩
  split at h
  · split at h
    · exact .inr (.inl ⟨‹_›, ‹_›, (Option.some.inj h).symm⟩)
    · cases h
  split at h
  · obtain rfl := Option.some.inj h
    refine .inr (.inr ?_)
    by_cases h4 : r.part.length = 4
    · exact .inl ⟨‹_›, h4, if_pos h4⟩
    · exact .inr ⟨‹_›, h4, if_neg h4⟩
  · cases h

/-- A complete group stays. -/
theorem B85Reading.full_subset_of_read {r' : B85Reading} (h : r.read c = some r') : r.full ⊆ r'.full := by
  rcases read_cases h with ⟨-, rfl⟩ | ⟨-, -, rfl⟩ | ⟨-, -, rfl⟩ | ⟨-, -, rfl⟩ <;> simp

/-- A unit that is not ignored is the last one of the last group. -/
theorem B85Reading.groups_of_read {r' : B85Reading} (hi : c ∉ b85Ignore) (h : r.read c = some r') :
    r'.groups = r.full ++ [r.part ++ [c]] := by
  rcases read_cases h with ⟨hign, -⟩ | ⟨rfl, hpart, rfl⟩ | ⟨-, -, rfl⟩ | ⟨-, -, rfl⟩
  · exact absurd hign hi
  · simp [groups, hpart]
  · simp [groups]
  · simp [groups]

/-- Only a symbol is read into an open group (rules R103 to R105). -/
theorem B85Reading.symbol_of_read {r' : B85Reading} (hi : c ∉ b85Ignore) (hpart : r.part ≠ []) (h : r.read c = some r') :
    b85IsSymbol c = true := by
  rcases read_cases h with ⟨hign, -⟩ | ⟨-, hnil, -⟩ | ⟨hsym, -⟩ | ⟨hsym, -⟩
  · exact absurd hign hi
  · exact absurd hnil hpart
  · exact hsym
  · exact hsym

theorem B85Reading.Valid.symbols_concat (hr : r.Valid) (hc : b85IsSymbol c = true) :
    ∀ d ∈ r.part ++ [c], b85IsSymbol d = true :=
  List.forall_mem_append.2 ⟨hr.symbols, List.forall_mem_singleton.2 hc⟩

theorem B85Reading.Valid.read {r' : B85Reading} (hr : r.Valid) (h : r.read c = some r') : r'.Valid := by
  obtain ⟨hfull, hlen, hsym⟩ := id hr
  rcases read_cases h with ⟨-, rfl⟩ | ⟨-, -, rfl⟩ | ⟨-, h4, rfl⟩ | ⟨hc, h4, rfl⟩
  · exact ⟨hfull, hlen, hsym⟩
  · exact ⟨List.forall_mem_append.2 ⟨hfull, by simp⟩, Nat.zero_le _, by simp⟩
  · exact ⟨List.forall_mem_append.2 ⟨hfull, by simp [h4]⟩, Nat.zero_le _, by simp⟩
  · exact ⟨hfull, by rw [List.length_append, List.length_singleton]; omega, hr.symbols_concat hc⟩

end

theorem b85Reading_concat (t : List CodePoint) (c : CodePoint) :
    b85Reading (t ++ [c]) = (b85Reading t).bind (·.read c) := by
  simp [b85Reading]

/-- What is read of a text that ends in c is what is read of the rest, and then c. -/
theorem b85Reading_concat_eq_some {t : List CodePoint} {c : CodePoint} {r' : B85Reading} :
    b85Reading (t ++ [c]) = some r' ↔ ∃ r, b85Reading t = some r ∧ r.read c = some r' := by
  rw [b85Reading_concat, Option.bind_eq_some_iff]

/-- Ignored units at the end change nothing (rule R103). -/
theorem b85Reading_append_ignored (t : List CodePoint) {post : List CodePoint} (h : ∀ d ∈ post, d ∈ b85Ignore) :
    b85Reading (t ++ post) = b85Reading t := by
  induction post using List.reverseRecOn with
  | nil => rw [List.append_nil]
  | append_singleton post d ih =>
    obtain ⟨hpost, hd⟩ := List.forall_mem_append.1 h
    rw [← List.append_assoc, b85Reading_concat, ih hpost]
    simp [B85Reading.read_of_ignored (List.forall_mem_singleton.1 hd)]

theorem b85Reading_valid {t : List CodePoint} {r : B85Reading} (h : b85Reading t = some r) : r.Valid := by
  induction t using List.reverseRecOn generalizing r with
  | nil => obtain rfl := Option.some.inj h; exact B85Reading.Valid.nil
  | append_singleton t c ih =>
    obtain ⟨r0, ht, hc⟩ := b85Reading_concat_eq_some.1 h
    exact (ih ht).read hc

/-! ### The reading counts the slots -/

/-- The slots a unit fills are those of its reading (rules R103 to R106). -/
theorem b85Slot_eq {r : B85Reading} (hr : r.Valid) (c : CodePoint) :
    b85Slot r.part.length c = (r.read c).map (·.part.length) := by
  have hlen := hr.length_le
  by_cases hi : c ∈ b85Ignore
  · rw [B85Reading.read_of_ignored hi, b85Slot, if_pos (mem_b85Ignore_iff.1 hi)]
    rfl
  have hi' := mt mem_b85Ignore_iff.2 hi
  cases hc : r.read c with
  | none =>
    rcases B85Reading.read_eq_none_iff.1 hc with ⟨rfl, hpart⟩ | ⟨-, hz, hsym⟩
    · rw [b85Slot, if_neg hi', if_pos rfl, if_neg (mt List.length_eq_zero_iff.1 hpart)]
      rfl
    · simp [b85Slot, hi', hz, hsym]
  | some r' =>
    rcases B85Reading.read_cases hc with ⟨h, -⟩ | ⟨rfl, hpart, rfl⟩ | ⟨hsym, h4, rfl⟩ | ⟨hsym, h4, rfl⟩
    · exact absurd h hi
    · rw [b85Slot, if_neg hi', if_pos rfl, if_pos (List.length_eq_zero_iff.2 hpart)]
      rfl
    · rw [b85Slot, if_neg hi', if_neg (ne_z_of_symbol hsym), if_pos hsym, h4]
      rfl
    · rw [b85Slot, if_neg hi', if_neg (ne_z_of_symbol hsym), if_pos hsym, Nat.mod_eq_of_lt (by omega)]
      simp

/-- The slots filled after a text are those of its open group (rules R102 to R106). -/
theorem b85Slots_eq (t : List CodePoint) : b85Slots t = (b85Reading t).map (·.part.length) := by
  induction t using List.reverseRecOn with
  | nil => rfl
  | append_singleton t c ih =>
    have hstep : b85Slots (t ++ [c]) = (b85Slots t).bind (b85Slot · c) := by simp [b85Slots]
    rw [hstep, ih, b85Reading_concat]
    cases hr : b85Reading t with
    | none => rfl
    | some r => exact b85Slot_eq (b85Reading_valid hr) c

/-! ### The reading gives the groups -/

theorem b85Groups_z (t : List CodePoint) : b85Groups ('z' :: t) = (b85Groups t).map (['z'] :: ·) := by
  conv_lhs => unfold b85Groups
  exact if_pos rfl

section
variable {w : List CodePoint} (hz : w.head? ≠ some 'z')
include hz

/-- Up to four units at the end are one group, if all are symbols (rule R108). -/
theorem b85Groups_of_short (h0 : w ≠ []) (h : w.length < 5) :
    b85Groups w = if w.all b85IsSymbol then some [w] else none := by
  match w, h with
  | a :: w', h =>
    have ha : a ≠ 'z' := fun h => hz (congrArg some h)
    unfold b85Groups
    rw [if_neg ha]
    split
    · simp at h; omega
    · rfl

/-- Five units in front are one group, if all are symbols (rule R106). -/
theorem b85Groups_of_five (h : w.length = 5) (t : List CodePoint) :
    b85Groups (w ++ t) = if w.all b85IsSymbol then (b85Groups t).map (w :: ·) else none := by
  match w, h with
  | [a, b, c, d, e], _ =>
    have ha : a ≠ 'z' := fun h => hz (congrArg some h)
    simp only [List.cons_append, List.nil_append, b85Groups, if_neg ha]

/-- A unit that is no symbol, among the first five, is in no group (rules R104, R105). -/
theorem b85Groups_eq_none {c : CodePoint} (hc : b85IsSymbol c = false) (hmem : c ∈ w.take 5) : b85Groups w = none := by
  have hall : ¬ (w.take 5).all b85IsSymbol = true := fun h => by simp [List.all_eq_true.1 h c hmem] at hc
  by_cases hlen : w.length < 5
  · rw [List.take_of_length_le hlen.le] at hall hmem
    rw [b85Groups_of_short hz (List.ne_nil_of_mem hmem) hlen, if_neg hall]
  · rw [← List.take_append_drop 5 w, b85Groups_of_five (by rwa [List.head?_take]) (by simpa using hlen), if_neg hall]

end

theorem head_ne_z_of_symbols {p : List CodePoint} (h : ∀ c ∈ p, b85IsSymbol c = true) : p.head? ≠ some 'z' :=
  fun hz => by simpa [z_not_symbol] using h 'z' (List.mem_of_head? hz)

section
variable {r : B85Reading} {c : CodePoint} (hr : r.Valid) (t : List CodePoint)
include hr

/-- A rejected unit is in no group (rules R104, R105). -/
theorem b85Groups_of_rejected (hc : r.read c = none) : b85Groups (r.part ++ c :: t) = none := by
  have hhead := head_ne_z_of_symbols hr.symbols
  have hmem : c ∈ (r.part ++ c :: t).take 5 := by
    rw [List.append_cons]
    refine List.mem_of_mem_take (i := r.part.length + 1) ?_
    rw [List.take_take, Nat.min_eq_left (Nat.succ_le_succ hr.length_le), List.take_left' (by simp)]
    simp
  rcases B85Reading.read_eq_none_iff.1 hc with ⟨rfl, hpart⟩ | ⟨-, hz, hsym⟩
  · exact b85Groups_eq_none (by rwa [List.head?_append_of_ne_nil _ hpart]) z_not_symbol hmem
  · refine b85Groups_eq_none ?_ hsym hmem
    cases hpart : r.part with
    | nil => simpa using hz
    | cons a p => rw [hpart] at hhead; exact hhead

/-- A unit that is read and not ignored moves from the text into the groups (rules R104, R106). -/
theorem b85Groups_of_read {r' : B85Reading} (hi : c ∉ b85Ignore) (hc : r.read c = some r') :
    (b85Groups (r.part ++ c :: t)).map (r.full ++ ·) = (b85Groups (r'.part ++ t)).map (r'.full ++ ·) := by
  rcases B85Reading.read_cases hc with ⟨h, -⟩ | ⟨rfl, hpart, rfl⟩ | ⟨hsym, h4, rfl⟩ | ⟨hsym, -, rfl⟩
  · exact absurd h hi
  · rw [hpart, List.nil_append, b85Groups_z, Option.map_map]
    simp [Function.comp_def]
  · have hall := hr.symbols_concat hsym
    rw [List.append_cons, b85Groups_of_five (head_ne_z_of_symbols hall) (by simp [h4]),
      if_pos (List.all_eq_true.2 hall), Option.map_map]
    simp [Function.comp_def]
  · rw [List.append_cons]

/-- At the end of the text the open group is the last one (rule R108). -/
theorem b85Groups_part : (b85Groups r.part).map (r.full ++ ·) = some r.groups := by
  by_cases hpart : r.part = []
  · simp [hpart, b85Groups, B85Reading.groups]
  · rw [b85Groups_of_short (head_ne_z_of_symbols hr.symbols) hpart (Nat.lt_succ_of_le hr.length_le),
      if_pos (List.all_eq_true.2 hr.symbols)]
    simp [hpart, B85Reading.groups]

end

/-- The groups of what is read and still to be read are those of the reading of it all. -/
theorem b85Groups_part_append (t : List CodePoint) {r : B85Reading} (hr : r.Valid) :
    (b85Groups (r.part ++ b85Strip t)).map (r.full ++ ·) = (t.foldlM B85Reading.read r).map B85Reading.groups := by
  induction t generalizing r with
  | nil =>
    rw [b85Strip_eq, List.filter_nil, List.append_nil]
    exact b85Groups_part hr
  | cons c t ih =>
    rw [List.foldlM_cons]
    by_cases hi : c ∈ b85Ignore
    · rw [b85Strip_eq, List.filter_cons_of_neg (by simpa using hi), ← b85Strip_eq, B85Reading.read_of_ignored hi]
      exact ih hr
    · rw [b85Strip_eq, List.filter_cons_of_pos (by simpa using hi), ← b85Strip_eq]
      cases hc : r.read c with
      | none => rw [b85Groups_of_rejected hr _ hc]; rfl
      | some r' => rw [b85Groups_of_read hr _ hi hc]; exact ih (hr.read hc)

/-- The groups of a text are those of its reading (rules R102 to R108). -/
theorem b85Groups_strip (t : List CodePoint) : b85Groups (b85Strip t) = (b85Reading t).map B85Reading.groups := by
  have h := b85Groups_part_append t B85Reading.Valid.nil
  simpa [B85Reading.nil, b85Reading] using h

end Sys2Proof.Machine
end

section
/-! PROOFS of the Base85 family, continued: B85DEC follows the reading of its text (O31, O32, O33). -/

namespace Sys2Proof.Machine

open Sys2Proof.Closed (b85IsSymbol b85Groups b85Strip b85Digit b85Value b85GroupBytes b85GroupOverflows)

/-! ### The group buffer -/

@[simp] theorem b85PushDigit_out (d : Nat) (s : State) : (b85PushDigit d s).out = s.out := rfl
@[simp] theorem b85PushDigit_params (d : Nat) (s : State) : (b85PushDigit d s).params = s.params := rfl

/-- The buffer with no slot filled (rule R106). -/
def State.emptyBuffer (s : State) : State := { s with work.b85Cnt := 0 }

@[simp] theorem State.emptyBuffer_out (s : State) : s.emptyBuffer.out = s.out := rfl

/-- The buffer with the slots behind the filled ones padded (rule R108). -/
def State.padBuffer (s : State) : State := { s with work.b85Buf := b85Pad s.work.b85Cnt.toNat s.work.b85Buf }

@[simp] theorem State.padBuffer_out (s : State) : s.padBuffer.out = s.out := rfl

/-- The filled slots hold the digits of the symbols p (rule R28). -/
structure State.Holds (s : State) (p : List CodePoint) : Prop where
  cnt : s.work.b85Cnt.toNat = p.length
  slots : s.work.b85Buf.toList.take p.length = p.map fun c => BitVec.ofNat 7 (b85Digit c)

/-- B85_CNT is zero between groups (rule R28). -/
theorem State.Holds.cnt_eq_zero_iff {s : State} {p : List CodePoint} (h : s.Holds p) : s.work.b85Cnt = 0 ↔ p = [] := by
  rw [← List.length_eq_zero_iff, ← h.cnt, ← BitVec.toNat_inj]
  rfl

theorem State.emptyBuffer_holds (s : State) : s.emptyBuffer.Holds [] := ⟨rfl, rfl⟩

/-- The next slot takes the digit of the next symbol (rule R105). -/
theorem State.Holds.push {s : State} {p : List CodePoint} (h : s.Holds p) (hlen : p.length ≤ 4) (c : CodePoint) :
    (b85PushDigit (b85Digit c) s).Holds (p ++ [c]) where
  cnt := by
    have hnext : (b85PushDigit (b85Digit c) s).work.b85Cnt.toNat = (s.work.b85Cnt.toNat + 1) % 2 ^ 3 := BitVec.toNat_add _ _
    rw [hnext, h.cnt, List.length_append, List.length_singleton, Nat.mod_eq_of_lt (by omega)]
  slots := by
    change (s.work.b85Buf.setIfInBounds s.work.b85Cnt.toNat _).toList.take _ = _
    have hlt : p.length < s.work.b85Buf.toList.length := by rw [Vector.length_toList]; omega
    rw [Vector.toList_setIfInBounds, h.cnt, List.length_append, List.length_singleton, List.set_eq_take_append_cons_drop,
      if_pos hlt, List.append_cons, List.take_left' (by simpa using hlen.trans (by decide)), h.slots, List.map_append,
      List.map_singleton]

/-- V is the number that the five slots write in base 85 (rule R107). -/
theorem b85GroupValue_eq_foldl (e : Vector (BitVec 7) 5) :
    b85GroupValue e = (e.toList.map BitVec.toNat).foldl (fun v d => 85 * v + d) 0 := by
  have he : e = #v[e[0], e[1], e[2], e[3], e[4]] := by ext i hi; interval_cases i <;> rfl
  rw [he]
  simp only [b85GroupValue, Vector.toList_mk, List.map_cons, List.map_nil, List.foldl_cons, List.foldl_nil]
  simp
  ring

/-- The padding keeps the m filled slots (rule R108). -/
theorem b85Pad_toList {m : Nat} (h : m ≤ 5) (e : Vector (BitVec 7) 5) :
    (b85Pad m e).toList = e.toList.take m ++ List.replicate (5 - m) 84#7 := by
  refine List.ext_getElem (by simp; omega) fun i _ _ => ?_
  by_cases him : i < m
  · have hi : i < min m 5 := by omega
    simp [b85Pad, him, hi]
  · simp [b85Pad, List.getElem_append, him]

theorem b85Digit_lt {c : CodePoint} (h : b85IsSymbol c = true) : b85Digit c < 85 := by
  rw [b85IsSymbol_iff] at h
  rw [b85Digit]
  omega

/-- The padded buffer has the value of the group it holds (rules R107, R108). -/
theorem b85GroupValue_pad {s : State} {g : List CodePoint} (h : s.Holds g) (hlen : g.length ≤ 5)
    (hg : ∀ c ∈ g, b85IsSymbol c = true) : b85GroupValue (b85Pad g.length s.work.b85Buf) = b85Value g := by
  have hdigits : (g.map fun c => BitVec.ofNat 7 (b85Digit c)).map BitVec.toNat = g.map b85Digit := by
    rw [List.map_map]
    refine List.map_congr_left fun c hc => (BitVec.toNat_ofNat _ _).trans (Nat.mod_eq_of_lt ?_)
    have := b85Digit_lt (hg c hc)
    omega
  rw [b85GroupValue_eq_foldl, b85Pad_toList hlen, h.slots, List.map_append, hdigits, List.map_replicate]
  rfl

/-- Decoding a group raises if it overflows under `error`, and else emits its bytes (rules R107, R108). -/
theorem b85EmitGroup_eq {s : State} {g : List CodePoint} (hv : b85GroupValue s.work.b85Buf = b85Value g) (hz : g ≠ ['z'])
    (i : Nat) : b85EmitGroup g.length i s =
      if s.params.b85Overflow = .error ∧ b85GroupOverflows g = true then .raises i s
      else .returns (s.emitBytes (b85GroupBytes g)) := by
  rw [b85EmitGroup, hv, b85GroupBytes, if_neg hz]
  simp [b85Overflows, b85GroupOverflows, and_assoc]

/-! ### A unit of B85DEC -/

/-- The parameters let a group pass: it does not overflow, or overflow wraps (rule R107). -/
def b85Allows (p : Params) (g : List CodePoint) : Prop := p.b85Overflow = .wrap ∨ b85GroupOverflows g = false

/-- The state holds the open group of the reading r, and has emitted the bytes of its complete groups (rules R104, R106). -/
structure State.HasRead (s : State) (r : B85Reading) : Prop extends s.Holds r.part where
  out : s.out = { bytes := r.full.flatMap b85GroupBytes, text := [] }

theorem not_error_of_allows {p : Params} {g : List CodePoint} (h : b85Allows p g) :
    ¬ (p.b85Overflow = .error ∧ b85GroupOverflows g = true) := by
  rintro ⟨herr, hover⟩
  rcases h with hwrap | hno
  · rw [herr] at hwrap; cases hwrap
  · rw [hover] at hno; cases hno

theorem b85FullGroup_of_part {s : State} {p : List CodePoint} (h : s.Holds p) (hlen : p.length ≠ 5) :
    b85FullGroup s = .returns s :=
  if_neg fun hcnt => hlen (by rw [← h.cnt, hcnt]; rfl)

/-- The fifth symbol raises at POS if its group overflows under `error`, and else empties the buffer (rules R106, R107). -/
theorem b85FullGroup_of_five {s : State} {g : List CodePoint} (h : s.Holds g) (hlen : g.length = 5)
    (hg : ∀ c ∈ g, b85IsSymbol c = true) : b85FullGroup s =
      if s.params.b85Overflow = .error ∧ b85GroupOverflows g = true then .raises s.work.pos s
      else .returns (s.emitBytes (b85GroupBytes g)).emptyBuffer := by
  have hcnt : s.work.b85Cnt = 5 := BitVec.eq_of_toNat_eq (h.cnt.trans hlen)
  have hpad : b85Pad 5 s.work.b85Buf = s.work.b85Buf := by
    rw [← Vector.toList_inj, b85Pad_toList le_rfl]
    simp
  have hv := b85GroupValue_pad h hlen.le hg
  rw [hlen, hpad] at hv
  have hemit := b85EmitGroup_eq hv (by rintro rfl; simp at hlen) s.work.pos
  rw [hlen] at hemit
  rw [b85FullGroup, if_pos hcnt, hemit]
  split <;> rfl

theorem b85InRange_eq (c : CodePoint) : b85InRange c = b85IsSymbol c := by
  rw [b85InRange, b85IsSymbol, Bool.decide_and]

theorem b85DecUnit_of_z (s : State) : b85DecUnit 'z' s =
    if s.work.b85Cnt = 0 then .returns (s.emitBytes [0, 0, 0, 0]) else .raises s.work.pos s := by
  rw [b85DecUnit, if_neg z_not_ignored]
  exact if_pos rfl

theorem b85DecUnit_of_symbol {c : CodePoint} (h : b85IsSymbol c = true) (s : State) :
    b85DecUnit c s = b85FullGroup (b85PushDigit (b85Digit c) s) := by
  have hz : c ≠ b85Shortcut := ne_z_of_symbol h
  rw [b85DecUnit, if_neg (not_ignored_of_symbol h), if_neg hz, if_pos ((b85InRange_eq c).trans h)]
  rfl

section
variable {s : State} {r : B85Reading} {c : CodePoint} (hs : s.HasRead r)
include hs

theorem State.HasRead.advancePos : s.advancePos.HasRead r := ⟨⟨hs.cnt, hs.slots⟩, hs.out⟩

/-- A rejected unit raises at POS (rules R104, R105). -/
theorem b85DecUnit_of_rejected (hc : r.read c = none) : b85DecUnit c s = .raises s.work.pos s := by
  rcases B85Reading.read_eq_none_iff.1 hc with ⟨rfl, hpart⟩ | ⟨hi, hz, hsym⟩
  · rw [b85DecUnit_of_z, if_neg (mt hs.cnt_eq_zero_iff.1 hpart)]
  · have hz' : c ≠ b85Shortcut := hz
    rw [b85DecUnit, if_neg hi, if_neg hz', b85InRange_eq, hsym, if_neg Bool.false_ne_true]

/-- A group that overflows under `error` raises at the unit that completes it (rule R107). -/
theorem b85DecUnit_of_overflow (hr : r.Valid) (h4 : r.part.length = 4) (hc : b85IsSymbol c = true)
    (herr : s.params.b85Overflow = .error) (hover : b85GroupOverflows (r.part ++ [c]) = true) :
    ∃ t, b85DecUnit c s = .raises s.work.pos t := by
  rw [b85DecUnit_of_symbol hc, b85FullGroup_of_five (hs.push hr.length_le c) (by simp [h4]) (hr.symbols_concat hc),
    if_pos ⟨herr, hover⟩]
  exact ⟨_, rfl⟩

/-- The state goes on with the reading, unless it completes a group that is not allowed (rules R103 to R107). -/
theorem State.HasRead.read {r' : B85Reading} (hr : r.Valid) (hc : r.read c = some r')
    (hallow : ∀ g ∈ r'.full, b85Allows s.params g) : ∃ t, b85DecUnit c s = .returns t ∧ t.HasRead r' := by
  rcases B85Reading.read_cases hc with ⟨hi, rfl⟩ | ⟨rfl, hpart, rfl⟩ | ⟨hsym, h4, rfl⟩ | ⟨hsym, h4, rfl⟩
  · exact ⟨s, if_pos hi, hs⟩
  · have hcnt := hs.cnt_eq_zero_iff.2 hpart
    refine ⟨s.emitBytes [0, 0, 0, 0], ?_, ⟨by simp [hcnt], by simp⟩, ?_⟩
    · rw [b85DecUnit_of_z, if_pos hcnt]
    · rw [State.emitBytes_out, hs.out, List.flatMap_append]
      rfl
  · have hno := not_error_of_allows (hallow (r.part ++ [c]) (by simp))
    rw [b85DecUnit_of_symbol hsym, b85FullGroup_of_five (hs.push hr.length_le c) (by simp [h4]) (hr.symbols_concat hsym),
      b85PushDigit_params, if_neg hno]
    refine ⟨_, rfl, State.emptyBuffer_holds _, ?_⟩
    rw [State.emptyBuffer_out, State.emitBytes_out, b85PushDigit_out, hs.out, List.flatMap_append, List.flatMap_singleton]
  · have hpush := hs.push hr.length_le c
    rw [b85DecUnit_of_symbol hsym, b85FullGroup_of_part hpush (by simp [h4])]
    exact ⟨_, rfl, hpush, hs.out⟩

end

/-! ### The walk of B85DEC, and its tail -/

theorem forUnits_b85DecUnit_returns {cs : List CodePoint} {s t : State} (h : forUnits b85DecUnit cs s = .returns t) :
    KeepsCommand s t ∧ t.work.pos = s.work.pos + cs.length := by
  have hframe := forUnits_preserves (f := b85DecUnit) (P := GroupFrame s)
    (fun c u hu => hu.trans (b85DecUnit_frame c u).1) (fun u hu => hu.trans rfl) cs s rfl
  rw [h] at hframe
  exact ⟨hframe.keepsCommand, (b85DecUnit_keepsPos.walk_pos cs s).1 t h⟩

section
variable {s : State} (hs : s.Ready .dec)
include hs

theorem hasRead_of_ready : s.HasRead .nil := by
  obtain ⟨hw, hout, -⟩ := hs
  exact ⟨⟨by rw [hw]; rfl, rfl⟩, hout⟩

theorem b85DecBody_of_ready : b85DecBody s = (forUnits b85DecUnit s.input.text s).andThen b85DecTail := by
  obtain ⟨hw, -⟩ := hs
  have hcnt : { s with work.b85Cnt := 0 } = s := by
    cases s
    subst hw
    rfl
  rw [b85DecBody, hcnt]

/-- The walk over a text follows its reading, if the parameters allow the groups it completes (rules R102 to R107). -/
theorem forUnits_b85DecUnit_of_reading {t : List CodePoint} {r : B85Reading} (hr : b85Reading t = some r)
    (hallow : ∀ g ∈ r.full, b85Allows s.params g) :
    ∃ u, forUnits b85DecUnit t s = .returns u ∧ u.HasRead r := by
  induction t using List.reverseRecOn generalizing r with
  | nil =>
    obtain rfl := Option.some.inj hr
    exact ⟨s, rfl, hasRead_of_ready hs⟩
  | append_singleton t c ih =>
    obtain ⟨r0, ht, hc⟩ := b85Reading_concat_eq_some.1 hr
    obtain ⟨u, hu, hread⟩ := ih ht fun g hg => hallow g (B85Reading.full_subset_of_read hc hg)
    obtain ⟨⟨-, -, hparams, -⟩, -⟩ := forUnits_b85DecUnit_returns hu
    obtain ⟨v, hv, hvread⟩ := hread.read (b85Reading_valid ht) hc (by rwa [hparams])
    refine ⟨v.advancePos, ?_, hvread.advancePos⟩
    rw [forUnits_append, hu, OpResult.andThen_returns, forUnits_cons, hv]
    rfl

/-- A unit that raises behind a text that is read ends the operation at its index (rules R146, R148). -/
theorem b85Dec_fails_at {pre post : List CodePoint} {c : CodePoint} {r : B85Reading}
    (htext : s.input.text = pre ++ c :: post) (hr : b85Reading pre = some r) (hallow : ∀ g ∈ r.full, b85Allows s.params g)
    (hraise : ∀ u : State, u.HasRead r → u.params = s.params → ∃ t, b85DecUnit c u = .raises u.work.pos t) :
    FailsWith (exec .b85dec s) .invalidEncoding pre.length := by
  obtain ⟨u, hu, hread⟩ := forUnits_b85DecUnit_of_reading hs hr hallow
  obtain ⟨⟨-, -, hparams, -⟩, hpos⟩ := forUnits_b85DecUnit_returns hu
  obtain ⟨t, ht⟩ := hraise u hread hparams
  have hindex : u.work.pos = pre.length := by rw [hpos, hs.1]; exact Nat.zero_add _
  have hbody : bodyOf .b85dec s = .raises pre.length t := by
    rw [bodyOf, b85DecBody_of_ready hs, htext, forUnits_append, hu, OpResult.andThen_returns, forUnits_cons, ht, hindex]
    rfl
  exact failsWith_of_raises hs hbody

end

/-- The tail decodes the open group; an overflow of it under `error` is at the last symbol (rule R108, log 9). -/
theorem b85DecTail_of_part {s : State} {p : List CodePoint} (h : s.Holds p) (h0 : p ≠ []) (hlen : p.length ≤ 4)
    (hp : ∀ c ∈ p, b85IsSymbol c = true) : b85DecTail s =
      if s.params.b85Overflow = .error ∧ b85GroupOverflows p = true then
        .raises (b85LastSymbol s.input.text) s.padBuffer
      else .returns (s.padBuffer.emitBytes (b85GroupBytes p)) := by
  have hv : b85GroupValue s.padBuffer.work.b85Buf = b85Value p := by
    rw [← b85GroupValue_pad h (by omega) hp, ← h.cnt]
    rfl
  have hz : p ≠ ['z'] := by
    rintro rfl
    exact ne_z_of_symbol (hp 'z' (by simp)) rfl
  have hemit := b85EmitGroup_eq hv hz (b85LastSymbol s.input.text)
  rw [← h.cnt] at hemit
  rw [b85DecTail, if_neg (mt h.cnt_eq_zero_iff.1 h0)]
  exact hemit

/-- The tail of an allowed reading returns with the bytes of all groups emitted (rule R108). -/
theorem b85DecTail_of_reading {s : State} {r : B85Reading} (h : s.HasRead r) (hr : r.Valid)
    (hallow : ∀ g ∈ r.groups, b85Allows s.params g) :
    ∃ t, b85DecTail s = .returns t ∧ t.out = { bytes := r.groups.flatMap b85GroupBytes, text := [] } := by
  by_cases hpart : r.part = []
  · refine ⟨s, b85DecTail_of_no_digits (h.cnt_eq_zero_iff.2 hpart), ?_⟩
    rw [h.out, B85Reading.groups, if_pos hpart, List.append_nil]
  · have hno := not_error_of_allows (hallow r.part (by simp [B85Reading.groups, hpart]))
    rw [b85DecTail_of_part h.toHolds hpart hr.length_le hr.symbols, if_neg hno]
    refine ⟨_, rfl, ?_⟩
    rw [State.emitBytes_out, State.padBuffer_out, h.out, B85Reading.groups, if_neg hpart, List.flatMap_append,
      List.flatMap_singleton]

section
variable {s : State} {r : B85Reading} (hs : s.Ready .dec) (hr : b85Reading s.input.text = some r)
include hs hr

/-- A text whose groups are allowed decodes to their bytes (rules R102 to R108). -/
theorem b85Dec_completes (hallow : ∀ g ∈ r.groups, b85Allows s.params g) :
    CompletesWith (exec .b85dec s) { bytes := r.groups.flatMap b85GroupBytes, text := [] } := by
  obtain ⟨u, hu, hread⟩ := forUnits_b85DecUnit_of_reading hs hr fun g hg => hallow g (List.mem_append_left _ hg)
  obtain ⟨⟨-, -, hparams, -⟩, -⟩ := forUnits_b85DecUnit_returns hu
  obtain ⟨t, ht, hout⟩ := b85DecTail_of_reading hread (b85Reading_valid hr) (by rwa [hparams])
  have hbody : bodyOf .b85dec s = .returns t := by
    rw [bodyOf, b85DecBody_of_ready hs, hu, OpResult.andThen_returns, ht]
  have hdone := completesWith_of_returns (i := .b85dec) hs hbody
  rwa [hout] at hdone

/-- A last group that overflows under `error` raises at the last symbol (rule R108, log 9). -/
theorem b85Dec_fails_at_end (hallow : ∀ g ∈ r.full, b85Allows s.params g) (hpart : r.part ≠ [])
    (herr : s.params.b85Overflow = .error) (hover : b85GroupOverflows r.part = true) :
    FailsWith (exec .b85dec s) .invalidEncoding (b85LastSymbol s.input.text) := by
  obtain ⟨u, hu, hread⟩ := forUnits_b85DecUnit_of_reading hs hr hallow
  obtain ⟨⟨-, hinput, hparams, -⟩, -⟩ := forUnits_b85DecUnit_returns hu
  obtain ⟨-, hlen, hsym⟩ := b85Reading_valid hr
  have hbody : bodyOf .b85dec s = .raises (b85LastSymbol s.input.text) u.padBuffer := by
    rw [bodyOf, b85DecBody_of_ready hs, hu, OpResult.andThen_returns, b85DecTail_of_part hread.toHolds hpart hlen hsym,
      hparams, hinput, if_pos ⟨herr, hover⟩]
  exact failsWith_of_raises hs hbody

end

/-- The last symbol is the unit c with ignored units behind it (log 9). -/
theorem b85LastSymbol_append {c : CodePoint} {post : List CodePoint} (pre : List CodePoint) (hc : c ∉ b85Ignore)
    (hpost : ∀ d ∈ post, d ∈ b85Ignore) : b85LastSymbol (pre ++ c :: post) = pre.length := by
  rw [b85LastSymbol, List.reverse_append, List.reverse_cons, List.append_assoc, List.dropWhile_append_of_pos
    (by simpa using hpost)]
  simp [hc]

/-- Settles O31: the groups are those of the reading, which the walk follows. -/
theorem base85DecodesTheGroups : Obligations.Base85DecodesTheGroups := by
  intro s gs hs hgs hallow
  rw [b85Groups_strip] at hgs
  obtain ⟨r, hr, rfl⟩ := Option.map_eq_some_iff.1 hgs
  exact b85Dec_completes hs hr fun g hg => hallow.imp_right fun h => h g hg

/-- Settles O32: the text before the rejected unit is read, and the unit raises at POS. -/
theorem base85RejectsTheFirstInvalidUnit : Obligations.Base85RejectsTheFirstInvalidUnit := by
  intro s pre c post k hs htext hk hallow hc
  rw [b85Slots_eq] at hk
  obtain ⟨r, hr, rfl⟩ := Option.map_eq_some_iff.1 hk
  have hreject : r.read c = none := by
    rw [B85Reading.read_eq_none_iff, ← Bool.not_eq_true, b85IsSymbol_iff]
    exact hc.imp (fun ⟨hz, hk⟩ => ⟨hz, List.length_pos_iff.1 hk⟩) fun ⟨hi, hz, hrange⟩ => ⟨hi, hz, by omega⟩
  refine b85Dec_fails_at hs htext hr (fun g hg => hallow.imp_right fun h => ?_) fun u hu _ =>
    ⟨u, b85DecUnit_of_rejected hu hreject⟩
  rcases (b85Reading_valid hr).complete g hg with rfl | h5
  · rfl
  · exact h r.groups (by rw [b85Groups_strip, hr]; rfl) g (List.mem_append_left _ hg) h5

/-- When a text ends in c, and c is not ignored, then c ends its last group (rules R102 to R108). -/
theorem exists_reading_of_groups {pre : List CodePoint} {c : CodePoint} {gs : List (List CodePoint)} {g : List CodePoint}
    (hi : c ∉ b85Ignore) (h : b85Groups (b85Strip (pre ++ [c])) = some (gs ++ [g])) :
    ∃ r r', b85Reading pre = some r ∧ r.read c = some r' ∧ b85Reading (pre ++ [c]) = some r' ∧
      gs = r.full ∧ g = r.part ++ [c] := by
  rw [b85Groups_strip] at h
  obtain ⟨r', hr', hgroups⟩ := Option.map_eq_some_iff.1 h
  obtain ⟨r, hr, hc⟩ := b85Reading_concat_eq_some.1 hr'
  rw [B85Reading.groups_of_read hi hc] at hgroups
  obtain ⟨hgs, hg⟩ := List.append_inj' hgroups rfl
  exact ⟨r, r', hr, hc, hr', hgs.symm, (List.singleton_inj.1 hg).symm⟩

section
variable {s : State} {pre : List CodePoint} {c : CodePoint} {post : List CodePoint} {gs : List (List CodePoint)}
  {g : List CodePoint} (hs : s.Ready .dec) (htext : s.input.text = pre ++ c :: post) (hi : c ∉ b85Ignore)
  (hgs : b85Groups (b85Strip (pre ++ [c])) = some (gs ++ [g])) (hno : ∀ h ∈ gs, b85GroupOverflows h = false)
include hs htext hi hgs hno

/-- Under `error` the first five symbols that overflow end the transaction at the last of them (rule R107). -/
theorem b85Dec_fails_at_full_group (herr : s.params.b85Overflow = .error) (h5 : g.length = 5)
    (hover : b85GroupOverflows g = true) : FailsWith (exec .b85dec s) .invalidEncoding pre.length := by
  obtain ⟨r, r', hr, hc, -, rfl, rfl⟩ := exists_reading_of_groups hi hgs
  have h4 : r.part.length = 4 := by simpa using h5
  have hsym : b85IsSymbol c = true := B85Reading.symbol_of_read hi (fun hnil => by simp [hnil] at h4) hc
  refine b85Dec_fails_at hs htext hr (fun g hg => .inr (hno g hg)) fun u hu hparams => ?_
  exact b85DecUnit_of_overflow hu (b85Reading_valid hr) h4 hsym (by rwa [hparams]) hover

/-- Under `error` a last group of two to four symbols that overflows ends the transaction at its last symbol (rule R108, log 9). -/
theorem b85Dec_fails_at_last_group (herr : s.params.b85Overflow = .error) (h2 : 2 ≤ g.length) (h4 : g.length ≤ 4)
    (hover : b85GroupOverflows g = true) (hpost : ∀ d ∈ post, d ∈ b85Ignore) :
    FailsWith (exec .b85dec s) .invalidEncoding pre.length := by
  obtain ⟨r, r', hr, hc, hr', rfl, rfl⟩ := exists_reading_of_groups hi hgs
  rw [List.length_append, List.length_singleton] at h2 h4
  have hsym : b85IsSymbol c = true := B85Reading.symbol_of_read hi (fun hnil => by simp [hnil] at h2) hc
  have hpush : r.push c = ⟨r.full, r.part ++ [c]⟩ := if_neg (by omega)
  rw [B85Reading.read_of_symbol hsym, hpush] at hc
  obtain rfl := Option.some.inj hc
  have hreading : b85Reading s.input.text = some ⟨r.full, r.part ++ [c]⟩ := by
    rw [htext, List.append_cons, b85Reading_append_ignored _ hpost, hr']
  have hfail := b85Dec_fails_at_end hs hreading (fun g hg => .inr (hno g hg)) (by simp) herr hover
  rwa [htext, b85LastSymbol_append pre hi hpost] at hfail

omit hi in
/-- A single trailing symbol raises nothing and adds nothing (rules R108, R111). -/
theorem b85Dec_completes_with_single (hone : g = [c]) (hz : c ≠ 'z') (hpost : ∀ d ∈ post, d ∈ b85Ignore) :
    CompletesWith (exec .b85dec s) { bytes := gs.flatMap b85GroupBytes, text := [] } := by
  subst hone
  have hgroups : b85Groups (b85Strip s.input.text) = some (gs ++ [[c]]) := by
    rw [← hgs, b85Groups_strip, b85Groups_strip, htext, List.append_cons, b85Reading_append_ignored _ hpost]
  have hbytes : b85GroupBytes [c] = [] := if_neg fun h => hz (List.singleton_inj.1 h)
  have hdone := base85DecodesTheGroups s _ hs hgroups
    (.inr (List.forall_mem_append.2 ⟨hno, List.forall_mem_singleton.2 rfl⟩))
  rwa [List.flatMap_append, List.flatMap_singleton, hbytes, List.append_nil] at hdone

end

/-! ### Symbols of digits -/

@[simp] theorem b85Digit_b85Symbol {d : Nat} (h : d < 85) : b85Digit (b85Symbol d) = d := by
  rw [b85Digit, b85Symbol_toNat d h, Nat.add_sub_cancel_left]

theorem b85IsSymbol_b85Symbol {d : Nat} (h : d < 85) : b85IsSymbol (b85Symbol d) = true := by
  rw [b85IsSymbol_iff, b85Symbol_toNat d h]
  omega

theorem symbols_of_digits {ds : List Nat} (h : ∀ d ∈ ds, d < 85) : ∀ c ∈ ds.map b85Symbol, b85IsSymbol c = true :=
  List.forall_mem_map.2 fun d hd => b85IsSymbol_b85Symbol (h d hd)

theorem b85Strip_of_symbols {cs : List CodePoint} (h : ∀ c ∈ cs, b85IsSymbol c = true) : b85Strip cs = cs := by
  rw [b85Strip_eq, List.filter_eq_self]
  exact fun c hc => decide_eq_true (not_ignored_of_symbol (h c hc))

/-- The value of the symbols of some digits is the number they write, padded with 84 (rules R107, R108). -/
theorem b85Value_map_b85Symbol {ds : List Nat} (h : ∀ d ∈ ds, d < 85) : b85Value (ds.map b85Symbol) =
    (ds ++ List.replicate (5 - ds.length) 84).foldl (fun v d => 85 * v + d) 0 := by
  have hdigits : ds.map (b85Digit ∘ b85Symbol) = ds :=
    (List.map_congr_left fun d hd => b85Digit_b85Symbol (h d hd)).trans (List.map_id ds)
  rw [b85Value, List.map_map, hdigits, List.length_map]

/-- Five symbols are one group (rule R106). -/
theorem b85Groups_of_five_symbols {g : List CodePoint} (h5 : g.length = 5) (hg : ∀ c ∈ g, b85IsSymbol c = true) :
    b85Groups (b85Strip g) = some [g] := by
  have h := b85Groups_of_five (head_ne_z_of_symbols hg) h5 []
  rw [List.append_nil, if_pos (List.all_eq_true.2 hg)] at h
  rw [b85Strip_of_symbols hg, h]
  rfl

/-- The value of five symbols (rule R107). -/
theorem b85Value_five {e0 e1 e2 e3 e4 : Nat} (h : ∀ d ∈ [e0, e1, e2, e3, e4], d < 85) :
    b85Value ([e0, e1, e2, e3, e4].map b85Symbol) = e0 * 85 ^ 4 + e1 * 85 ^ 3 + e2 * 85 ^ 2 + e3 * 85 + e4 := by
  rw [b85Value_map_b85Symbol h]
  simp only [List.cons_append, List.nil_append, List.foldl_cons, List.foldl_nil, List.length_cons, List.length_nil,
    Nat.sub_self, List.replicate_zero]
  ring

/-- The bytes of a group of five are all four of its value (rules R106, R107). -/
theorem b85GroupBytes_five {g : List CodePoint} (h : g.length = 5) : b85GroupBytes g = beBytes (b85Value g % 2 ^ 32) 4 := by
  have hz : g ≠ ['z'] := by rintro rfl; simp at h
  rw [b85GroupBytes, if_neg hz, h]
  rfl

/-- Settles O33: five symbols are one group, and in any text the first group that overflows has the last say. -/
theorem base85GroupValueAndOverflow : Obligations.Base85GroupValueAndOverflow := by
  refine ⟨fun s e0 e1 e2 e3 e4 hs h0 h1 h2 h3 h4 htext => ?one, fun s pre c post gs g hs herr htext hi hgs hno => ?all⟩
  case all =>
    exact ⟨b85Dec_fails_at_full_group hs htext hi hgs hno herr, b85Dec_fails_at_last_group hs htext hi hgs hno herr,
      b85Dec_completes_with_single hs htext hgs hno⟩
  case one =>
    have hdigits : ∀ d ∈ [e0, e1, e2, e3, e4], d < 85 := by simp [h0, h1, h2, h3, h4]
    have hsymbols := symbols_of_digits hdigits
    have hgroups := b85Groups_of_five_symbols rfl hsymbols
    have hoverflow : b85GroupOverflows ([e0, e1, e2, e3, e4].map b85Symbol) = true ↔
        2 ^ 32 ≤ e0 * 85 ^ 4 + e1 * 85 ^ 3 + e2 * 85 ^ 2 + e3 * 85 + e4 := by
      rw [b85GroupOverflows, b85Value_five hdigits, decide_eq_true_iff]
      exact and_iff_right (by simp)
    refine ⟨fun hfits => ?_, fun hover herr => ?_⟩
    · have hno := hfits.symm.imp_right fun hlt => Bool.eq_false_iff.2 (mt hoverflow.1 (Nat.not_le_of_lt hlt))
      have hdone := base85DecodesTheGroups s _ hs (by rw [htext]; exact hgroups)
        (hno.imp_right List.forall_mem_singleton.2)
      rwa [List.flatMap_singleton, b85GroupBytes_five rfl, b85Value_five hdigits] at hdone
    · have hi : b85Symbol e4 ∉ b85Ignore := not_ignored_of_symbol (b85IsSymbol_b85Symbol h4)
      exact b85Dec_fails_at_full_group (gs := []) (pre := [e0, e1, e2, e3].map b85Symbol) hs htext hi hgroups (by simp) herr
        rfl (hoverflow.2 hover)

end Sys2Proof.Machine
end

section
/-! PROOFS of the Base85 family, continued: the value of a chunk's symbols, and the round trip (O34). -/

namespace Sys2Proof.Machine

open Sys2Proof.Closed (b85IsSymbol b85Groups b85Strip b85Value b85GroupBytes b85GroupOverflows b85Chunks b85ChunkSymbols)

/-! ### Big-endian bytes -/

theorem beBytes_succ_concat (v k : Nat) : beBytes v (k + 1) = beBytes (v / 256) k ++ [BitVec.ofNat 8 v] := by
  induction k with
  | zero => simp [beBytes]
  | succ k ih =>
    rw [beBytes, ih, beBytes, List.cons_append, Nat.div_div_eq_div_mul, ← Nat.pow_succ']

/-- The bytes of a number are those it was read from (rule R12). -/
theorem beBytes_beNat (bs : List Byte) : beBytes (beNat bs) bs.length = bs := by
  induction bs using List.reverseRecOn with
  | nil => rfl
  | append_singleton bs x ih =>
    have hx := x.isLt
    have hnat : beNat (bs ++ [x]) = 256 * beNat bs + x.toNat := by simp [beNat]
    have hlast : BitVec.ofNat 8 (256 * beNat bs + x.toNat) = x := by
      apply BitVec.eq_of_toNat_eq
      rw [BitVec.toNat_ofNat]
      omega
    have hrest : (256 * beNat bs + x.toNat) / 256 = beNat bs := by omega
    rw [List.length_append, List.length_singleton, beBytes_succ_concat, hnat, hlast, hrest, ih]

theorem beBytes_take (v j k : Nat) : (beBytes v (j + k)).take j = beBytes (v / 256 ^ k) j := by
  induction j with
  | zero => rfl
  | succ j ih =>
    rw [Nat.succ_add, beBytes, List.take_succ_cons, ih, beBytes, Nat.div_div_eq_div_mul, ← Nat.pow_add, Nat.add_comm j]

/-! ### The value of a chunk's symbols -/

theorem b85LeadingDigits_lt (v n : Nat) : ∀ d ∈ b85LeadingDigits v n, d < 85 :=
  List.forall_mem_map.2 fun _ _ => Nat.mod_lt _ (by decide)

theorem b85DigitSymbols_length (bs : List Byte) : (b85DigitSymbols bs).length = bs.length + 1 := by
  simp [b85DigitSymbols, b85LeadingDigits]

theorem b85DigitSymbols_symbols (bs : List Byte) : ∀ c ∈ b85DigitSymbols bs, b85IsSymbol c = true :=
  symbols_of_digits (b85LeadingDigits_lt _ _)

/-- The first n of five digits write the number without its last digits (rule R99). -/
theorem foldl_b85LeadingDigits {v : Nat} (hv : v < 85 ^ 5) : ∀ {n : Nat}, n ≤ 5 →
    (b85LeadingDigits v n).foldl (fun v d => 85 * v + d) 0 = v / 85 ^ (5 - n)
  | 0, _ => (Nat.div_eq_of_lt hv).symm
  | n + 1, h => by
    have hpow : 85 ^ (5 - n) = 85 ^ (4 - n) * 85 := by rw [← Nat.pow_succ]; congr 1; omega
    rw [b85LeadingDigits_succ, List.foldl_append, foldl_b85LeadingDigits hv (by omega), hpow, ← Nat.div_div_eq_div_mul,
      Nat.succ_sub_succ 4 n]
    exact Nat.div_add_mod _ 85

/-- Padding with 84 is the largest continuation (rule R108). -/
theorem foldl_replicate_84 (x k : Nat) :
    (List.replicate k 84).foldl (fun v d => 85 * v + d) x + 1 = (x + 1) * 85 ^ k := by
  induction k generalizing x with
  | zero => simp
  | succ k ih =>
    rw [List.replicate_succ, List.foldl_cons, ih]
    ring

/-- The value of the first n digits, padded, is the last number that has these digits in front (rules R108, R110). -/
theorem b85Value_b85LeadingDigits {v n : Nat} (hv : v < 85 ^ 5) (hn : n ≤ 5) :
    b85Value ((b85LeadingDigits v n).map b85Symbol) + 1 = (v / 85 ^ (5 - n) + 1) * 85 ^ (5 - n) := by
  have hlen : (b85LeadingDigits v n).length = n := by simp [b85LeadingDigits]
  rw [b85Value_map_b85Symbol (b85LeadingDigits_lt v n), hlen, List.foldl_append, foldl_replicate_84,
    foldl_b85LeadingDigits hv hn]

section
variable {bs : List Byte} (hlen : bs.length ≤ 4)
include hlen

/-- The padding raises the value of a chunk by less than its last byte counts (rule R110). -/
theorem b85Value_chunk_bounds : ∃ δ < 256 ^ (4 - bs.length),
    b85Value (b85DigitSymbols bs) = beNat bs * 256 ^ (4 - bs.length) + δ := by
  have hvalue := b85Value_b85LeadingDigits (n := bs.length + 1) ((b85ChunkValue_lt hlen).trans (by decide))
    (Nat.succ_le_succ hlen)
  rw [← b85DigitSymbols, Nat.succ_sub_succ 4, Nat.add_one_mul, b85ChunkValue_eq] at hvalue
  have hpow : 85 ^ (4 - bs.length) ≤ 256 ^ (4 - bs.length) := Nat.pow_le_pow_left (by decide) _
  have hle := Nat.div_mul_le_self (beNat bs * 256 ^ (4 - bs.length)) (85 ^ (4 - bs.length))
  have hlt := Nat.lt_div_mul_add (a := beNat bs * 256 ^ (4 - bs.length)) (b := 85 ^ (4 - bs.length)) (by positivity)
  exact ⟨_, by omega, (Nat.add_sub_of_le (by omega)).symm⟩

/-- The symbols of a chunk do not overflow (rules R99, R110). -/
theorem b85Value_chunk_lt : b85Value (b85DigitSymbols bs) < 2 ^ 32 := by
  obtain ⟨δ, hδ, hvalue⟩ := b85Value_chunk_bounds hlen
  calc b85Value (b85DigitSymbols bs)
      < (beNat bs + 1) * 256 ^ (4 - bs.length) := by rw [hvalue, Nat.add_one_mul]; omega
    _ ≤ 2 ^ 32 := beNat_succ_mul_le hlen

theorem b85ChunkSymbols_not_overflows : b85GroupOverflows (b85ChunkSymbols bs) = false := by
  rw [b85ChunkSymbols_eq]
  split
  · rfl
  · exact decide_eq_false fun h => Nat.not_le_of_lt (b85Value_chunk_lt hlen) h.2

/-- The symbols of a chunk decode to its bytes (rule R110). -/
theorem b85GroupBytes_b85ChunkSymbols : b85GroupBytes (b85ChunkSymbols bs) = bs := by
  rw [b85ChunkSymbols_eq]
  split
  case isTrue h =>
    obtain ⟨h4, hzero⟩ := h
    have hbytes := beBytes_beNat bs
    rw [h4, hzero] at hbytes
    exact hbytes
  case isFalse =>
    obtain ⟨δ, hδ, hvalue⟩ := b85Value_chunk_bounds hlen
    have hz : b85DigitSymbols bs ≠ ['z'] := fun h => ne_z_of_symbol (b85DigitSymbols_symbols bs 'z' (by simp [h])) rfl
    have htake := beBytes_take (beNat bs * 256 ^ (4 - bs.length) + δ) bs.length (4 - bs.length)
    rw [Nat.add_sub_cancel' hlen, Nat.mul_comm, Nat.mul_add_div (by positivity), Nat.div_eq_of_lt hδ, Nat.add_zero,
      beBytes_beNat] at htake
    rw [b85GroupBytes, if_neg hz, Nat.mod_eq_of_lt (b85Value_chunk_lt hlen), b85DigitSymbols_length, hvalue,
      Nat.add_sub_cancel, Nat.mul_comm, htake]

end

/-! ### The round trip -/

/-- The text of some chunks is `z` or symbols, none of them ignored (rules R66, R72). -/
theorem b85Strip_chunkSymbols (gs : List (List Byte)) :
    b85Strip (gs.flatMap b85ChunkSymbols) = gs.flatMap b85ChunkSymbols := by
  rw [b85Strip_eq, List.filter_eq_self]
  intro c hc
  obtain ⟨g, -, hc⟩ := List.mem_flatMap.1 hc
  rw [b85ChunkSymbols_eq] at hc
  split at hc
  · rw [List.mem_singleton.1 hc]
    decide
  · exact decide_eq_true (not_ignored_of_symbol (b85DigitSymbols_symbols g c hc))

/-- A chunk's symbols are `z`, or r + 1 symbols of the range (rules R98 to R100). -/
theorem b85ChunkSymbols_cases (bs : List Byte) : b85ChunkSymbols bs = ['z'] ∨
    (b85ChunkSymbols bs).length = bs.length + 1 ∧ ∀ c ∈ b85ChunkSymbols bs, b85IsSymbol c = true := by
  rw [b85ChunkSymbols_eq]
  split
  · exact .inl rfl
  · exact .inr ⟨b85DigitSymbols_length bs, b85DigitSymbols_symbols bs⟩

theorem b85Groups_full_chunk {bs : List Byte} (h4 : bs.length = 4) (t : List CodePoint) :
    b85Groups (b85ChunkSymbols bs ++ t) = (b85Groups t).map (b85ChunkSymbols bs :: ·) := by
  rcases b85ChunkSymbols_cases bs with hz | ⟨hlen, hsym⟩
  · rw [hz]
    exact b85Groups_z t
  · rw [b85Groups_of_five (head_ne_z_of_symbols hsym) (by rw [hlen, h4]), if_pos (List.all_eq_true.2 hsym)]

theorem b85Groups_last_chunk {bs : List Byte} (h4 : bs.length < 4) :
    b85Groups (b85ChunkSymbols bs) = some [b85ChunkSymbols bs] := by
  rcases b85ChunkSymbols_cases bs with hz | ⟨hlen, hsym⟩
  · rw [hz]
    exact b85Groups_z []
  · rw [b85Groups_of_short (head_ne_z_of_symbols hsym) (List.ne_nil_of_length_eq_add_one hlen) (by omega),
      if_pos (List.all_eq_true.2 hsym)]

/-- The encoder's text reads as the symbols of its chunks (rules R97 to R108). -/
theorem b85Groups_chunks : ∀ b : List Byte,
    b85Groups ((b85Chunks b).flatMap b85ChunkSymbols) = some ((b85Chunks b).map b85ChunkSymbols)
  | [] => rfl
  | [_] | [_, _] | [_, _, _] => by
    rw [b85Chunks_of_short (by simp) (by simp), List.flatMap_singleton, b85Groups_last_chunk (by simp)]
    rfl
  | a :: b :: c :: d :: rest => by
    rw [b85Chunks_cons, List.flatMap_cons, b85Groups_full_chunk rfl, b85Groups_chunks rest]
    rfl

/-- Settles O34: the text is the chunks' symbols (O29), which read as groups and decode to the chunks (O31). -/
theorem base85RoundTrip : Obligations.Base85RoundTrip := by
  intro s t u hs ht hu htext
  obtain ⟨t', ht', -, -, -, hout⟩ := base85EncodesTheChunks s hs
  obtain rfl : t' = t := by rw [ht] at ht'; cases ht'; rfl
  rw [hout] at htext
  obtain ⟨hflat, hchunks⟩ := b85Chunks_spec s.input.bytes
  have hgroups : b85Groups (b85Strip u.input.text) = some ((b85Chunks s.input.bytes).map b85ChunkSymbols) := by
    rw [htext, b85Strip_chunkSymbols, b85Groups_chunks]
  have hdone := base85DecodesTheGroups u _ hu hgroups
    (.inr (List.forall_mem_map.2 fun g hg => b85ChunkSymbols_not_overflows (hchunks g hg)))
  have hbytes : ((b85Chunks s.input.bytes).map b85ChunkSymbols).flatMap b85GroupBytes = s.input.bytes := by
    rw [List.flatMap_map, List.flatMap_congr fun g hg => b85GroupBytes_b85ChunkSymbols (hchunks g hg)]
    simpa using hflat
  rwa [hbytes] at hdone

end Sys2Proof.Machine
end

section
/-! PROOFS of the Base58 family (O35 to O40).
Both codecs write a number in a positional system without leading zero digits: `numeral` is that list of digits, and it is the only one of its value. -/

namespace Sys2Proof.Machine

open Sys2Proof.Closed (base58Value)

/-! ### Numerals without leading zeros -/

/-- The digits of v in base b, most significant first, without leading zeros. -/
def numeral (b v : Nat) : List Nat := (Nat.digits b v).reverse

theorem foldl_eq_ofDigits (b : Nat) (ds : List Nat) :
    ds.foldl (fun v d => b * v + d) 0 = Nat.ofDigits b ds.reverse := by
  rw [Nat.ofDigits_eq_foldr, List.foldr_reverse]
  simp [Nat.add_comm]

/-- The numeral of v is the one list of digits that has no leading zero and the value v. -/
theorem eq_numeral_iff {b : Nat} (hb : 1 < b) {ds : List Nat} (hlt : ∀ d ∈ ds, d < b) {v : Nat} :
    ds = numeral b v ↔ ds.head? ≠ some 0 ∧ ds.foldl (fun v d => b * v + d) 0 = v := by
  rw [foldl_eq_ofDigits, numeral]
  constructor
  · rintro rfl
    rw [List.reverse_reverse, Nat.ofDigits_digits, List.head?_reverse]
    refine ⟨fun hzero => ?_, rfl⟩
    have hne : Nat.digits b v ≠ [] := fun hnil => by simp [hnil] at hzero
    rw [List.getLast?_eq_some_getLast hne] at hzero
    exact Nat.getLast_digit_ne_zero b (Nat.digits_ne_nil_iff_ne_zero.1 hne) (Option.some.inj hzero)
  · rintro ⟨hhead, rfl⟩
    rw [Nat.digits_ofDigits b hb, List.reverse_reverse]
    · simpa using hlt
    · intro hne hzero
      rw [List.getLast_reverse] at hzero
      exact hhead (by rw [List.head?_eq_some_head (by simpa using hne), hzero])

theorem head?_map_ne_zero_iff {α : Type} {val : α → Nat} (hinj : Function.Injective val) {z : α} (hz : val z = 0)
    (l : List α) : (l.map val).head? ≠ some 0 ↔ l.head? ≠ some z := by
  rw [List.head?_map, ← hz]
  exact (Option.map_injective hinj).ne_iff (y := some z)

/-- A list of base-58 digits is the numeral of v (rule R115). -/
theorem map_val_eq_numeral_iff {ds : List (Fin 58)} {v : Nat} :
    ds.map Fin.val = numeral 58 v ↔ ds.head? ≠ some 0 ∧ base58Value (ds.map Fin.val) = v := by
  rw [eq_numeral_iff (by decide) (List.forall_mem_map.2 fun d _ => d.isLt),
    head?_map_ne_zero_iff Fin.val_injective (z := (0 : Fin 58)) rfl]
  rfl

theorem beNat_eq_foldl (m : List Byte) : beNat m = (m.map BitVec.toNat).foldl (fun v d => 256 * v + d) 0 := by
  rw [beNat, List.foldl_map]

/-- A list of bytes is the numeral of v in base 256 (rule R12). -/
theorem map_toNat_eq_numeral_iff {m : List Byte} {v : Nat} :
    m.map BitVec.toNat = numeral 256 v ↔ m.head? ≠ some 0 ∧ beNat m = v := by
  rw [beNat_eq_foldl, eq_numeral_iff (by decide) (List.forall_mem_map.2 fun x _ => x.isLt),
    head?_map_ne_zero_iff (fun _ _ => BitVec.eq_of_toNat_eq) (z := (0 : Byte)) rfl]

/-- Base-58 digits without a leading zero are determined by their value (rule R124). -/
theorem base58Digits_unique {ds ds' : List (Fin 58)} (h : ds.head? ≠ some 0) (h' : ds'.head? ≠ some 0)
    (hv : base58Value (ds.map Fin.val) = base58Value (ds'.map Fin.val)) : ds = ds' :=
  List.map_injective_iff.2 Fin.val_injective
    ((map_val_eq_numeral_iff.2 ⟨h, hv⟩).trans (map_val_eq_numeral_iff.2 ⟨h', rfl⟩).symm)

/-- Bytes without a leading zero are determined by their value (rule R124). -/
theorem bytes_unique {m m' : List Byte} (h : m.head? ≠ some 0) (h' : m'.head? ≠ some 0) (hv : beNat m = beNat m') :
    m = m' :=
  List.map_injective_iff.2 (fun _ _ => BitVec.eq_of_toNat_eq)
    ((map_toNat_eq_numeral_iff.2 ⟨h, hv⟩).trans (map_toNat_eq_numeral_iff.2 ⟨h', rfl⟩).symm)

theorem div_lt_two_pow {v fuel b : Nat} (hb : 2 ≤ b) (h : v < 2 ^ (fuel + 1)) : v / b < 2 ^ fuel :=
  Nat.div_lt_of_lt_mul <| h.trans_le <| by rw [Nat.pow_succ']; exact Nat.mul_le_mul_right _ hb

theorem map_toNat_minBeInto {fuel v : Nat} (h : v < 2 ^ fuel) (tail : List Byte) :
    (minBeInto fuel v tail).map BitVec.toNat = numeral 256 v ++ tail.map BitVec.toNat := by
  induction fuel generalizing v tail with
  | zero => simp [minBeInto, numeral, Nat.lt_one_iff.1 h]
  | succ fuel ih =>
    rw [minBeInto]
    split
    case isTrue hzero => simp [numeral, hzero]
    case isFalse hne =>
      rw [ih (div_lt_two_pow (by decide) h), numeral, numeral, Nat.digits_def' (by decide) (Nat.pos_of_ne_zero hne)]
      simp

/-- `min_be(v)` is the shortest byte sequence of v (rules R12, R123). -/
theorem minBe_spec (v : Nat) : (minBe v).head? ≠ some 0 ∧ beNat (minBe v) = v := by
  rw [← map_toNat_eq_numeral_iff, minBe, map_toNat_minBeInto Nat.lt_log2_self, List.map_nil, List.append_nil]

/-! ### Leading zeros -/

section
variable {α : Type} [DecidableEq α] (z : α)

theorem lead_replicate_append (n : Nat) {l : List α} (h : l.head? ≠ some z) :
    lead z (List.replicate n z ++ l) = n := by
  induction n with
  | zero =>
    cases l with
    | nil => rfl
    | cons y ys => exact if_neg fun hy => h (congrArg some hy)
  | succ n ih => rw [List.replicate_succ, List.cons_append, lead, if_pos rfl, ih]

/-- A list is its leading z's and a rest that begins with no z (rule R12). -/
theorem exists_eq_replicate_lead_append (l : List α) :
    ∃ r, l = List.replicate (lead z l) z ++ r ∧ r.head? ≠ some z := by
  induction l with
  | nil => exact ⟨[], rfl, by simp⟩
  | cons y ys ih =>
    by_cases hy : y = z
    · obtain ⟨r, hr, hhead⟩ := ih
      refine ⟨r, ?_, hhead⟩
      rw [lead, if_pos hy, List.replicate_succ, List.cons_append, ← hr, hy]
    · refine ⟨y :: ys, ?_, by simpa using hy⟩
      rw [lead, if_neg hy]
      rfl

end

theorem foldl_replicate_zero (b n : Nat) : (List.replicate n 0).foldl (fun v d => b * v + d) 0 = 0 := by
  rw [foldl_eq_ofDigits, List.reverse_replicate]
  exact Nat.ofDigits_append_replicate_zero []

/-- Leading zero digits add nothing to a numeral (rule R122). -/
theorem base58Value_replicate_append (n : Nat) (ds : List (Fin 58)) :
    base58Value ((List.replicate n 0 ++ ds).map Fin.val) = base58Value (ds.map Fin.val) := by
  rw [base58Value, List.map_append, List.map_replicate, List.foldl_append, Fin.val_zero, foldl_replicate_zero]
  rfl

/-- Leading zero bytes add nothing to a number (rule R114). -/
theorem beNat_replicate_append (n : Nat) (m : List Byte) : beNat (List.replicate n 0 ++ m) = beNat m := by
  rw [beNat_eq_foldl, beNat_eq_foldl, List.map_append, List.map_replicate, List.foldl_append]
  exact congrArg (List.foldl _ · _) (foldl_replicate_zero 256 n)

/-! ### Base58 symbols -/

theorem b58Symbol_injective : Function.Injective b58Symbol := fun d e h => by
  have hrev := congrArg b58Rev h
  rw [b58Rev_b58Symbol, b58Rev_b58Symbol] at hrev
  exact Fin.ext (Option.some.inj hrev)

theorem head?_map_b58Symbol_ne {ds : List (Fin 58)} (h : ds.head? ≠ some 0) : (ds.map b58Symbol).head? ≠ some '1' := by
  rw [List.head?_map]
  exact (Option.map_injective b58Symbol_injective).ne (a₂ := some 0) h

/-- A text of alphabet symbols is a text of digits' symbols (rule R67). -/
theorem exists_digits_of_symbols {t : List CodePoint} (h : ∀ c ∈ t, c ∈ b58Alpha) :
    ∃ ds : List (Fin 58), t = ds.map b58Symbol := by
  have hrange : t ∈ Set.range (List.map b58Symbol) := by
    rw [Set.range_list_map]
    intro c hc
    obtain ⟨i, hi, rfl⟩ := List.getElem_of_mem (h c hc)
    exact ⟨⟨i, hi⟩, rfl⟩
  obtain ⟨ds, rfl⟩ := hrange
  exact ⟨ds, rfl⟩

theorem symbols_of_b58Digits (ds : List (Fin 58)) : ∀ c ∈ ds.map b58Symbol, c ∈ b58Alpha :=
  List.forall_mem_map.2 fun d _ => b58Symbol_mem d

/-- When no Base58 symbol counts as blank, no blank is a symbol (rule R119). -/
theorem not_symbol_of_blank {p : Params} (h : p.blanksApart = true) {c : CodePoint} (hc : c ∈ p.blankSet) :
    c ∉ b58Alpha := by
  simpa using List.all_eq_true.1 h c hc

theorem not_blank_of_symbol {p : Params} (h : p.blanksApart = true) {c : CodePoint} (hc : c ∈ b58Alpha) :
    c ∉ p.blankSet :=
  fun hblank => not_symbol_of_blank h hblank hc

theorem isBlankText_eq_false_iff {p : Params} {t : List CodePoint} :
    isBlankText p t = false ↔ ∃ c ∈ t, c ∉ p.blankSet := by
  simp [isBlankText]

theorem isBlankText_of_symbol {p : Params} (h : p.blanksApart = true) {t : List CodePoint} {c : CodePoint} (hc : c ∈ t)
    (hsym : c ∈ b58Alpha) : isBlankText p t = false :=
  isBlankText_eq_false_iff.2 ⟨c, hc, not_blank_of_symbol h hsym⟩

/-! ### B58ENC -/

/-- The loop finds the digits of BIG, least significant first (rule R115). -/
theorem b58DigitLoop_digits {fuel : Nat} {s : State} (h : s.work.big < 2 ^ fuel) (ds : List (Fin 58)) :
    (b58DigitLoop fuel s ds).1.map Fin.val = ds.map Fin.val ++ Nat.digits 58 s.work.big := by
  induction fuel generalizing s ds with
  | zero => simp [b58DigitLoop, Nat.lt_one_iff.1 h]
  | succ fuel ih =>
    rw [b58DigitLoop]
    split
    case isTrue hzero => simp [hzero]
    case isFalse hne =>
      have hdiv : s.work.big / 58 < 2 ^ fuel := div_lt_two_pow (by decide) h
      rw [ih (s := { s with work.big := s.work.big / 58 }) hdiv,
        Nat.digits_def' (by decide) (Nat.pos_of_ne_zero hne)]
      simp

/-- B58ENC's text is a `1` for each leading zero byte and the numeral of the input (rules R113 to R116). -/
theorem b58Enc_text {s : State} (hout : s.out = Lanes.empty) : ∃ ds : List (Fin 58),
    (bodyOf .b58enc s).state.out.text = List.replicate (lead 0 s.input.bytes) '1' ++ ds.map b58Symbol ∧
      ds.map Fin.val = numeral 58 (beNat s.input.bytes) := by
  simp only [bodyOf, b58EncBody]
  split
  case isTrue hnil => exact ⟨[], by simp [hnil, hout, lead, Lanes.empty], by simp [hnil, beNat, numeral]⟩
  case isFalse =>
    have hdigits := b58DigitLoop_digits (s := s.loadBig) (fuel := Nat.log2 s.loadBig.work.big + 1) Nat.lt_log2_self []
    refine ⟨(b58DigitLoop (Nat.log2 s.loadBig.work.big + 1) s.loadBig []).1.reverse, ?_, ?_⟩
    · rw [OpResult.state_returns, b58EncEmit, b58DigitLoop_frame, State.emitText_out, State.emitText_out]
      change s.out.text ++ _ ++ _ = _
      rw [hout]
      rfl
    · rw [List.map_reverse, hdigits]
      rfl

/-- Settles O35: the digit loop finds the numeral of BIG, which has the value and no leading zero. -/
theorem base58EncodesTheBigInteger : Obligations.Base58EncodesTheBigInteger := by
  intro s hs
  obtain ⟨-, hout, -⟩ := id hs
  obtain ⟨ds, htext, hnumeral⟩ := b58Enc_text hout
  obtain ⟨hhead, hvalue⟩ := map_val_eq_numeral_iff.1 hnumeral
  exact ⟨ds, htext ▸ encoder_completesWith (i := .b58enc) rfl hs, hvalue, hhead⟩

/-! ### The walk of B58DEC -/

theorem b58DecUnit_of_digit (d : Fin 58) (s : State) :
    b58DecUnit (b58Symbol d) s = .returns { s with work.big := s.work.big * 58 + d } := by
  simp [b58DecUnit]

theorem b58DecUnit_of_invalid {c : CodePoint} (h : c ∉ b58Alpha) (s : State) :
    b58DecUnit c s = .raises s.work.pos s := by
  simp [b58DecUnit, b58Rev_eq_none h]

/-- A walk over symbols reads their numeral into BIG (rule R121). -/
theorem forUnits_b58DecUnit_of_digits (ds : List (Fin 58)) (s : State) :
    forUnits b58DecUnit (ds.map b58Symbol) s = .returns { s with
      work.big := (ds.map Fin.val).foldl (fun v d => 58 * v + d) s.work.big
      work.pos := s.work.pos + ds.length } := by
  induction ds generalizing s with
  | nil => rfl
  | cons d ds ih =>
    rw [List.map_cons, forUnits_cons, b58DecUnit_of_digit, OpResult.andThen_returns, ih, List.map_cons, List.foldl_cons,
      List.length_cons, Nat.mul_comm 58, Nat.add_comm ds.length, ← Nat.add_assoc]
    rfl

section
variable {s : State} (hs : s.Ready .dec) (hblank : isBlankText s.params s.input.text = false)
include hs hblank

/-- What is left of a text after trimming, if symbols, decodes to the zeros of its leading `1`s and the shortest bytes of its numeral (rules R121 to R123). -/
theorem b58Dec_completes {ds : List (Fin 58)} (htrim : b58Trimmed s.params s.input.text = ds.map b58Symbol) :
    CompletesWith (exec .b58dec s)
      { bytes := List.replicate (lead '1' (ds.map b58Symbol)) 0 ++ minBe (base58Value (ds.map Fin.val)), text := [] } := by
  obtain ⟨-, hout, -⟩ := id hs
  obtain ⟨t, hbody, htout⟩ : ∃ t, bodyOf .b58dec s = .returns t ∧ t.out =
      { bytes := List.replicate (lead '1' (ds.map b58Symbol)) 0 ++ minBe (base58Value (ds.map Fin.val)), text := [] } := by
    rw [bodyOf, b58DecBody, hblank, if_neg Bool.false_ne_true, htrim, forUnits_b58DecUnit_of_digits,
      OpResult.andThen_returns]
    refine ⟨_, rfl, ?_⟩
    rw [b58DecEmit, State.emitBytes_out, State.emitBytes_out, hout]
    rfl
  exact htout ▸ completesWith_of_returns hs hbody

/-- The first unit that is no symbol raises at its index, which counts the units that trimming dropped (rules R120, R148). -/
theorem b58Dec_fails_at {pre post : List CodePoint} {c : CodePoint}
    (htrim : b58Trimmed s.params s.input.text = pre ++ c :: post) (hpre : ∀ d ∈ pre, d ∈ b58Alpha) (hc : c ∉ b58Alpha) :
    FailsWith (exec .b58dec s) .invalidEncoding (b58Skip s.params s.input.text + pre.length) := by
  obtain ⟨ds, rfl⟩ := exists_digits_of_symbols hpre
  obtain ⟨t, hbody⟩ : ∃ t, bodyOf .b58dec s = .raises (b58Skip s.params s.input.text + ds.length) t := by
    rw [bodyOf, b58DecBody, hblank, if_neg Bool.false_ne_true, htrim, forUnits_append, forUnits_b58DecUnit_of_digits,
      OpResult.andThen_returns, forUnits_cons, b58DecUnit_of_invalid hc]
    exact ⟨_, rfl⟩
  rw [List.length_map]
  exact failsWith_of_raises hs hbody

end

/-! ### Trimming -/

section
variable {p : Params}

theorem b58Trimmed_of_noTrim (h : p.b58Trim = .noTrim) (t : List CodePoint) : b58Trimmed p t = t := by
  simp [b58Trimmed, h]

theorem b58Skip_of_noTrim (h : p.b58Trim = .noTrim) (t : List CodePoint) : b58Skip p t = 0 := by
  simp [b58Skip, h]

variable {pre w post : List CodePoint}

/-- Dropping blanks drops those in front of a text that begins with none. -/
theorem dropWhile_blanks_append (hpre : ∀ d ∈ pre, d ∈ p.blankSet) (hw : w ≠ [])
    (hhead : ∀ d, w.head? = some d → d ∉ p.blankSet) :
    (pre ++ (w ++ post)).dropWhile (fun c => p.blankSet.contains c) = w ++ post := by
  obtain ⟨a, w', rfl⟩ := List.exists_cons_of_ne_nil hw
  rw [List.dropWhile_append_of_pos (by simpa using hpre), List.cons_append,
    List.dropWhile_cons_of_neg (by simpa using hhead a rfl)]

/-- `outer` leaves what stands between the outer blanks, and skips those in front (rule R119). -/
theorem b58Trimmed_of_outer (houter : p.b58Trim = .outer) (hblanks : ∀ d ∈ pre ++ post, d ∈ p.blankSet) (hw : w ≠ [])
    (hhead : ∀ d, w.head? = some d → d ∉ p.blankSet) (hlast : ∀ d, w.getLast? = some d → d ∉ p.blankSet) :
    b58Trimmed p (pre ++ w ++ post) = w ∧ b58Skip p (pre ++ w ++ post) = pre.length := by
  obtain ⟨hpre, hpost⟩ := List.forall_mem_append.1 hblanks
  have hdrop := dropWhile_blanks_append (post := post) hpre hw hhead
  have hback := dropWhile_blanks_append (p := p) (pre := post.reverse) (w := w.reverse) (post := [])
    (by simpa using hpost) (by simpa using hw) (by simpa [List.head?_reverse] using hlast)
  rw [List.append_nil] at hback
  have hsplit := congrArg List.length
    (List.takeWhile_append_dropWhile (p := fun c => p.blankSet.contains c) (l := pre ++ (w ++ post)))
  rw [hdrop, List.length_append, List.length_append (as := pre)] at hsplit
  rw [List.append_assoc, b58Trimmed, b58Skip, houter]
  refine ⟨?_, Nat.add_right_cancel hsplit⟩
  simp only [hdrop, List.reverse_append, hback, List.reverse_reverse]

/-- `outer` drops the blanks around a text of symbols, when no symbol counts as blank (rule R119). -/
theorem b58Trimmed_of_blanks_around (h : p.blanksApart = true) (houter : p.b58Trim = .outer)
    (hblanks : ∀ d ∈ pre ++ post, d ∈ p.blankSet) (hw : w ≠ []) (hsym : ∀ c ∈ w, c ∈ b58Alpha) :
    b58Trimmed p (pre ++ w ++ post) = w := by
  obtain ⟨htrim, -⟩ := b58Trimmed_of_outer houter hblanks hw
    (fun d hd => not_blank_of_symbol h (hsym d (List.mem_of_head? hd)))
    fun d hd => not_blank_of_symbol h (hsym d (List.mem_of_getLast? hd))
  exact htrim

/-- Trimming leaves a text of symbols alone, when no symbol counts as blank (rule R119). -/
theorem b58Trimmed_of_symbols (h : p.blanksApart = true) (hw : ∀ c ∈ w, c ∈ b58Alpha) : b58Trimmed p w = w := by
  cases htrim : p.b58Trim with
  | noTrim => exact b58Trimmed_of_noTrim htrim w
  | outer =>
    by_cases hnil : w = []
    · simp [b58Trimmed, htrim, hnil]
    · simpa using b58Trimmed_of_blanks_around (pre := []) (post := []) h htrim (by simp) hnil hw

end

/-! ### B58DEC -/

/-- Settles O36: trimming leaves the text alone, and the walk reads its numeral. -/
theorem base58DecodesTheNumeral : Obligations.Base58DecodesTheNumeral := by
  intro s ds hs hparams hblank htext
  have htrim : b58Trimmed s.params s.input.text = ds.map b58Symbol := by
    rw [htext]
    exact hparams.elim (b58Trimmed_of_noTrim · _) (b58Trimmed_of_symbols · (symbols_of_b58Digits ds))
  obtain ⟨hhead, hvalue⟩ := minBe_spec (base58Value (ds.map Fin.val))
  exact ⟨_, htext ▸ b58Dec_completes hs hblank htrim, hvalue, hhead⟩

/-- Settles O37: without trimming the first unit that is no symbol raises at its index. -/
theorem base58RejectsTheFirstInvalidUnit : Obligations.Base58RejectsTheFirstInvalidUnit := by
  intro s pre c post hs hparams hblank htext hpre hc
  have hfail := b58Dec_fails_at hs hblank ((b58Trimmed_of_noTrim hparams _).trans htext) hpre hc
  rwa [b58Skip_of_noTrim hparams, Nat.zero_add] at hfail

section
variable {s u : State} {pre post : List CodePoint} (hs : s.Ready .dec) (hapart : s.params.blanksApart = true)
  (hne : u.input.text ≠ []) (hsym : ∀ c ∈ u.input.text, c ∈ b58Alpha) (hblanks : ∀ c ∈ pre ++ post, c ∈ s.params.blankSet)
  (htext : s.input.text = pre ++ u.input.text ++ post)
include hs hapart hne hsym hblanks htext

/-- Under `outer` a text decodes as it does with blanks around it (rule R119). -/
theorem b58Dec_outer_blanks (hu : u.Ready .dec) (hparams : u.params = s.params) (houter : s.params.b58Trim = .outer) :
    ∃ out : Lanes, CompletesWith (exec .b58dec s) out ∧ CompletesWith (exec .b58dec u) out := by
  obtain ⟨c, hc⟩ := List.exists_mem_of_ne_nil _ hne
  obtain ⟨ds, hds⟩ := exists_digits_of_symbols hsym
  have hsblank : isBlankText s.params s.input.text = false :=
    isBlankText_of_symbol hapart (by simp [htext, hc]) (hsym c hc)
  have hublank : isBlankText u.params u.input.text = false := by
    rw [hparams]; exact isBlankText_of_symbol hapart hc (hsym c hc)
  have hstrim : b58Trimmed s.params s.input.text = ds.map b58Symbol := by
    rw [htext, b58Trimmed_of_blanks_around hapart houter hblanks hne hsym, hds]
  have hutrim : b58Trimmed u.params u.input.text = ds.map b58Symbol := by
    rw [hparams, b58Trimmed_of_symbols hapart hsym, hds]
  exact ⟨_, b58Dec_completes hs hsblank hstrim, b58Dec_completes hu hublank hutrim⟩

/-- Without trimming the first outer blank is the error (rules R119, R120). -/
theorem b58Dec_fails_at_first_blank (hno : s.params.b58Trim = .noTrim) (hsome : pre ++ post ≠ []) :
    FailsWith (exec .b58dec s) .invalidEncoding (if pre = [] then u.input.text.length else 0) := by
  obtain ⟨c, hc⟩ := List.exists_mem_of_ne_nil _ hne
  have hblank : isBlankText s.params s.input.text = false :=
    isBlankText_of_symbol hapart (by simp [htext, hc]) (hsym c hc)
  have hnot : ∀ d ∈ pre ++ post, d ∉ b58Alpha := fun d hd => not_symbol_of_blank hapart (hblanks d hd)
  cases pre with
  | nil =>
    obtain ⟨d, post', rfl⟩ := List.exists_cons_of_ne_nil hsome
    exact base58RejectsTheFirstInvalidUnit s _ d post' hs hno hblank htext hsym (hnot d (by simp))
  | cons d pre' =>
    exact base58RejectsTheFirstInvalidUnit s [] d (pre' ++ u.input.text ++ post) hs hno hblank htext (by simp)
      (hnot d (by simp))

end

/-- Settles O38: trimming leaves what stands between the outer blanks; without it they are units that are no symbols. -/
theorem base58OuterBlanks : Obligations.Base58OuterBlanks := by
  refine ⟨fun s u pre post hs hu hparams hapart hne hsym hblanks htext => ⟨?outer, ?noTrim⟩,
    fun s pre w1 c w2 post hs houter htext hblanks hhead hlast hsym hc => ?error⟩
  case outer => exact b58Dec_outer_blanks hs hapart hne hsym hblanks htext hu hparams
  case noTrim => exact b58Dec_fails_at_first_blank hs hapart hne hsym hblanks htext
  case error =>
    have hw : w1 ++ c :: w2 ≠ [] := by simp
    have hblank : isBlankText s.params s.input.text = false :=
      isBlankText_eq_false_iff.2 ⟨(w1 ++ c :: w2).head hw, by
        rw [htext]; exact List.mem_append_left _ (List.mem_append_right _ (List.head_mem hw)),
        hhead _ (List.head?_eq_some_head hw)⟩
    obtain ⟨htrim, hskip⟩ := b58Trimmed_of_outer houter hblanks hw hhead hlast
    rw [← htext] at htrim hskip
    exact hskip ▸ b58Dec_fails_at hs hblank htrim hsym hc

/-! ### The round trips -/

/-- Any text of symbols, the empty one too, decodes to its leading zeros and its numeral, when no symbol counts as blank (rules R119 to R123). -/
theorem b58Dec_of_digits {s : State} (hs : s.Ready .dec) (hapart : s.params.blanksApart = true) {ds : List (Fin 58)}
    (htext : s.input.text = ds.map b58Symbol) : ∃ m : List Byte,
      CompletesWith (exec .b58dec s) { bytes := List.replicate (lead '1' s.input.text) 0 ++ m, text := [] } ∧
      beNat m = base58Value (ds.map Fin.val) ∧ m.head? ≠ some 0 := by
  cases ds with
  | nil =>
    obtain ⟨-, -, hdone⟩ := blankTextsDecodeToNothing s hs
    rw [htext]
    exact ⟨[], hdone (by simp [htext]), rfl, by simp⟩
  | cons d ds =>
    exact base58DecodesTheNumeral s (d :: ds) hs (.inr hapart)
      (isBlankText_of_symbol hapart (by simp [htext]) (b58Symbol_mem d)) htext

theorem replicate_one_append (n : Nat) (ds : List (Fin 58)) :
    List.replicate n '1' ++ ds.map b58Symbol = (List.replicate n 0 ++ ds).map b58Symbol := by
  rw [List.map_append, List.map_replicate]
  rfl

/-- What a completed operation left in OUT. -/
theorem out_of_completesWith {r : Result} {out : Lanes} (h : CompletesWith r out) {t : State} (ht : r = .next t) :
    t.out = out := by
  obtain ⟨t', ht', -, -, -, hout⟩ := h
  rw [ht] at ht'
  cases ht'
  exact hout

/-- Settles O39: the text is the leading `1`s and the numeral (O35); the decoder gives as many zero bytes and the shortest bytes of the same value (O36), which are the input's. -/
theorem base58RoundTrip : Obligations.Base58RoundTrip := by
  intro s t u hs ht hu hapart htext
  obtain ⟨ds, henc, hvalue, hhead⟩ := base58EncodesTheBigInteger s hs
  rw [out_of_completesWith henc ht] at htext
  obtain ⟨m, hdone, hm, hmhead⟩ := b58Dec_of_digits hu hapart (htext.trans (replicate_one_append _ ds))
  obtain ⟨rest, hbytes, hrest⟩ := exists_eq_replicate_lead_append 0 s.input.bytes
  have hnat : beNat m = beNat rest := by
    rw [hm, base58Value_replicate_append, hvalue, hbytes, beNat_replicate_append]
  rw [htext, lead_replicate_append _ _ (head?_map_b58Symbol_ne hhead), bytes_unique hmhead hrest hnat, ← hbytes] at hdone
  exact hdone

/-- Settles O40: the decoder keeps the number of leading zeros and the value of the rest (O36), and the encoder gives the only numeral of them (O35). -/
theorem base58TextsAreCanonical : Obligations.Base58TextsAreCanonical := by
  intro s t u hs hapart _ hsym ht hu hbytes
  obtain ⟨all, hall⟩ := exists_digits_of_symbols hsym
  obtain ⟨ds, hds, hhead⟩ := exists_eq_replicate_lead_append 0 all
  generalize lead 0 all = n at hds
  subst hds
  have htext := hall.trans (replicate_one_append n ds).symm
  obtain ⟨m, hdec, hm, hmhead⟩ := b58Dec_of_digits hs hapart hall
  rw [htext, lead_replicate_append _ _ (head?_map_b58Symbol_ne hhead)] at hdec
  rw [out_of_completesWith hdec ht] at hbytes
  obtain ⟨ds', henc, hvalue, hhead'⟩ := base58EncodesTheBigInteger u hu
  have hsame : base58Value (ds'.map Fin.val) = base58Value (ds.map Fin.val) := by
    rw [hvalue, hbytes, beNat_replicate_append, hm, base58Value_replicate_append]
  rw [hbytes, lead_replicate_append _ _ hmhead, base58Digits_unique hhead' hhead hsame, ← htext] at henc
  exact henc

end Sys2Proof.Machine
end

section
/-! PROOFS of the Base122 family (O17, O42, O44 to O47).
A list of groups is cut into units from the front: B122ENC emits these units, and each unit stands for the groups it was cut from, which B122DEC pushes. -/

namespace Sys2Proof.Machine

/-! ### The units of a list of groups -/

/-- The statements' index of an illegal group is the model's (rule R69). -/
theorem b122Index_eq (g : BitVec 7) : Closed.b122Index g = (b122IndexOf g).map Fin.val := by
  revert g; decide

theorem b122Escape_eq (idx : BitVec 3) (g : BitVec 7) : Closed.b122Escape idx.toNat g.toNat = escapeUnit idx g := by
  rw [Closed.b122Escape, ← escapeUnit_toNat, Char.ofNat_toNat]

section
variable {g : BitVec 7} {idx : Fin 6} (short : BitVec 3)

/-- Rule R127. -/
theorem b122Units_of_legal (hg : b122IndexOf g = none) (vs : List (BitVec 7)) :
    Closed.b122Units short (g :: vs) = plainUnit g :: Closed.b122Units short vs := by
  rw [Closed.b122Units, b122Index_eq, hg]
  rfl

/-- Rule R128. -/
theorem b122Units_of_illegal (hg : b122IndexOf g = some idx) (v : BitVec 7) (vs : List (BitVec 7)) :
    Closed.b122Units short (g :: v :: vs) = escapeUnit (BitVec.ofNat 3 idx) v :: Closed.b122Units short vs := by
  have hidx : (BitVec.ofNat 3 idx).toNat = idx := by rw [BitVec.toNat_ofNat]; omega
  rw [← b122Escape_eq, hidx, Closed.b122Units, b122Index_eq, hg]
  rfl

/-- Rule R129. -/
theorem b122Units_of_last_illegal (hg : b122IndexOf g = some idx) :
    Closed.b122Units short [g] = [escapeUnit short g] := by
  rw [← b122Escape_eq, Closed.b122Units, b122Index_eq, hg]
  rfl

end

/-- Induction on a list of groups along the units it is cut into (rules R127 to R129). -/
theorem groups_unit_induction {motive : List (BitVec 7) → Prop} (nil : motive [])
    (plain : ∀ g vs, b122IndexOf g = none → motive vs → motive (g :: vs))
    (last : ∀ g idx, b122IndexOf g = some idx → motive [g])
    (escape : ∀ g idx v vs, b122IndexOf g = some idx → motive vs → motive (g :: v :: vs)) :
    ∀ vs, motive vs
  | [] => nil
  | g :: vs =>
    match hg : b122IndexOf g, vs with
    | none, vs => plain g vs hg (groups_unit_induction nil plain last escape vs)
    | some idx, [] => last g idx hg
    | some idx, v :: vs => escape g idx v vs hg (groups_unit_induction nil plain last escape vs)

/-! ### B122ENC -/

section
variable {g v : BitVec 7} {idx : Fin 6} {vs : List (BitVec 7)} {s : State}

theorem setPend_out (s : State) (p : Option Pending) : (s.setPend p).out = s.out := rfl

/-- PEND is no part of the cursor. -/
theorem State.Reads.setPend (h : s.Reads vs) (p : Option Pending) : (s.setPend p).Reads vs := h

/-- With a group left the escape carries it, and the rest is left to read (rule R128). -/
theorem b122EncEscape_of_next (h : s.Reads (v :: vs)) :
    (b122EncEscape idx g s).out.text = s.out.text ++ [escapeUnit (BitVec.ofNat 3 idx) v] ∧
      (b122EncEscape idx g s).Reads vs := by
  obtain ⟨hnext, hrest⟩ := (h.setPend (some { idx := idx, group := g })).next (by decide) (by decide)
  rw [b122EncEscape, hnext]
  refine ⟨?_, (hrest.emitText _).setPend none⟩
  rw [setPend_out, State.emitText_out, State.advanceCursor_out, setPend_out]

/-- With no group left the escape carries the illegal group behind the marker (rule R129). -/
theorem b122EncEscape_of_exhausted (h : s.Reads (k := 7) []) :
    (b122EncEscape idx g s).out.text = s.out.text ++ [escapeUnit s.params.b122Short g] ∧
      (b122EncEscape idx g s).Reads (k := 7) [] := by
  rw [b122EncEscape, (h.setPend _).exhausted (by decide)]
  exact ⟨rfl, h⟩

theorem b122EncLoop_of_exhausted (h : s.Reads (k := 7) []) (fuel : Nat) : b122EncLoop fuel s = s := by
  cases fuel with
  | zero => rfl
  | succ fuel => rw [b122EncLoop, h.exhausted (by decide)]

/-- The loop goes on behind the plain unit of a legal group (rule R127). -/
theorem b122EncLoop_of_legal (h : s.Reads (g :: vs)) (hg : b122IndexOf g = none) (fuel : Nat) :
    b122EncLoop (fuel + 1) s = b122EncLoop fuel ((s.advanceCursor 7).emitText [plainUnit g]) := by
  obtain ⟨hnext, -⟩ := h.next (by decide) (by decide)
  rw [b122EncLoop, hnext]
  simp only [hg]

/-- The loop goes on behind the escape of an illegal group (rules R128, R129). -/
theorem b122EncLoop_of_illegal (h : s.Reads (g :: vs)) (hg : b122IndexOf g = some idx) (fuel : Nat) :
    b122EncLoop (fuel + 1) s = b122EncLoop fuel (b122EncEscape idx g (s.advanceCursor 7)) := by
  obtain ⟨hnext, -⟩ := h.next (by decide) (by decide)
  rw [b122EncLoop, hnext]
  simp only [hg]

end

/-- The loop of B122ENC emits the units of the groups that are left (rules R126 to R129). -/
theorem b122EncLoop_text (vs : List (BitVec 7)) {fuel : Nat} {s : State} (h : s.Reads vs) (hfuel : vs.length < fuel) :
    (b122EncLoop fuel s).out.text = s.out.text ++ Closed.b122Units s.params.b122Short vs := by
  induction vs using groups_unit_induction generalizing fuel s with
  | nil => rw [b122EncLoop_of_exhausted h, Closed.b122Units, List.append_nil]
  | plain g vs hg ih =>
    obtain ⟨fuel, rfl⟩ := Nat.exists_eq_add_one_of_ne_zero (Nat.ne_zero_of_lt hfuel)
    obtain ⟨-, hrest⟩ := h.next (by decide) (by decide)
    rw [b122EncLoop_of_legal h hg, ih (hrest.emitText [plainUnit g]) (Nat.lt_of_succ_lt_succ hfuel),
      b122Units_of_legal _ hg]
    simp
  | last g idx hg =>
    obtain ⟨fuel, rfl⟩ := Nat.exists_eq_add_one_of_ne_zero (Nat.ne_zero_of_lt hfuel)
    obtain ⟨-, hrest⟩ := h.next (by decide) (by decide)
    obtain ⟨htext, hend⟩ := b122EncEscape_of_exhausted (idx := idx) (g := g) hrest
    rw [b122EncLoop_of_illegal h hg, b122EncLoop_of_exhausted hend, htext, b122Units_of_last_illegal _ hg]
    simp
  | escape g idx v vs hg ih =>
    obtain ⟨fuel, rfl⟩ := Nat.exists_eq_add_one_of_ne_zero (Nat.ne_zero_of_lt hfuel)
    obtain ⟨-, hrest⟩ := h.next (by decide) (by decide)
    obtain ⟨htext, hreads⟩ := b122EncEscape_of_next (idx := idx) (g := g) hrest
    rw [List.length_cons, List.length_cons] at hfuel
    rw [b122EncLoop_of_illegal h hg, ih hreads (by omega), htext, b122EncEscape_params, b122Units_of_illegal _ hg]
    simp

/-- B122ENC from a fresh state emits the units of the groups of IN (rule R125). -/
theorem b122EncBody_text {s : State} (hw : s.work = Work.reset) (hout : s.out = Lanes.empty) :
    (b122EncBody s).state.out.text = Closed.b122Units s.params.b122Short (Closed.groups 7 s.input.bytes) := by
  have htext := b122EncLoop_text _ (fuel := s.groupFuel) (reads_of_fresh hw 7)
    (by rw [groups_length, State.groupFuel]; omega)
  rw [hout] at htext
  exact htext

theorem b122EncodeText_eq (p : Params) (b : List Byte) :
    b122EncodeText p b = Closed.b122Units p.b122Short (Closed.groups 7 b) :=
  b122EncBody_text rfl rfl

/-- Settles O42: B122ENC reads the list of the groups to its end, by induction along the units it is cut into. -/
theorem base122EncodesTheGroups : Obligations.Base122EncodesTheGroups := by
  intro s hs
  obtain ⟨hw, hout, -⟩ := id hs
  have hdone := encoder_completesWith (i := .b122enc) rfl hs
  rwa [bodyOf, b122EncBody_text hw hout] at hdone

/-! ### What a unit of a Base122 text pushes -/

/-- A unit that does not reach `unspecified`: plain, behind the marker, or of an index that has an entry (rules R132, R137 (a)). -/
abbrev IsB122Specified (short : BitVec 3) (c : CodePoint) : Prop :=
  c.toNat ≤ 0x7F ∨ escapeIndex c = short ∨ (b122IllegalGroup (escapeIndex c)).isSome

theorem b122ReachesUnspecified_eq_false_iff {p : Params} {t : List CodePoint} :
    b122ReachesUnspecified p t = false ↔ ∀ c ∈ t, IsB122Specified p.b122Short c := by
  simp [b122ReachesUnspecified, IsB122Specified, Option.ne_none_iff_isSome, or_iff_not_imp_left]

/-- WF (rule R136): no unit reaches `unspecified`, and encoding what the datapath gives returns the text. -/
theorem b122WellFormedText_iff {p : Params} {t : List CodePoint} :
    b122WellFormedText p t = true ↔
      (∀ c ∈ t, IsB122Specified p.b122Short c) ∧ b122EncodeText p (b122Datapath p t) = t := by
  rw [b122WellFormedText, Bool.and_eq_true, Bool.not_eq_true', b122ReachesUnspecified_eq_false_iff,
    decide_eq_true_iff]

theorem escapeIndex_toNat (c : CodePoint) : (escapeIndex c).toNat = c.toNat / 256 % 8 := by
  rw [escapeIndex, BitVec.toNat_ofNat, Nat.shiftRight_eq_div_pow]

theorem b122IllegalGroup_eq (idx : BitVec 3) :
    b122IllegalGroup idx = [0x00#7, 0x0A#7, 0x0D#7, 0x22#7, 0x26#7, 0x5C#7][idx.toNat]? := by
  revert idx; decide

section
variable {short : BitVec 3} {c : CodePoint}

theorem b122Pushes_of_plain (hc : c.toNat ≤ 0x7F) : Closed.b122Pushes short c = [escapePayload c] := if_pos hc

theorem b122Pushes_of_escape (hc : ¬ c.toNat ≤ 0x7F) :
    Closed.b122Pushes short c =
      if escapeIndex c = short then [escapePayload c]
      else (b122IllegalGroup (escapeIndex c)).toList ++ [escapePayload c] := by
  rw [Closed.b122Pushes, if_neg hc, ← escapeIndex_toNat, ← b122IllegalGroup_eq]
  simp only [BitVec.toNat_inj]
  rfl

end

/-- Such a unit of B122DEC pushes the groups it stands for, in order (rules R133, R134). -/
theorem b122DecUnit_of_specified {c : CodePoint} {s : State} (h : IsB122Specified s.params.b122Short c) :
    b122DecUnit c s = .returns (s.pushAll (Closed.b122Pushes s.params.b122Short c)) := by
  unfold b122DecUnit
  split
  case isTrue hplain => rw [b122Pushes_of_plain hplain]; rfl
  case isFalse hplain =>
    rw [b122Pushes_of_escape hplain]
    split
    case isTrue => rfl
    case isFalse hshort =>
      obtain ⟨g, hg⟩ := Option.isSome_iff_exists.1 ((h.resolve_left hplain).resolve_left hshort)
      rw [b122PushIllegal, hg]
      rfl

/-- A walk whose units push groups returns, with the groups of all of them pushed in order. -/
theorem forUnits_of_pushes {f : CodePoint → State → OpResult} {p : Params} {k : Nat}
    {pushes : CodePoint → List (BitVec k)} {cs : List CodePoint} {s : State} (hp : s.params = p)
    (h : ∀ c ∈ cs, ∀ s : State, s.params = p → f c s = .returns (s.pushAll (pushes c))) :
    ∃ t, forUnits f cs s = .returns t ∧ t.out = (s.pushAll (cs.flatMap pushes)).out := by
  induction cs generalizing s with
  | nil => exact ⟨s, rfl, rfl⟩
  | cons c cs ih =>
    obtain ⟨hc, hcs⟩ := List.forall_mem_cons.1 h
    have hnext : (s.pushAll (pushes c)).advancePos.params = p := (pushAll_params (pushes c) s).trans hp
    obtain ⟨t, ht, htout⟩ := ih hnext hcs
    refine ⟨t, by rw [forUnits_cons, hc s hp, OpResult.andThen_returns, ht], ?_⟩
    rw [htout, pushAll_advancePos, State.advancePos_out, List.flatMap_cons, State.pushAll, State.pushAll,
      State.pushAll, List.foldl_append]

/-- From a fresh state, groups of either width that are pushed are packed (rule R79). -/
theorem pushAll_out_eq_pack {k : Nat} (hk : k = 5 ∨ k = 7) {s : State} (hw : s.work = Work.reset)
    (hout : s.out = Lanes.empty) (vs : List (BitVec k)) :
    (s.pushAll vs).out = { bytes := Closed.pack vs, text := [] } := by
  obtain ⟨t, ht, hbytes, -, -, hframe⟩ := pushedGroupsArePacked k vs s hk (by rw [hw]; rfl) (by rw [hw]; rfl)
  rw [State.pushAll, ht, hframe, hbytes, hout]
  rfl

/-- From a fresh state the datapath packs the groups its units stand for (rules R132 to R135). -/
theorem forUnits_b122DecUnit_of_specified {cs : List CodePoint} {s : State} (hw : s.work = Work.reset)
    (hout : s.out = Lanes.empty) (h : ∀ c ∈ cs, IsB122Specified s.params.b122Short c) :
    ∃ t, forUnits b122DecUnit cs s = .returns t ∧
      t.out = { bytes := Closed.pack (cs.flatMap (Closed.b122Pushes s.params.b122Short)), text := [] } := by
  rw [← pushAll_out_eq_pack (.inr rfl) hw hout]
  refine forUnits_of_pushes rfl fun c hc u hu => ?_
  rw [← hu]
  exact b122DecUnit_of_specified (by rw [hu]; exact h c hc)

theorem b122Datapath_of_specified {p : Params} {t : List CodePoint} (h : ∀ c ∈ t, IsB122Specified p.b122Short c) :
    b122Datapath p t = Closed.pack (t.flatMap (Closed.b122Pushes p.b122Short)) := by
  obtain ⟨u, hu, hout⟩ := forUnits_b122DecUnit_of_specified (s := State.scratch p { bytes := [], text := t }) rfl rfl h
  rw [b122Datapath, hu, OpResult.state_returns, hout]
  rfl

/-! ### B122DEC -/

/-- Settles O17: B122DEC's body returns on every text. -/
theorem base122DecoderNeverRaises : Obligations.Base122DecoderNeverRaises := by
  intro s hx
  obtain ⟨t, ht⟩ := b122DecBody_returns s
  exact ⟨t.complete, transact_returns hx ht, rfl, rfl, rfl⟩

/-- Settles O44: OUT is not settled anew, and a well-formed text reaches no `unspecified`. -/
theorem base122DecodesWellFormedText : Obligations.Base122DecodesWellFormedText := by
  intro s hs hwf
  obtain ⟨hw, hout, -⟩ := id hs
  obtain ⟨hspec, -⟩ := b122WellFormedText_iff.1 hwf
  obtain ⟨t, ht, htout⟩ := forUnits_b122DecUnit_of_specified hw hout hspec
  have hdone := completesWith_of_returns (i := .b122dec) hs ((b122DecBody_of_wellFormed hwf).trans ht)
  rwa [htout] at hdone

/-- On any other text B122DEC's body leaves a free byte sequence in OUT (rule R136). -/
theorem b122DecBody_of_malformed {s : State} (h : b122WellFormedText s.params s.input.text = false) :
    ∃ n t, b122DecBody s = .returns t ∧ t.out.bytes = Config.freeBytes n := by
  obtain ⟨u, hu, hframe⟩ := forUnits_b122DecUnit_frame s.input.text s
  have hkeep := hframe.keepsCommand
  refine ⟨u.draws, b122DecSettle u, by rw [b122DecBody, hu]; rfl, ?_⟩
  rw [b122DecSettle, hkeep.params, hkeep.input, h]
  rfl

/-- Settles O45: the byte lane of OUT is settled with a free value, and no decoder writes the text lane. -/
theorem base122MalformedTextLeavesOutFree : Obligations.Base122MalformedTextLeavesOutFree := by
  intro s hs hmal
  obtain ⟨-, hout, -⟩ := id hs
  obtain ⟨n, t, ht, hbytes⟩ := b122DecBody_of_malformed hmal
  have htext : t.out.text = [] := by
    have hkeep := decoder_keeps_text (i := .b122dec) rfl s
    rwa [bodyOf, ht, OpResult.state_returns, hout] at hkeep
  refine ⟨n, ?_⟩
  rw [← hbytes, ← htext]
  exact completesWith_of_returns (i := .b122dec) hs ht

/-! ### The round trip -/

section
variable {short : BitVec 3}

/-- A plain unit pushes back its group (rules R127, R133). -/
theorem b122Pushes_plainUnit (g : BitVec 7) : Closed.b122Pushes short (plainUnit g) = [g] := by
  have hg := g.isLt
  have hplain : (plainUnit g).toNat = g.toNat := codePoint_toNat _ (by omega)
  rw [b122Pushes_of_plain (by omega), escapePayload, hplain, BitVec.ofNat_toNat, BitVec.setWidth_eq]

theorem not_escapeUnit_le (idx : BitVec 3) (g : BitVec 7) : ¬ (escapeUnit idx g).toNat ≤ 0x7F := by
  rw [escapeUnit_toNat]; omega

/-- A shortened escape pushes back its single group (rules R129, R134). -/
theorem b122Pushes_shortened (g : BitVec 7) : Closed.b122Pushes short (escapeUnit short g) = [g] := by
  rw [b122Pushes_of_escape (not_escapeUnit_le _ _), escapeIndex_escapeUnit, if_pos rfl, escapePayload_escapeUnit]

/-- An escape pushes back its illegal group and its payload (rules R128, R134), whose index is not the marker. -/
theorem b122Pushes_escapeUnit (hfree : b122IllegalGroup short = none) {g : BitVec 7} {idx : Fin 6}
    (hg : b122IndexOf g = some idx) (v : BitVec 7) :
    Closed.b122Pushes short (escapeUnit (BitVec.ofNat 3 idx) v) = [g, v] := by
  have hentry := b122IllegalGroup_of_indexOf hg
  have hshort : BitVec.ofNat 3 idx ≠ short := by
    rintro rfl
    rw [hfree] at hentry
    cases hentry
  rw [b122Pushes_of_escape (not_escapeUnit_le _ _), escapeIndex_escapeUnit, if_neg hshort, hentry,
    escapePayload_escapeUnit]
  rfl

/-- The units of groups push back the groups, whenever the marker is no index of an illegal byte (rule R138). -/
theorem flatMap_b122Pushes_b122Units (hfree : b122IllegalGroup short = none) (vs : List (BitVec 7)) :
    (Closed.b122Units short vs).flatMap (Closed.b122Pushes short) = vs := by
  induction vs using groups_unit_induction with
  | nil => rfl
  | plain g vs hg ih => rw [b122Units_of_legal _ hg, List.flatMap_cons, b122Pushes_plainUnit, ih]; rfl
  | last g idx hg => rw [b122Units_of_last_illegal _ hg, List.flatMap_singleton, b122Pushes_shortened]
  | escape g idx v vs hg ih =>
    rw [b122Units_of_illegal _ hg, List.flatMap_cons, b122Pushes_escapeUnit hfree hg, ih]; rfl

/-- A unit of the output language does not reach `unspecified` (rules R72, R132). -/
theorem isB122Specified_of_language {c : CodePoint} (h : InB122Language short c) : IsB122Specified short c := by
  obtain ⟨hplain, -⟩ | ⟨idx, g, hc, hg, hidx⟩ := h
  · exact .inl hplain
  · have hshort := short.isLt
    have hindex : (escapeIndex c).toNat = idx := by rw [escapeIndex_toNat]; omega
    rcases hidx with hentry | hmarker
    · exact .inr (.inr (by rw [b122IllegalGroup_isSome, hindex]; exact decide_eq_true hentry))
    · exact .inr (.inl (BitVec.eq_of_toNat_eq (hindex.trans hmarker)))

end

/-- No unit B122ENC emits reaches `unspecified`. -/
theorem b122EncodeText_specified (p : Params) (b : List Byte) :
    ∀ c ∈ b122EncodeText p b, IsB122Specified p.b122Short c := fun c hc =>
  isB122Specified_of_language (b122EncLoop_textIn _ rfl (textIn_of_empty rfl) c hc)

/-- The packed pushes of B122ENC's output are its input (rule R138): the groups come back, and packing inverts the grouping. -/
theorem pack_flatMap_b122Pushes {p : Params} (hfree : p.markerFree = true) (b : List Byte) :
    Closed.pack ((Closed.b122Units p.b122Short (Closed.groups 7 b)).flatMap (Closed.b122Pushes p.b122Short)) = b := by
  rw [flatMap_b122Pushes_b122Units (by simpa [Params.markerFree] using hfree), packInvertsGroups 7 b (.inr rfl)]

/-- The datapath inverts B122ENC (rule R138). -/
theorem b122Datapath_b122EncodeText {p : Params} (hfree : p.markerFree = true) (b : List Byte) :
    b122Datapath p (b122EncodeText p b) = b := by
  rw [b122Datapath_of_specified (b122EncodeText_specified p b), b122EncodeText_eq, pack_flatMap_b122Pushes hfree]

/-- Settles O46: WF names the bytes its text encodes, and the datapath inverts B122ENC on its image. -/
theorem base122WellFormedIsTheEncodersImage : Obligations.Base122WellFormedIsTheEncodersImage := by
  intro p t hfree
  rw [b122WellFormedText_iff]
  constructor
  · rintro ⟨-, htext⟩
    exact ⟨b122Datapath p t, by rw [← b122EncodeText_eq, htext]⟩
  · rintro ⟨b, rfl⟩
    rw [← b122EncodeText_eq, b122Datapath_b122EncodeText hfree]
    exact ⟨b122EncodeText_specified p b, rfl⟩

/-- Settles O47: the text is the groups' units (O42), which is well formed (O46), so B122DEC packs its pushes (O44), and they are the groups. -/
theorem base122RoundTrip : Obligations.Base122RoundTrip := by
  intro s t u hs ht hu hshort hfree htext
  obtain ⟨t', ht', -, -, -, hout⟩ := base122EncodesTheGroups s hs
  obtain rfl : t' = t := by rw [ht] at ht'; cases ht'; rfl
  rw [hout, ← hshort] at htext
  have hfree' : u.params.markerFree = true := by rwa [Params.markerFree, hshort]
  have hwf := (base122WellFormedIsTheEncodersImage u.params u.input.text hfree').2 ⟨_, htext⟩
  have hdone := base122DecodesWellFormedText u hu hwf
  rwa [htext, pack_flatMap_b122Pushes hfree'] at hdone

end Sys2Proof.Machine
end

section
/-! PROOFS of the exceptions family: every step answers (O10), the order of the checks (O14, O15, O16), and that no state carries between transactions (O59).
For O59 a START leaves two blocks of the same parameters different in `draws` alone. Every operation but B122DEC computes the same from any count of draws; for B122DEC the statements about its code (O17) and its OUT (O44) do instead. -/

namespace Sys2Proof.Machine

/-! ### Every step answers -/

theorem finishTransaction_next (s : State) : ∃ t, finishTransaction s = .next t := by
  unfold finishTransaction
  split
  · exact ⟨_, rfl⟩
  · rename_i i _
    obtain ⟨t, ht, -⟩ := transact_next i.dir (bodyOf i) s
    exact ⟨t, (exec_eq_transact i s).trans ht⟩

/-- Settles O10, by the three kinds of step: a reset, a completion, a move of the host. -/
theorem everyStepAnswersNext : Obligations.EveryStepAnswersNext := by
  intro s
  by_cases hr : s.host.head? = some .reset
  · exact ⟨_, step_of_reset hr⟩
  by_cases hb : s.phase = .busy
  · rw [step_of_busy hr hb]; exact finishTransaction_next _
  · exact ⟨_, step_of_not_busy hr hb⟩

/-! ### The order of the checks -/

section
variable {i : Instr} {s t : State}

/-- An input beyond MAX_IN_LEN ends the operation before its body runs (rule R145). -/
theorem exec_of_exceeds (h : Params.exceeds s.params (s.inLen i.dir) = true) :
    exec i s = .next (s.terminate .capacityExceeded 0) :=
  (exec_eq_transact i s).trans (if_pos h)

/-- Within MAX_IN_LEN an operation gives OK or InvalidEncoding (rule R147). -/
theorem exec_code_of_within (hx : Params.exceeds s.params (s.inLen i.dir) = false) (h : exec i s = .next t) :
    t.code = .ok ∨ t.code = .invalidEncoding := by
  rw [exec_eq_transact] at h
  rcases transact_cases h with ⟨hx', -⟩ | ⟨-, ⟨u, -, rfl⟩ | ⟨j, u, -, rfl⟩⟩
  · rw [hx] at hx'; cases hx'
  · exact .inl rfl
  · exact .inr rfl

end

/-- Settles O14: beyond MAX_IN_LEN the operation ends with `State.terminate` on the registers it had, and no input is beyond an infinite one. -/
theorem longInputExceedsCapacity : Obligations.LongInputExceedsCapacity := by
  constructor
  · intro i s n hn hlong
    have hx : Params.exceeds s.params (s.inLen i.dir) = true := by simpa [Params.exceeds, hn] using hlong
    exact ⟨_, exec_of_exceeds hx, rfl, rfl, fitIndex_zero _, terminate_deliversNothing (by decide) s 0,
      rfl, rfl, rfl, rfl, rfl⟩
  · intro i s t hn h hcode
    have hx : Params.exceeds s.params (s.inLen i.dir) = false := by simp [Params.exceeds, hn]
    rcases exec_code_of_within hx h with hc | hc <;> rw [hc] at hcode <;> cases hcode

/-- Settles O15: the completion of a BUSY block, by what its command decodes to and then by the length of its input. -/
theorem errorsComeInThePriorityOrder : Obligations.ErrorsComeInThePriorityOrder := by
  intro s hb hr
  obtain ⟨-, hop, -, -, hinput, -, -, hparams⟩ := passMove_sameRegisters s
  obtain ⟨t, ht⟩ := finishTransaction_next s.passMove
  refine ⟨t, (step_of_busy hr hb).trans ht, fun h3 => ?reserved, fun i hi => ?command⟩
  case reserved =>
    rw [finishTransaction_of_reserved (hop ▸ h3)] at ht
    cases ht; rfl
  case command =>
    have hlen : s.passMove.inLen i.dir = s.inLen i.dir := by cases i.dir <;> simp [State.inLen, hinput]
    rw [finishTransaction_of_command (hop ▸ hi)] at ht
    rw [← hparams, ← hlen]
    refine ⟨fun hx => ?_, fun hx => exec_code_of_within hx ht⟩
    rw [exec_of_exceeds hx] at ht
    cases ht; rfl

/-- Settles O16: an encoder's body returns from every state. -/
theorem encodersNeverFail : Obligations.EncodersNeverFail := by
  intro s hx i hi
  have hdir : i.dir = .enc := by rcases hi with rfl | rfl | rfl | rfl <;> rfl
  obtain ⟨t, ht⟩ := encoder_returns hdir s
  refine ⟨t.complete, ?_, rfl, rfl, rfl⟩
  rw [exec_eq_transact, hdir]
  exact transact_returns hx ht

/-! ### A START leaves nothing of the past but the count of draws -/

/-- The block with another count of free values drawn so far (log 4). -/
def State.withDraws (n : Nat) (s : State) : State := { s with draws := n }

@[simp] theorem State.withDraws_op (s : State) (n : Nat) : (s.withDraws n).op = s.op := rfl
@[simp] theorem State.withDraws_input (s : State) (n : Nat) : (s.withDraws n).input = s.input := rfl
@[simp] theorem State.withDraws_work (s : State) (n : Nat) : (s.withDraws n).work = s.work := rfl
@[simp] theorem State.withDraws_params (s : State) (n : Nat) : (s.withDraws n).params = s.params := rfl

/-- Two blocks of the same parameters that accept the same START differ in `draws` alone (rules R35, R161). -/
theorem acceptStart_withDraws {s u : State} (hparams : u.params = s.params) (hhost : u.host = s.host) (r : Request) :
    u.acceptStart r = (s.acceptStart r).withDraws u.draws := by
  cases s; cases u; cases hparams; cases hhost; rfl

/-- Two steps are the second, taken from what the first answers. -/
theorem run_two_of_step {s t : State} (h : step s = .next t) : core.run 2 s = step t := by
  obtain ⟨u, hu⟩ := everyStepAnswersNext t
  have hfirst : core.step s = .next t := h
  have hsecond : core.step t = .next u := hu
  simp only [Host.Core.run, hfirst, hsecond, hu]
  rfl

/-- A transaction is two steps: the START, and the completion on the state it leaves (rules R160 to R162). -/
theorem run_two_of_start {s : State} {r : Request} (hb : s.phase ≠ .busy) (hhost : s.host = [.start r]) :
    core.run 2 s = finishTransaction ({ s with host := [] }.acceptStart r) := by
  have hstart : s.host.head? = some (.start r) := by rw [hhost]; rfl
  have hfirst : step s = .next ({ s with host := [] }.acceptStart r) := by
    rw [step_of_not_busy (by simp [hstart]) hb, idleStep_of_start hstart, hhost]; rfl
  rw [run_two_of_step hfirst, step_of_busy (by simp) rfl, passMove_of_nil rfl]

/-! ### What draws no free value does not depend on how many were drawn -/

/-- How an operation ended, with another count of draws. -/
def OpResult.withDraws (n : Nat) : OpResult → OpResult
  | .returns s => .returns (s.withDraws n)
  | .raises i s => .raises i (s.withDraws n)

/-- A part of an operation that neither reads nor moves the count of draws. -/
def IgnoresDraws (f : State → OpResult) : Prop := ∀ s n, f (s.withDraws n) = (f s).withDraws n

theorem IgnoresDraws.andThen {f k : State → OpResult} (hf : IgnoresDraws f) (hk : IgnoresDraws k) :
    IgnoresDraws fun s => (f s).andThen k := fun s n => by
  simp only [hf s n]
  cases f s with
  | returns t => exact hk t n
  | raises i t => rfl

theorem forUnits_ignoresDraws {f : CodePoint → State → OpResult} (hf : ∀ c, IgnoresDraws (f c)) :
    ∀ cs, IgnoresDraws (forUnits f cs)
  | [], _, _ => rfl
  | c :: cs, s, n => by
    rw [forUnits_cons, forUnits_cons, hf c]
    cases f c s with
    | returns t => exact forUnits_ignoresDraws hf cs t.advancePos n
    | raises i t => rfl

/-! ### Encoders -/

theorem setCursor_withDraws (s : State) (bit n : Nat) : (s.withDraws n).setCursor bit = (s.setCursor bit).withDraws n := by
  rw [State.setCursor, State.setCursor, apply_ite (State.withDraws n)]; rfl

theorem advanceCursor_withDraws (s : State) (k n : Nat) :
    (s.withDraws n).advanceCursor k = (s.advanceCursor k).withDraws n :=
  setCursor_withDraws s _ n

theorem nextGroup_withDraws (k : Nat) (s : State) (n : Nat) :
    nextGroup k (s.withDraws n) = ((nextGroup k s).1, (nextGroup k s).2.withDraws n) := by
  have hread : (s.withDraws n).memReadByte (s.withDraws n).work.curByte = s.memReadByte s.work.curByte := rfl
  rw [nextGroup, nextGroup, hread]
  cases s.memReadByte s.work.curByte with
  | none => rfl
  | some hi => rw [advanceCursor_withDraws]; rfl

theorem b32EncLoop_withDraws : ∀ (fuel : Nat) (s : State) (n : Nat),
    b32EncLoop fuel (s.withDraws n) = (b32EncLoop fuel s).withDraws n
  | 0, _, _ => rfl
  | fuel + 1, s, n => by
    rw [b32EncLoop, b32EncLoop, nextGroup_withDraws]
    rcases nextGroup Config.groupB32 s with ⟨_ | v, t⟩
    · rfl
    · exact b32EncLoop_withDraws fuel (t.emitText [b32Symbol v]) n

theorem b122EncEscape_withDraws (idx : Fin 6) (g : BitVec 7) (s : State) (n : Nat) :
    b122EncEscape idx g (s.withDraws n) = (b122EncEscape idx g s).withDraws n := by
  have hpend : (s.withDraws n).setPend (some { idx := idx, group := g }) =
      (s.setPend (some { idx := idx, group := g })).withDraws n := rfl
  rw [b122EncEscape, b122EncEscape, hpend, nextGroup_withDraws]
  rcases nextGroup Config.groupB122 (s.setPend (some { idx := idx, group := g })) with ⟨_ | h, t⟩
  · rfl
  · rfl

theorem b122EncLoop_withDraws : ∀ (fuel : Nat) (s : State) (n : Nat),
    b122EncLoop fuel (s.withDraws n) = (b122EncLoop fuel s).withDraws n
  | 0, _, _ => rfl
  | fuel + 1, s, n => by
    rw [b122EncLoop, b122EncLoop, nextGroup_withDraws]
    rcases nextGroup Config.groupB122 s with ⟨_ | g, t⟩
    · rfl
    · dsimp only
      cases b122IndexOf g with
      | none => exact b122EncLoop_withDraws fuel (t.emitText [plainUnit g]) n
      | some idx =>
        dsimp only
        rw [b122EncEscape_withDraws, b122EncLoop_withDraws fuel]

theorem b85EncLoop_withDraws : ∀ (bs : List Byte) (s : State) (n : Nat),
    b85EncLoop bs (s.withDraws n) = (b85EncLoop bs s).withDraws n
  | [], _, _ | [_], _, _ | [_, _], _, _ | [_, _, _], _, _ => rfl
  | a :: b :: c :: d :: rest, s, n => b85EncLoop_withDraws rest (b85EncChunk [a, b, c, d] s) n

theorem b58DigitLoop_withDraws : ∀ (fuel : Nat) (s : State) (ds : List (Fin 58)) (n : Nat),
    b58DigitLoop fuel (s.withDraws n) ds = ((b58DigitLoop fuel s ds).1, (b58DigitLoop fuel s ds).2.withDraws n)
  | 0, _, _, _ => rfl
  | fuel + 1, s, ds, n => by
    by_cases h : s.work.big = 0
    · rw [b58DigitLoop, b58DigitLoop, if_pos h, if_pos (show (s.withDraws n).work.big = 0 from h)]
    · rw [b58DigitLoop, b58DigitLoop, if_neg h, if_neg (show ¬ (s.withDraws n).work.big = 0 from h)]
      exact b58DigitLoop_withDraws fuel { s with work.big := s.work.big / 58 } _ n

theorem b58EncBody_ignoresDraws : IgnoresDraws b58EncBody := fun s n => by
  have hload : (s.withDraws n).loadBig = s.loadBig.withDraws n := rfl
  rw [b58EncBody, b58EncBody, State.withDraws_input, hload]
  split
  · rfl
  · exact congrArg (fun r => OpResult.returns (b58EncEmit r)) (b58DigitLoop_withDraws _ s.loadBig [] n)

/-! ### Decoders -/

theorem takeBits_withDraws (s : State) (t cnt n : Nat) : (s.withDraws n).takeBits t cnt = (s.takeBits t cnt).withDraws n := by
  rw [State.takeBits, State.takeBits, apply_ite (State.withDraws n)]; rfl

theorem pushGroup_withDraws {k : Nat} (v : BitVec k) (s : State) (n : Nat) :
    pushGroup v (s.withDraws n) = (pushGroup v s).withDraws n :=
  takeBits_withDraws s _ _ n

theorem b32DecUnit_ignoresDraws (c : CodePoint) : IgnoresDraws (b32DecUnit c) := fun s n => by
  rw [b32DecUnit, b32DecUnit, State.withDraws_params]
  split
  · rfl
  · cases b32Value s.params.b32Fold c with
    | some v => exact congrArg OpResult.returns (pushGroup_withDraws v s n)
    | none => rfl

theorem b85EmitGroup_ignoresDraws (m i : Nat) : IgnoresDraws (b85EmitGroup m i) := fun s n => by
  rw [b85EmitGroup, b85EmitGroup, apply_ite (OpResult.withDraws n)]; rfl

theorem b85FullGroup_ignoresDraws : IgnoresDraws b85FullGroup := fun s n => by
  have hempty : IgnoresDraws fun t => .returns { t with work.b85Cnt := 0 } := fun _ _ => rfl
  rw [b85FullGroup, b85FullGroup, State.withDraws_work]
  split
  · exact (b85EmitGroup_ignoresDraws 5 s.work.pos).andThen hempty s n
  · rfl

theorem b85DecUnit_ignoresDraws (c : CodePoint) : IgnoresDraws (b85DecUnit c) := fun s n => by
  rw [b85DecUnit, b85DecUnit, State.withDraws_work]
  split
  · rfl
  split
  · split
    · rfl
    · rfl
  split
  · exact b85FullGroup_ignoresDraws (b85PushDigit (c.toNat - 0x21) s) n
  · rfl

theorem b85DecTail_ignoresDraws : IgnoresDraws b85DecTail := fun s n => by
  rw [b85DecTail, b85DecTail, State.withDraws_work]
  split
  · rfl
  · exact b85EmitGroup_ignoresDraws _ _ { s with work.b85Buf := b85Pad s.work.b85Cnt.toNat s.work.b85Buf } n

theorem b58DecUnit_ignoresDraws (c : CodePoint) : IgnoresDraws (b58DecUnit c) := fun s n => by
  rw [b58DecUnit, b58DecUnit]
  cases b58Rev c with
  | none => rfl
  | some d => rfl

theorem b58DecBody_ignoresDraws : IgnoresDraws b58DecBody := fun s n => by
  have hemit : IgnoresDraws fun t => .returns (b58DecEmit (b58Trimmed s.params s.input.text) t) := fun _ _ => rfl
  rw [b58DecBody, b58DecBody, State.withDraws_params, State.withDraws_input]
  split
  · rfl
  · exact (forUnits_ignoresDraws b58DecUnit_ignoresDraws (b58Trimmed s.params s.input.text)).andThen hemit
      { s with work.big := 0, work.pos := b58Skip s.params s.input.text } n

/-- Only B122DEC draws a free value (rule R136). -/
theorem bodyOf_ignoresDraws {i : Instr} (hi : i ≠ .b122dec) : IgnoresDraws (bodyOf i) := fun s n => by
  cases i with
  | b32enc => exact congrArg OpResult.returns (b32EncLoop_withDraws s.groupFuel s n)
  | b32dec => exact forUnits_ignoresDraws b32DecUnit_ignoresDraws s.input.text s n
  | b85enc => exact congrArg OpResult.returns (b85EncLoop_withDraws s.input.bytes s n)
  | b85dec =>
    exact (forUnits_ignoresDraws b85DecUnit_ignoresDraws s.input.text).andThen b85DecTail_ignoresDraws
      { s with work.b85Cnt := 0 } n
  | b58enc => exact b58EncBody_ignoresDraws s n
  | b58dec => exact b58DecBody_ignoresDraws s n
  | b122enc => exact congrArg OpResult.returns (b122EncLoop_withDraws s.groupFuel s n)
  | b122dec => exact absurd rfl hi

/-! ### Two transactions that differ in the count of draws -/

/-- Two transactions give the same CODE and ERR_INDEX, and the same OUT when OK and `p` (rule R167). -/
def SameAnswer (p : Prop) (a b : Result) : Prop :=
  ∃ t v : State, a = .next t ∧ b = .next v ∧ t.code = v.code ∧ t.errIndex = v.errIndex ∧
    (t.code = .ok → p → t.out = v.out)

/-- Two error terminations with one CODE and index; neither is OK (rule R146). -/
theorem sameAnswer_terminate {code : Code} (h : code ≠ .ok) (p : Prop) (s : State) (index n : Nat) :
    SameAnswer p (.next (s.terminate code index)) (.next ((s.withDraws n).terminate code index)) :=
  ⟨_, _, rfl, rfl, rfl, rfl, fun hok => absurd hok h⟩

section
variable {i : Instr} {s : State} {p : Prop}

/-- Within MAX_IN_LEN an operation whose body does not depend on the count of draws answers the same from any. -/
theorem exec_sameAnswer_of_ignoresDraws (hbody : IgnoresDraws (bodyOf i))
    (hx : Params.exceeds s.params (s.inLen i.dir) = false) (n : Nat) :
    SameAnswer p (exec i s) (exec i (s.withDraws n)) := by
  have hb := hbody s n
  rw [exec_eq_transact, exec_eq_transact]
  cases hr : bodyOf i s with
  | returns t =>
    rw [hr] at hb
    exact ⟨_, _, transact_returns hx hr, transact_returns hx hb, rfl, rfl, fun _ _ => rfl⟩
  | raises j t =>
    rw [hr] at hb
    rw [transact_raises hx hr, transact_raises (s := s.withDraws n) hx hb]
    exact sameAnswer_terminate (by decide) p t j n

/-- B122DEC ends with OK on every text (O17), and with the packed pushes on a well-formed one (O44). -/
theorem b122dec_sameAnswer (hs : s.Ready .dec) (hp : p → b122WellFormedText s.params s.input.text = true) (n : Nat) :
    SameAnswer p (exec .b122dec s) (exec .b122dec (s.withDraws n)) := by
  obtain ⟨-, -, hx⟩ := id hs
  obtain ⟨t, ht, -, htcode, htindex⟩ := base122DecoderNeverRaises s hx
  obtain ⟨v, hv, -, hvcode, hvindex⟩ := base122DecoderNeverRaises (s.withDraws n) hx
  refine ⟨t, v, ht, hv, htcode.trans hvcode.symm, htindex.trans hvindex.symm, fun _ h => ?_⟩
  have htout := out_of_completesWith (base122DecodesWellFormedText s hs (hp h)) ht
  have hvout := out_of_completesWith (base122DecodesWellFormedText (s.withDraws n) hs (hp h)) hv
  exact htout.trans hvout.symm

/-- An operation right after START answers the same from any count of draws, but for B122DEC's OUT on a malformed text (rule R167). -/
theorem exec_sameAnswer (hw : s.work = Work.reset) (hout : s.out = Lanes.empty)
    (hp : p → i = .b122dec → b122WellFormedText s.params s.input.text = true) (n : Nat) :
    SameAnswer p (exec i s) (exec i (s.withDraws n)) := by
  cases hx : Params.exceeds s.params (s.inLen i.dir) with
  | true =>
    rw [exec_of_exceeds hx, exec_of_exceeds (s := s.withDraws n) hx]
    exact sameAnswer_terminate (by decide) p s 0 n
  | false =>
    by_cases hi : i = .b122dec
    · subst hi
      exact b122dec_sameAnswer ⟨hw, hout, hx⟩ (fun h => hp h rfl) n
    · exact exec_sameAnswer_of_ignoresDraws (bodyOf_ignoresDraws hi) hx n

/-- The completion right after START answers the same from any count of draws, reserved commands among it. -/
theorem finishTransaction_sameAnswer (hw : s.work = Work.reset) (hout : s.out = Lanes.empty)
    (hp : p → decode s.op = .command .b122dec → b122WellFormedText s.params s.input.text = true) (n : Nat) :
    SameAnswer p (finishTransaction s) (finishTransaction (s.withDraws n)) := by
  rw [finishTransaction, finishTransaction, State.withDraws_op]
  cases hd : decode s.op with
  | reserved op => exact sameAnswer_terminate (by decide) p s 0 n
  | command i => exact exec_sameAnswer hw hout (fun h hi => hp h (by rw [hd, hi])) n

end

/-- B122DEC captures the text lane (rules R39, R55). -/
theorem capture_text_of_b122dec {cmd : BitVec 4} (h : decode cmd = .command .b122dec) (l : Lanes) :
    (Lanes.capture cmd l).text = l.text := by
  rw [eq_encode_of_decode h]; rfl

/-- Settles O59: the START leaves the two blocks with different draws at most, and the completion answers the same from both. -/
theorem noStateCarriesBetweenTransactions : Obligations.NoStateCarriesBetweenTransactions := by
  intro s u r hs hu hparams hshost huhost
  have hstart : { u with host := [] }.acceptStart r = ({ s with host := [] }.acceptStart r).withDraws u.draws :=
    acceptStart_withDraws (s := { s with host := [] }) (u := { u with host := [] }) hparams rfl r
  have hanswer := finishTransaction_sameAnswer (s := { s with host := [] }.acceptStart r)
    (p := decode r.cmd = .command .b122dec → b122WellFormedText s.params r.input.text = true) rfl rfl
    (fun h (hd : decode r.cmd = _) => by rw [State.acceptStart_input, capture_text_of_b122dec hd]; exact h hd) u.draws
  rw [← hstart, ← run_two_of_start hs hshost, ← run_two_of_start hu huhost] at hanswer
  exact hanswer

end Sys2Proof.Machine
end

section
/-! PROOFS of the reset and hazards family: START, reset and the host's moves in each STATE (O5, O6, O8, O9, O12).
For O5 no operation reads or writes the host's coming moves, so it computes the same whatever they are: a START that is held makes no difference to the running transaction. -/

namespace Sys2Proof.Machine

/-! ### One step in each STATE -/

/-- Settles O6: the state of the reset step is reset's but for the parameters and the model's own fields. -/
theorem resetTakesEffectInAnyState : Obligations.ResetTakesEffectInAnyState :=
  fun s h => ⟨s.takeReset, step_of_reset h, rfl⟩

/-- Settles O8: without a START or a reset, DONE passes the host's move, which leaves every register alone. -/
theorem doneIsStable : Obligations.DoneIsStable := by
  intro s hdone hr hstart
  have hb : s.phase ≠ .busy := by simp [hdone]
  refine ⟨s.passMove, ?_, passMove_sameRegisters s⟩
  rw [step_of_not_busy hr hb, idleStep_of_no_start hstart]

/-- Settles O9: the step answers (O10), and what a BUSY block answers is DONE. -/
theorem everyTransactionCompletes : Obligations.EveryTransactionCompletes := by
  intro s hb hr
  obtain ⟨t, ht⟩ := everyStepAnswersNext s
  obtain ⟨hdone, -⟩ := step_of_busy_keeps hr hb ht
  exact ⟨t, ht, hdone⟩

/-- Settles O12: the second step is the completion, which runs the command START latched. -/
theorem transactionIsStartThenOperation : Obligations.TransactionIsStartThenOperation :=
  fun _ _ _ hb hhost hd => (run_two_of_start hb hhost).trans (finishTransaction_of_command hd)

/-- A START that comes next is accepted unless the block is BUSY (rules R160, R161). -/
theorem step_of_start {s : State} (hb : s.phase ≠ .busy) (r : Request) (rest : List HostEvent) :
    step { s with host := .start r :: rest } = .next ({ s with host := rest }.acceptStart r) :=
  (step_of_not_busy (s := { s with host := .start r :: rest }) nofun hb).trans
    (congrArg Host.Outcome.next (idleStep_of_start rfl))

/-! ### What does not depend on the host's coming moves -/

/-- The block with other coming moves of the host (log 2). -/
def State.withHost (l : List HostEvent) (s : State) : State := { s with host := l }

@[simp] theorem State.withHost_op (s : State) (l : List HostEvent) : (s.withHost l).op = s.op := rfl
@[simp] theorem State.withHost_input (s : State) (l : List HostEvent) : (s.withHost l).input = s.input := rfl
@[simp] theorem State.withHost_work (s : State) (l : List HostEvent) : (s.withHost l).work = s.work := rfl
@[simp] theorem State.withHost_params (s : State) (l : List HostEvent) : (s.withHost l).params = s.params := rfl

/-- How an operation ended, with other coming moves of the host. -/
def OpResult.withHost (l : List HostEvent) : OpResult → OpResult
  | .returns s => .returns (s.withHost l)
  | .raises i s => .raises i (s.withHost l)

/-- An update of the state that neither reads nor writes the host's coming moves. -/
def CommutesWithHost (f : State → State) : Prop := ∀ s l, f (s.withHost l) = (f s).withHost l

/-- A part of an operation that neither reads nor writes the host's coming moves. -/
def IgnoresHost (f : State → OpResult) : Prop := ∀ s l, f (s.withHost l) = (f s).withHost l

theorem CommutesWithHost.returns {f : State → State} (hf : CommutesWithHost f) : IgnoresHost fun s => .returns (f s) :=
  fun s l => congrArg OpResult.returns (hf s l)

theorem IgnoresHost.andThen {f k : State → OpResult} (hf : IgnoresHost f) (hk : IgnoresHost k) :
    IgnoresHost fun s => (f s).andThen k := fun s l => by
  simp only [hf s l]
  cases f s with
  | returns t => exact hk t l
  | raises i t => rfl

theorem forUnits_ignoresHost {f : CodePoint → State → OpResult} (hf : ∀ c, IgnoresHost (f c)) :
    ∀ cs, IgnoresHost (forUnits f cs)
  | [], _, _ => rfl
  | c :: cs, s, l => by
    rw [forUnits_cons, forUnits_cons, hf c]
    cases f c s with
    | returns t => exact forUnits_ignoresHost hf cs t.advancePos l
    | raises i t => rfl

/-! ### Encoders -/

theorem advanceCursor_withHost (s : State) (k : Nat) (l : List HostEvent) :
    (s.withHost l).advanceCursor k = (s.advanceCursor k).withHost l := by
  simp only [State.advanceCursor, State.setCursor, apply_ite (State.withHost l)]; rfl

theorem nextGroup_withHost (k : Nat) (s : State) (l : List HostEvent) :
    nextGroup k (s.withHost l) = ((nextGroup k s).1, (nextGroup k s).2.withHost l) := by
  have hread : (s.withHost l).memReadByte (s.withHost l).work.curByte = s.memReadByte s.work.curByte := rfl
  rw [nextGroup, nextGroup, hread]
  cases s.memReadByte s.work.curByte with
  | none => rfl
  | some hi => rw [advanceCursor_withHost]; rfl

theorem b32EncLoop_commutesWithHost : ∀ fuel, CommutesWithHost (b32EncLoop fuel)
  | 0, _, _ => rfl
  | fuel + 1, s, l => by
    rw [b32EncLoop, b32EncLoop, nextGroup_withHost]
    rcases nextGroup Config.groupB32 s with ⟨_ | v, t⟩
    · rfl
    · exact b32EncLoop_commutesWithHost fuel (t.emitText [b32Symbol v]) l

theorem b122EncEscape_commutesWithHost (idx : Fin 6) (g : BitVec 7) : CommutesWithHost (b122EncEscape idx g) :=
  fun s l => by
    have hpend : (s.withHost l).setPend (some { idx := idx, group := g }) =
        (s.setPend (some { idx := idx, group := g })).withHost l := rfl
    rw [b122EncEscape, b122EncEscape, hpend, nextGroup_withHost]
    rcases nextGroup Config.groupB122 (s.setPend (some { idx := idx, group := g })) with ⟨_ | h, t⟩
    · rfl
    · rfl

theorem b122EncLoop_commutesWithHost : ∀ fuel, CommutesWithHost (b122EncLoop fuel)
  | 0, _, _ => rfl
  | fuel + 1, s, l => by
    rw [b122EncLoop, b122EncLoop, nextGroup_withHost]
    rcases nextGroup Config.groupB122 s with ⟨_ | g, t⟩
    · rfl
    · dsimp only
      cases b122IndexOf g with
      | none => exact b122EncLoop_commutesWithHost fuel (t.emitText [plainUnit g]) l
      | some idx =>
        dsimp only
        rw [b122EncEscape_commutesWithHost, b122EncLoop_commutesWithHost fuel]

theorem b85EncLoop_commutesWithHost : ∀ bs, CommutesWithHost (b85EncLoop bs)
  | [], _, _ | [_], _, _ | [_, _], _, _ | [_, _, _], _, _ => rfl
  | a :: b :: c :: d :: rest, s, l => b85EncLoop_commutesWithHost rest (b85EncChunk [a, b, c, d] s) l

theorem b58DigitLoop_withHost (l : List HostEvent) : ∀ (fuel : Nat) (s : State) (ds : List (Fin 58)),
    b58DigitLoop fuel (s.withHost l) ds = ((b58DigitLoop fuel s ds).1, (b58DigitLoop fuel s ds).2.withHost l)
  | 0, _, _ => rfl
  | fuel + 1, s, ds => by
    by_cases h : s.work.big = 0
    · rw [b58DigitLoop, b58DigitLoop, if_pos h, if_pos (show (s.withHost l).work.big = 0 from h)]
    · rw [b58DigitLoop, b58DigitLoop, if_neg h, if_neg (show ¬ (s.withHost l).work.big = 0 from h)]
      exact b58DigitLoop_withHost l fuel { s with work.big := s.work.big / 58 } _

theorem b58EncBody_ignoresHost : IgnoresHost b58EncBody := fun s l => by
  rw [b58EncBody, b58EncBody, State.withHost_input]
  split
  · rfl
  · exact congrArg (fun r => OpResult.returns (b58EncEmit r)) (b58DigitLoop_withHost l _ s.loadBig [])

/-! ### Decoders -/

theorem pushGroup_commutesWithHost {k : Nat} (v : BitVec k) : CommutesWithHost (pushGroup v) := fun s l => by
  simp only [pushGroup, State.takeBits, apply_ite (State.withHost l)]; rfl

theorem b32DecUnit_ignoresHost (c : CodePoint) : IgnoresHost (b32DecUnit c) := fun s l => by
  rw [b32DecUnit, b32DecUnit, State.withHost_params]
  split
  · rfl
  · cases b32Value s.params.b32Fold c with
    | some v => exact (pushGroup_commutesWithHost v).returns s l
    | none => rfl

theorem b85EmitGroup_ignoresHost (m i : Nat) : IgnoresHost (b85EmitGroup m i) := fun s l => by
  rw [b85EmitGroup, b85EmitGroup, apply_ite (OpResult.withHost l)]; rfl

theorem b85FullGroup_ignoresHost : IgnoresHost b85FullGroup := fun s l => by
  have hempty : IgnoresHost fun t => .returns { t with work.b85Cnt := 0 } := fun _ _ => rfl
  rw [b85FullGroup, b85FullGroup, State.withHost_work]
  split
  · exact (b85EmitGroup_ignoresHost 5 s.work.pos).andThen hempty s l
  · rfl

theorem b85DecUnit_ignoresHost (c : CodePoint) : IgnoresHost (b85DecUnit c) := fun s l => by
  rw [b85DecUnit, b85DecUnit, State.withHost_work]
  split
  · rfl
  split
  · split
    · rfl
    · rfl
  split
  · exact b85FullGroup_ignoresHost (b85PushDigit (c.toNat - 0x21) s) l
  · rfl

theorem b85DecTail_ignoresHost : IgnoresHost b85DecTail := fun s l => by
  rw [b85DecTail, b85DecTail, State.withHost_work]
  split
  · rfl
  · exact b85EmitGroup_ignoresHost _ _ { s with work.b85Buf := b85Pad s.work.b85Cnt.toNat s.work.b85Buf } l

theorem b58DecUnit_ignoresHost (c : CodePoint) : IgnoresHost (b58DecUnit c) := fun s l => by
  rw [b58DecUnit, b58DecUnit]
  cases b58Rev c with
  | none => rfl
  | some d => rfl

theorem b58DecBody_ignoresHost : IgnoresHost b58DecBody := fun s l => by
  have hemit : IgnoresHost fun t => .returns (b58DecEmit (b58Trimmed s.params s.input.text) t) := fun _ _ => rfl
  rw [b58DecBody, b58DecBody, State.withHost_params, State.withHost_input]
  split
  · rfl
  · exact (forUnits_ignoresHost b58DecUnit_ignoresHost (b58Trimmed s.params s.input.text)).andThen hemit
      { s with work.big := 0, work.pos := b58Skip s.params s.input.text } l

theorem b122PushIllegal_commutesWithHost (idx : BitVec 3) : CommutesWithHost (b122PushIllegal idx) := fun s l => by
  rw [b122PushIllegal, b122PushIllegal]
  cases b122IllegalGroup idx with
  | some g => exact pushGroup_commutesWithHost g s l
  | none => exact pushGroup_commutesWithHost (Config.freeGroup s.draws) { s with draws := s.draws + 1 } l

theorem b122DecUnit_ignoresHost (c : CodePoint) : IgnoresHost (b122DecUnit c) := fun s l => by
  have hpush := (pushGroup_commutesWithHost (escapePayload c)).returns
  rw [b122DecUnit, b122DecUnit, State.withHost_params]
  split
  · exact hpush s l
  split
  · exact hpush s l
  · rw [b122PushIllegal_commutesWithHost]
    exact hpush (b122PushIllegal (escapeIndex c) s) l

theorem b122DecSettle_commutesWithHost : CommutesWithHost b122DecSettle := fun s l => by
  rw [b122DecSettle, b122DecSettle, apply_ite (State.withHost l)]; rfl

/-- No operation reads or writes the host's coming moves. -/
theorem bodyOf_ignoresHost (i : Instr) : IgnoresHost (bodyOf i) := fun s l => by
  cases i with
  | b32enc => exact (b32EncLoop_commutesWithHost s.groupFuel).returns s l
  | b32dec => exact forUnits_ignoresHost b32DecUnit_ignoresHost s.input.text s l
  | b85enc => exact (b85EncLoop_commutesWithHost s.input.bytes).returns s l
  | b85dec =>
    exact (forUnits_ignoresHost b85DecUnit_ignoresHost s.input.text).andThen b85DecTail_ignoresHost
      { s with work.b85Cnt := 0 } l
  | b58enc => exact b58EncBody_ignoresHost s l
  | b58dec => exact b58DecBody_ignoresHost s l
  | b122enc => exact (b122EncLoop_commutesWithHost s.groupFuel).returns s l
  | b122dec =>
    exact (forUnits_ignoresHost b122DecUnit_ignoresHost s.input.text).andThen
      b122DecSettle_commutesWithHost.returns s l

/-! ### A START is held while BUSY -/

/-- A completion is the same whatever the host's coming moves, which it leaves alone (rule R160). -/
theorem finishTransaction_withHost {s t : State} (h : finishTransaction s = .next t) (l : List HostEvent) :
    finishTransaction (s.withHost l) = .next (t.withHost l) := by
  rcases finishTransaction_cases h with ⟨op, hd, rfl⟩ | ⟨i, hd, hi⟩
  · rw [finishTransaction, State.withHost_op, hd]; rfl
  · have hbody := bodyOf_ignoresHost i s l
    rw [finishTransaction_of_command (s := s.withHost l) hd, exec_eq_transact]
    rcases transact_cases hi with ⟨hx, rfl⟩ | ⟨hx, ⟨u, hu, rfl⟩ | ⟨j, u, hu, rfl⟩⟩
    · exact if_pos hx
    · rw [hu] at hbody; exact transact_returns (s := s.withHost l) hx hbody
    · rw [hu] at hbody; exact transact_raises (s := s.withHost l) hx hbody

/-- A BUSY block whose host has no move to pass, or a START that waits, completes and leaves the host's list alone. -/
theorem step_of_busy_held {s t : State} (hb : s.phase = .busy) (ht : finishTransaction s = .next t)
    {l : List HostEvent} (hl : l = [] ∨ ∃ r rest, l = .start r :: rest) :
    step (s.withHost l) = .next (t.withHost l) := by
  have hpass : (s.withHost l).host.head? ≠ some .reset ∧ (s.withHost l).passMove = s.withHost l := by
    rcases hl with rfl | ⟨r, rest, rfl⟩
    · exact ⟨nofun, passMove_of_nil rfl⟩
    · exact ⟨nofun, passMove_of_start rfl⟩
  obtain ⟨hr, hpass⟩ := hpass
  rw [step_of_busy hr hb, hpass, finishTransaction_withHost ht]

/-- Settles O5: the running transaction completes with the START as without it, and the block is then DONE, which accepts it. -/
theorem startIsHeldWhileBusy : Obligations.StartIsHeldWhileBusy := by
  intro s r rest
  refine ⟨fun h => step_of_start ?notBusy r rest, fun hb => ?busy⟩
  case notBusy => rcases h with h | h <;> simp [h]
  case busy =>
    obtain ⟨t, ht⟩ := finishTransaction_next s
    obtain ⟨hdone, -⟩ := finishTransaction_done_keepsCommand ht
    have hb' : t.phase ≠ .busy := by simp [hdone]
    exact ⟨t.withHost [], step_of_busy_held hb ht (.inl rfl), hdone,
      step_of_busy_held hb ht (.inr ⟨r, rest, rfl⟩), step_of_start hb' r rest⟩

end Sys2Proof.Machine
end
